-- ==== Sys2Proof/Word.lean ====
section
/-! DEFINITION. The words the block handles (00_scope.md R10, R11): bytes, the 16-bit CRC word, the
24-bit message id, byte strings. -/

namespace Sys2Proof

/-- A `u8` of the spec (R10); also one character of the text protocol (R11). -/
abbrev Byte := BitVec 8

/-- A `u16` of the spec (R10): the CRC register and the received frame checksum. -/
abbrev Half := BitVec 16

/-- A `u24` of the spec (R8): a message id. -/
abbrev MsgId := BitVec 24

/-- A byte string or character string (R11). -/
abbrev Bytes := List Byte

/-- The 8-bit code of a character (R11: `'c'` is the 8-bit ASCII code of c). -/
def chr (c : Char) : Byte := BitVec.ofNat 8 c.toNat

/-- The codes of a list of characters (R11: `"abc"` is the sequence of ASCII codes). -/
def chars (cs : List Char) : Bytes := cs.map chr

end Sys2Proof
end

