-- ==== Sys2Proof/Config.lean ====
section
/-! DEFINITION. The block's configuration (00_scope.md R7 to R9, 10_state.md R39), the names of the
primitive types and text kinds, and the free values: what the spec calls unspecified. -/

namespace Sys2Proof

/-- The primitive types of a binary field, in tag order 0..10 (30_encoding.md R110). -/
inductive PrimType where
  | char | uint8 | int8 | uint16 | int16 | uint32 | int32 | float | uint64 | int64 | double
  deriving DecidableEq, Repr

/-- The kinds of a text field (00_scope.md R9, 43_text_field_codec.md R230). -/
inductive TxtKind where
  | float32 | float64 | int8 | uint8 | int16 | uint16 | int32 | uint32 | int64 | uint64
  | char | string
  deriving DecidableEq, Repr

/-- SHORT_HEADER_POLICY (R7): what Framer-B does when the first field has fewer than 5 characters. -/
inductive ShortHeaderPolicy where
  | violation | emptyIds
  deriving DecidableEq, Repr

/-- A binary field descriptor `(fname, ptype, count)` (R8). `ptype` is the raw tag, so that an
ill-formed one can be refused at elaboration (R201 (a)). `count` is 0 for a scalar. -/
structure BinField where
  fname : Bytes
  ptype : Nat
  count : Nat
  deriving DecidableEq, Repr

/-- A binary message descriptor (R8); the list order of `fields` is the wire order. -/
structure BinMsg where
  name : Bytes
  msgid : MsgId
  fields : List BinField
  deriving DecidableEq, Repr

/-- A text field descriptor `(fname, kind, prec, width)` (R9). -/
structure TxtField where
  fname : Bytes
  kind : TxtKind
  prec : Nat
  width : Nat
  deriving DecidableEq, Repr

/-- A text message descriptor (R9); the list order of `fields` is the column order. -/
structure TxtMsg where
  sid : Bytes
  fields : List TxtField
  deriving DecidableEq, Repr

/-- The elaboration arguments of R7, fixed while the block runs (R39). -/
structure Config where
  bufCapA : Nat
  bufCapB : Nat
  fieldCap : Nat
  arrayLenInCrcExtra : Bool
  shortHeader : ShortHeaderPolicy
  precMax : Nat
  widthMax : Nat
  binMsgs : List BinMsg
  txtMsgs : List TxtMsg
  deriving DecidableEq, Repr

/-- The default of every parameter (R7); the default of both message tables is none. -/
def Config.default : Config where
  bufCapA := 280
  bufCapB := 256
  fieldCap := 32
  arrayLenInCrcExtra := false
  shortHeader := .violation
  precMax := 17
  widthMax := 32
  binMsgs := []
  txtMsgs := []

/-- Which block, and which life of it: the block's number in a system of several, and how often it has
been reset. Both are the model's own (notes/assumptions/12.md, 25.md). -/
structure BlockId where
  block : Nat
  life : Nat
  deriving DecidableEq, Repr

/-! The free values. Each is a constant without a body: no proof can see what it is, so a claim that
holds is a claim about every value. The arguments are the block and its life, so that two blocks, or one
before and after a reset, draw apart, and a counter the step reads and advances, or a place in memory
(notes/assumptions/6.md, 7.md, 8.md, 14.md, 15.md, 25.md). -/

/-- An unspecified u8 (R46, R73). Where: `junkA`, `junkB`, `scribbleOut`. Safe. -/
opaque Config.freeByte : BlockId → Nat → BitVec 8

/-- An unspecified u16 (R46). Where: `junkA`. Safe. -/
opaque Config.freeHalf : BlockId → Nat → BitVec 16

/-- An unspecified u24 (R46). Where: `junkA`. Safe. -/
opaque Config.freeId : BlockId → Nat → BitVec 24

/-- An unspecified natural, taken below the register's bound (R46, R73). Safe. -/
opaque Config.freeNat : BlockId → Nat → Nat

/-- An unspecified truth value (R46). Where: `junkA`, `junkB`. Safe. -/
opaque Config.freeBool : BlockId → Nat → Bool

/-- An unspecified byte of WBA (R46, R71, R420): block, epoch of the contents, index. Safe. -/
opaque Config.unwrittenWba : BlockId → Nat → Nat → BitVec 8

/-- An unspecified byte of WBB (R46, R72, R420): block, epoch of the contents, index. Safe. -/
opaque Config.unwrittenWbb : BlockId → Nat → Nat → BitVec 8

/-- What a byte of the host's OUT space holds that nothing has written (R70): block number, address.
Safe. -/
opaque Config.unwrittenOut : Nat → Nat → BitVec 8

end Sys2Proof
end

