-- ==== Sys2Proof/Syntax/Records.lean ====
section
/-! DEFINITION. The records a command's operands and results are made of (10_state.md R41 to R43,
30_encoding.md R101): views, values, message records, tokens, output buffers. -/

namespace Sys2Proof

/-- The two framers of a block (R30, R441): A is binary, B is text. -/
inductive Framer where
  | a | b
  deriving DecidableEq, Repr

/-- The variant recorded from the start marker (R34): 0xFE is v1, 0xFD is v2. -/
inductive Ver where
  | v1 | v2
  deriving DecidableEq, Repr

/-- A slice `[off, off+len)` of a working buffer (R41, R42: views borrow, they do not copy). -/
structure Slice where
  off : Nat
  len : Nat
  deriving DecidableEq, Repr

/-- A binary view (R41). `payload` and `sig` are slices of WBA; `sig` has length 0 when the frame has
no signature. `origin` is the model's own: the block and life that emitted it (R450;
notes/assumptions/12.md). -/
structure BinView where
  ver : Ver
  msgid : MsgId
  sys : Byte
  comp : Byte
  seq : Byte
  payload : Slice
  checksum : Half
  incompat : Byte
  compat : Byte
  sig : Slice
  gen : Nat
  origin : BlockId
  deriving DecidableEq, Repr

/-- A text view (R42). `fields` are the tokens, slices of WBB, in order. `origin` is the model's own: the
block and life that emitted it (R450; notes/assumptions/12.md). -/
structure TxtView where
  talker : Bytes
  sid : Bytes
  fields : List Slice
  fieldCount : Nat
  gen : Nat
  origin : BlockId
  deriving DecidableEq, Repr

/-- A binary field value (R203): a scalar, or the elements of an array. A `float` or `double` is its
bit pattern (R202), a `char` its byte. An `Int` may lie outside the field's value set, so that an
operand outside its type can be refused (R425). -/
inductive BinVal where
  | scalar (v : Int)
  | array (vs : List Int)
  deriving DecidableEq, Repr

/-- A text field value (R230): an integer, an IEEE 754 pattern, one byte, or a byte string. -/
inductive TxtVal where
  | int (v : Int)
  | f32 (bits : BitVec 32)
  | f64 (bits : BitVec 64)
  | chr (c : Byte)
  | str (s : Bytes)
  deriving DecidableEq, Repr

/-- A token BINDB stores (47_text_serdes.md R386): EMPTY_TOKEN, or a slice of WBB tagged with the
generation and the origin of its view. -/
inductive LazyTok where
  | empty
  | slice (s : Slice) (gen : Nat) (origin : BlockId)
  deriving DecidableEq, Repr

/-- The token operand of TXT.PARSE: a byte string of the IN space (R240), or the token a Lazy field
holds (R244, R386). -/
inductive Tok where
  | run (bs : Bytes)
  | held (t : LazyTok)
  deriving DecidableEq, Repr

/-- An OUT operand (R70, R101): a buffer of `len` bytes at `base` of the host's own bytes, or one that
the host laid over a working buffer, which the duties of 20_memory.md R84 forbid. -/
inductive OutBuf where
  | own (base len : Nat)
  | overBuffer (f : Framer) (len : Nat)
  deriving DecidableEq, Repr

end Sys2Proof
end

