-- ==== Sys2Proof/Syntax.lean ====
section
/-! DEFINITION. The commands of the block, one constructor per row of spec/opcode_table.json, with the
operand record 30_encoding.md R101 gives each. -/

namespace Sys2Proof

/-- A command with its operands (R101). `none` in an Eager position is `absent` (R43). -/
inductive Instr where
  | crcInit
  | crcLoad (v : Half)
  | crcAcc (b : Byte)
  | crcAccBuf (run : Bytes)
  | crcAccStr (s : Bytes)
  | crcExtra (d : Nat)
  | xorInit
  | xorAcc (b : Byte)
  | xorRun (run : Bytes)
  | hexEnc (v : Byte)
  | hexDec (c0 c1 : Byte)
  | binEnc (ptype count : Nat) (x : BinVal)
  | binDec (ptype count : Nat) (bs : Bytes)
  | txtFmt (fd : TxtField) (x : Option TxtVal)
  | txtParse (kind : TxtKind) (tok : Tok)
  | fraReset
  | fraPush (b : Byte)
  | frbReset
  | frbPush (c : Byte)
  | sera (d : Nat) (rec : List (Option BinVal)) (sys comp seq : Byte) (out : OutBuf)
  | desera (d : Nat) (view : BinView)
  | serb (d : Nat) (talker : Bytes) (rec : List (Option TxtVal)) (out : OutBuf)
  | bindb (d : Nat) (view : TxtView)
  deriving DecidableEq, Repr

end Sys2Proof
end

