-- ==== Sys2Proof/Machine/Values.lean ====
section
/-! DEFINITION. The value sets of the primitive types and text kinds (30_encoding.md R110,
43_text_field_codec.md R230), and the character classes operands are checked with (R127, R380). -/

namespace Sys2Proof.Machine

/-- The primitive type of a tag (R110); a tag outside 0..10 names none. -/
def primOfTag : Nat → Option PrimType
  | 0 => some .char
  | 1 => some .uint8
  | 2 => some .int8
  | 3 => some .uint16
  | 4 => some .int16
  | 5 => some .uint32
  | 6 => some .int32
  | 7 => some .float
  | 8 => some .uint64
  | 9 => some .int64
  | 10 => some .double
  | _ => none

/-- The size in bytes of a primitive type (R110). -/
def primSize : PrimType → Nat
  | .char | .uint8 | .int8 => 1
  | .uint16 | .int16 => 2
  | .uint32 | .int32 | .float => 4
  | .uint64 | .int64 | .double => 8

/-- The canonical name CRC_EXTRA folds in (R110). -/
def primName : PrimType → Bytes
  | .char => chars ['c', 'h', 'a', 'r']
  | .uint8 => chars ['u', 'i', 'n', 't', '8', '_', 't']
  | .int8 => chars ['i', 'n', 't', '8', '_', 't']
  | .uint16 => chars ['u', 'i', 'n', 't', '1', '6', '_', 't']
  | .int16 => chars ['i', 'n', 't', '1', '6', '_', 't']
  | .uint32 => chars ['u', 'i', 'n', 't', '3', '2', '_', 't']
  | .int32 => chars ['i', 'n', 't', '3', '2', '_', 't']
  | .float => chars ['f', 'l', 'o', 'a', 't']
  | .uint64 => chars ['u', 'i', 'n', 't', '6', '4', '_', 't']
  | .int64 => chars ['i', 'n', 't', '6', '4', '_', 't']
  | .double => chars ['d', 'o', 'u', 'b', 'l', 'e']

/-- Whether the values of a type are two's complement (R110, R111). -/
def primSigned : PrimType → Bool
  | .int8 | .int16 | .int32 | .int64 => true
  | .char | .uint8 | .uint16 | .uint32 | .float | .uint64 | .double => false

/-- Whether an integer lies in the value set of a type (R110); a `float` or `double` is its bit
pattern (R202). -/
def primAdmits (p : PrimType) (v : Int) : Bool :=
  if primSigned p then
    decide (-(2 ^ (8 * primSize p - 1) : Int) ≤ v ∧ v < (2 ^ (8 * primSize p - 1) : Int))
  else
    decide (0 ≤ v ∧ v < (2 ^ (8 * primSize p) : Int))

/-- Whether `x` is a value of the field type `(p, count)` (R203): a scalar of the type when `count` is
0, otherwise a list of exactly `count` of them. -/
def valFits (p : PrimType) (count : Nat) : BinVal → Bool
  | .scalar v => count == 0 && primAdmits p v
  | .array vs => count != 0 && vs.length == count && vs.all (primAdmits p)

/-- The least and greatest integer of an integer kind (R230); other kinds hold no integers. -/
def kindRange : TxtKind → Option (Int × Int)
  | .int8 => some (-128, 127)
  | .uint8 => some (0, 255)
  | .int16 => some (-32768, 32767)
  | .uint16 => some (0, 65535)
  | .int32 => some (-2147483648, 2147483647)
  | .uint32 => some (0, 4294967295)
  | .int64 => some (-9223372036854775808, 9223372036854775807)
  | .uint64 => some (0, 18446744073709551615)
  | .float32 | .float64 | .char | .string => none

/-- Whether an integer lies in the range of an integer kind (R230). -/
def kindHolds (k : TxtKind) (v : Int) : Bool :=
  match kindRange k with
  | some (lo, hi) => decide (lo ≤ v ∧ v ≤ hi)
  | none => false

/-- Whether a value lies in the value set of a kind (R230). -/
def kindAdmits (k : TxtKind) : TxtVal → Bool
  | .int v => kindHolds k v
  | .f32 _ => decide (k = .float32)
  | .f64 _ => decide (k = .float64)
  | .chr _ => decide (k = .char)
  | .str _ => decide (k = .string)

/-- The bytes a talker id and a sentence id may not hold (R231, R380): `,` `*` `\n` `$` `!`. -/
def isDelimiter (c : Byte) : Bool :=
  c == chr ',' || c == chr '*' || c == chr '\n' || c == chr '$' || c == chr '!'

/-- A talker operand must be exactly 2 bytes, none of them a delimiter (R380). -/
def talkerOk (t : Bytes) : Bool :=
  t.length == 2 && t.all (fun c => !isDelimiter c)

/-- An ASCII byte (R8, R201 (e)). -/
def isAscii (c : Byte) : Bool := decide (c.toNat < 128)

end Sys2Proof.Machine
end

