-- ==== Sys2Proof/WellFormed.lean ====
section
/-! DEFINITION. When a command's operand record lies inside its types (30_encoding.md R101), as far as
the record alone decides it. What depends on the configuration or the state (a descriptor index, a
record against its descriptor, a view's life) is checked by the command's meaning. -/

namespace Sys2Proof

open Sys2Proof.Machine

/-- The operand record of `i` is inside its types. -/
def Instr.wf : Instr → Bool
  | .crcAccStr s => s.all isAscii
  | .binEnc t count x =>
    match primOfTag t with
    | some p => valFits p count x
    | none => false
  | .binDec t _ _ => (primOfTag t).isSome
  | .txtFmt fd (some v) => kindAdmits fd.kind v
  | .serb _ talker _ _ => talkerOk talker
  | .desera _ v => decide (v.payload.len ≤ 255) && (v.sig.len == 0 || v.sig.len == 13)
  | .bindb _ v => v.fields.length == v.fieldCount
  | .crcInit | .crcLoad _ | .crcAcc _ | .crcAccBuf _ | .crcExtra _
  | .xorInit | .xorAcc _ | .xorRun _ | .hexEnc _ | .hexDec _ _
  | .txtFmt _ none | .txtParse _ _
  | .fraReset | .fraPush _ | .frbReset | .frbPush _
  | .sera _ _ _ _ _ _ => true

end Sys2Proof
end

