-- ==== Sys2Proof/Decode.lean ====
section
/-! DEFINITION. The command encoding (30_encoding.md R100 to R102): a code byte and an operand record
whose shape the code fixes. `decode` is total; it rejects by name. `encode` is written from the same
table. -/

namespace Sys2Proof

/-- An operand record (R100: a typed tuple, not packed into bits), one constructor per shape of the
table of R101. -/
inductive Operands where
  | nil
  | half (v : Half)
  | byte (b : Byte)
  | pair (c0 c1 : Byte)
  | run (bs : Bytes)
  | index (d : Nat)
  | binValue (ptype count : Nat) (x : BinVal)
  | binBytes (ptype count : Nat) (bs : Bytes)
  | txtValue (fd : TxtField) (x : Option TxtVal)
  | txtToken (kind : TxtKind) (tok : Tok)
  | binRecord (d : Nat) (rec : List (Option BinVal)) (sys comp seq : Byte) (out : OutBuf)
  | binView (d : Nat) (view : BinView)
  | txtRecord (d : Nat) (talker : Bytes) (rec : List (Option TxtVal)) (out : OutBuf)
  | txtView (d : Nat) (view : TxtView)
  deriving DecidableEq, Repr

/-- What the host issues (R100): the code byte and the operand record. -/
structure Command where
  code : Byte
  ops : Operands
  deriving DecidableEq, Repr

/-- Why a command is rejected at decode: a reserved code (R102), or an operand record that is not of
the shape the code fixes (R100, R425 BadOperand). -/
inductive DecodeError where
  | illegalCommand (code : Byte)
  | badOperand (code : Byte)
  deriving DecidableEq, Repr

/-- The unit field of a code byte (R100): bits 7..4. -/
def codeUnit (code : Byte) : Nat := (code >>> 4).toNat

/-- The op field of a code byte (R100): bits 3..0. -/
def codeOp (code : Byte) : Nat := (code &&& 0x0F).toNat

/-- The defined codes (R101) read by unit and op; every other pair is reserved (R102). A defined code
with a record of another shape is a bad operand. The code is looked at first (R416). -/
def decode (c : Command) : Except DecodeError Instr :=
  match codeUnit c.code, codeOp c.code with
  | 0, 0 => match c.ops with
    | .nil => .ok .crcInit
    | _ => .error (.badOperand c.code)
  | 0, 1 => match c.ops with
    | .half v => .ok (.crcLoad v)
    | _ => .error (.badOperand c.code)
  | 0, 2 => match c.ops with
    | .byte b => .ok (.crcAcc b)
    | _ => .error (.badOperand c.code)
  | 0, 3 => match c.ops with
    | .run bs => .ok (.crcAccBuf bs)
    | _ => .error (.badOperand c.code)
  | 0, 4 => match c.ops with
    | .run bs => .ok (.crcAccStr bs)
    | _ => .error (.badOperand c.code)
  | 0, 5 => match c.ops with
    | .index d => .ok (.crcExtra d)
    | _ => .error (.badOperand c.code)
  | 1, 0 => match c.ops with
    | .nil => .ok .xorInit
    | _ => .error (.badOperand c.code)
  | 1, 1 => match c.ops with
    | .byte b => .ok (.xorAcc b)
    | _ => .error (.badOperand c.code)
  | 1, 2 => match c.ops with
    | .run bs => .ok (.xorRun bs)
    | _ => .error (.badOperand c.code)
  | 1, 3 => match c.ops with
    | .byte b => .ok (.hexEnc b)
    | _ => .error (.badOperand c.code)
  | 1, 4 => match c.ops with
    | .pair c0 c1 => .ok (.hexDec c0 c1)
    | _ => .error (.badOperand c.code)
  | 2, 0 => match c.ops with
    | .binValue t n x => .ok (.binEnc t n x)
    | _ => .error (.badOperand c.code)
  | 2, 1 => match c.ops with
    | .binBytes t n bs => .ok (.binDec t n bs)
    | _ => .error (.badOperand c.code)
  | 3, 0 => match c.ops with
    | .txtValue fd x => .ok (.txtFmt fd x)
    | _ => .error (.badOperand c.code)
  | 3, 1 => match c.ops with
    | .txtToken k t => .ok (.txtParse k t)
    | _ => .error (.badOperand c.code)
  | 4, 0 => match c.ops with
    | .nil => .ok .fraReset
    | _ => .error (.badOperand c.code)
  | 4, 1 => match c.ops with
    | .byte b => .ok (.fraPush b)
    | _ => .error (.badOperand c.code)
  | 5, 0 => match c.ops with
    | .nil => .ok .frbReset
    | _ => .error (.badOperand c.code)
  | 5, 1 => match c.ops with
    | .byte b => .ok (.frbPush b)
    | _ => .error (.badOperand c.code)
  | 6, 0 => match c.ops with
    | .binRecord d rec sys comp seq out => .ok (.sera d rec sys comp seq out)
    | _ => .error (.badOperand c.code)
  | 6, 1 => match c.ops with
    | .binView d v => .ok (.desera d v)
    | _ => .error (.badOperand c.code)
  | 7, 0 => match c.ops with
    | .txtRecord d talker rec out => .ok (.serb d talker rec out)
    | _ => .error (.badOperand c.code)
  | 7, 1 => match c.ops with
    | .txtView d v => .ok (.bindb d v)
    | _ => .error (.badOperand c.code)
  | _, _ => .error (.illegalCommand c.code)

/-- The command the host issues for an instruction (R101). -/
def encode : Instr → Command
  | .crcInit => ⟨0x00, .nil⟩
  | .crcLoad v => ⟨0x01, .half v⟩
  | .crcAcc b => ⟨0x02, .byte b⟩
  | .crcAccBuf bs => ⟨0x03, .run bs⟩
  | .crcAccStr s => ⟨0x04, .run s⟩
  | .crcExtra d => ⟨0x05, .index d⟩
  | .xorInit => ⟨0x10, .nil⟩
  | .xorAcc b => ⟨0x11, .byte b⟩
  | .xorRun bs => ⟨0x12, .run bs⟩
  | .hexEnc v => ⟨0x13, .byte v⟩
  | .hexDec c0 c1 => ⟨0x14, .pair c0 c1⟩
  | .binEnc t n x => ⟨0x20, .binValue t n x⟩
  | .binDec t n bs => ⟨0x21, .binBytes t n bs⟩
  | .txtFmt fd x => ⟨0x30, .txtValue fd x⟩
  | .txtParse k t => ⟨0x31, .txtToken k t⟩
  | .fraReset => ⟨0x40, .nil⟩
  | .fraPush b => ⟨0x41, .byte b⟩
  | .frbReset => ⟨0x50, .nil⟩
  | .frbPush c => ⟨0x51, .byte c⟩
  | .sera d rec sys comp seq out => ⟨0x60, .binRecord d rec sys comp seq out⟩
  | .desera d v => ⟨0x61, .binView d v⟩
  | .serb d talker rec out => ⟨0x70, .txtRecord d talker rec out⟩
  | .bindb d v => ⟨0x71, .txtView d v⟩

/-- The operand record of zeros for a code: what stands above the code byte when no operand is given
(notes/assumptions/3.md). -/
def zeroOperands (code : Byte) : Operands :=
  let slice : Slice := ⟨0, 0⟩
  let origin : BlockId := ⟨0, 0⟩
  match code.toNat with
  | 0x01 => .half 0
  | 0x02 | 0x11 | 0x13 | 0x41 | 0x51 => .byte 0
  | 0x03 | 0x04 | 0x12 => .run []
  | 0x05 => .index 0
  | 0x14 => .pair 0 0
  | 0x20 => .binValue 0 0 (.scalar 0)
  | 0x21 => .binBytes 0 0 []
  | 0x30 => .txtValue ⟨[], .float32, 0, 0⟩ none
  | 0x31 => .txtToken .float32 (.run [])
  | 0x60 => .binRecord 0 [] 0 0 0 (.own 0 0)
  | 0x61 => .binView 0 ⟨.v1, 0, 0, 0, 0, slice, 0, 0, 0, slice, 0, origin⟩
  | 0x70 => .txtRecord 0 [0, 0] [] (.own 0 0)
  | 0x71 => .txtView 0 ⟨[], [], [], 0, 0, origin⟩
  | _ => .nil

/-- The command whose code byte is `w` cut to `nbits` bits, with the operand record of zeros. -/
def tableCommand (nbits w : Nat) : Command :=
  let code : Byte := BitVec.ofNat 8 (w % 2 ^ nbits)
  ⟨code, zeroOperands code⟩

/-- The instruction the decoder reads from a table word (spec/opcode_table.json: bits 7..0 are the
code byte, and the operand record is not in the word). -/
def decodeTableWord (nbits w : Nat) : Option Instr :=
  if w % 2 ^ nbits < 256 then
    match decode (tableCommand nbits w) with
    | .ok i => some i
    | .error _ => none
  else
    none

end Sys2Proof
end

