-- ==== Sys2Proof/Machine/State.lean ====
section
/-! DEFINITION. The machine's state (10_state.md), the reasons a step can stop (60_exceptions.md R425),
and the state after reset (R46, 70_reset_and_hazards.md R450). -/

namespace Sys2Proof.Machine

/-- A byte memory: (index, byte) pairs, indices strictly rising. An unlisted index holds no stored
value; the state's byte reads give it a free value (notes/assumptions/7.md). -/
abbrev Memory := List Host.Cell

/-- A working buffer (R71, R72): the bytes stored since its contents last became unspecified, and how
often that has happened in this life of the block (notes/assumptions/8.md). -/
structure Buffer where
  bytes : Memory
  epoch : Nat
  deriving DecidableEq, Repr

/-- The buffer of a new block: nothing is stored (R46). -/
def Buffer.new : Buffer := ⟨[], 0⟩

/-- `A.state` (R35). -/
inductive SyncState where
  | seekSync | readLength | readV2Flags | readCoreHeader | readPayload | readChecksum
  | readSignature
  deriving DecidableEq, Repr

/-- `B.state` (R37). -/
inductive TextState where
  | seekStart | readFields | readChecksumHex | readCRLF
  deriving DecidableEq, Repr

/-- Framer-A's registers (R34). -/
structure FramerA where
  state : SyncState
  ver : Ver
  n : Byte
  idx : Nat
  incompat : Byte
  compat : Byte
  seq : Byte
  sys : Byte
  comp : Byte
  msgid : MsgId
  ck : Half
  wr : Nat
  poff : Nat
  gen : Nat
  deriving DecidableEq, Repr

/-- Framer-B's registers (R36). `flist` has FIELD_CAP entries, of which `fcount` are stored. -/
structure FramerB where
  state : TextState
  xor : Byte
  wr : Nat
  fstart : Nat
  hdr : Bool
  talker : Bytes
  sid : Bytes
  flist : List Slice
  fcount : Nat
  hex : Byte × Byte
  idx : Nat
  gen : Nat
  deriving DecidableEq, Repr

/-- The error taxonomy (R410). `invalidMagic` is never reported (R412) and `fieldCountMismatch` is
never raised by the block (R413). -/
inductive ErrorKind where
  | parseError | bufferOverrun | invalidMagic | invalidChecksumChar | checksumMismatch
  | protocolViolation | fieldCountMismatch
  deriving DecidableEq, Repr

/-- The one result a command returns (R38, R101). -/
inductive Result where
  /-- FRA.RESET and FRB.RESET return nothing (R101). -/
  | done
  /-- A new `CRC` value (R151 to R155). -/
  | half (v : Half)
  /-- A new `XSUM`, a CRC_EXTRA, a fold or a decoded hex pair. -/
  | byte (v : Byte)
  /-- Encoded bytes or rendered characters (HEX.ENC, BIN.ENC, TXT.FMT). -/
  | bytes (bs : Bytes)
  /-- A decoded binary field value (BIN.DEC). -/
  | binVal (x : BinVal)
  /-- A parsed text field value, or absent (TXT.PARSE). -/
  | txtVal (x : Option TxtVal)
  /-- NONE: no message yet (R38). -/
  | noMessage
  /-- VIEW of Framer-A (R41). -/
  | viewA (v : BinView)
  /-- VIEW of Framer-B (R42). -/
  | viewB (v : TxtView)
  /-- The number of bytes written (SERA, SERB). -/
  | count (n : Nat)
  /-- A Lazy binary record (DESERA). -/
  | lazyBin (rec : List Bytes)
  /-- A Lazy text record (BINDB). -/
  | lazyTxt (rec : List LazyTok)
  /-- ERROR(e) (R38, R410). -/
  | error (e : ErrorKind)
  deriving DecidableEq, Repr

/-- What the outside world does to the block: the host's commands (R30, R100) and writes (R84), and
the platform's reset and elaboration (R450, R452). -/
inductive HostAction where
  /-- A command (R100). -/
  | command (c : Command)
  /-- A host write of one byte of WBA or WBB (R84, R461). -/
  | writeBuffer (f : Framer) (index : Nat) (v : Byte)
  /-- A host write of one byte of its own OUT space (R70). -/
  | writeOut (addr : Nat) (v : Byte)
  /-- A host attempt to change the descriptor tables after elaboration (R84). -/
  | writeTables
  /-- The platform's reset: the block is created anew with the same configuration (R450). -/
  | reset
  /-- Elaboration with the given parameters, which ends in a reset (R452). -/
  | elaborate (cfg : Config)
  deriving DecidableEq, Repr

/-- Everything the spec gives the machine, and the model's own `pending`, `results`, `inst`, `draws` (and
the `epoch` of each buffer). -/
structure State where
  /-- The configuration (R39). -/
  cfg : Config
  /-- `CRCX` (R39, R157). -/
  crcx : List Byte
  /-- `CRC` (R31). -/
  crc : Half
  /-- `XSUM` (R31). -/
  xsum : Byte
  /-- Framer-A (R34). -/
  a : FramerA
  /-- WBA (R71). -/
  wba : Buffer
  /-- Framer-B (R36). -/
  b : FramerB
  /-- WBB (R72). -/
  wbb : Buffer
  /-- The host's OUT bytes (R70, R73). -/
  out : Memory
  /-- The block's number and life (notes/assumptions/12.md, 25.md). -/
  inst : BlockId
  /-- The number of free values drawn (notes/assumptions/6.md). -/
  draws : Nat
  /-- The host actions not yet taken, oldest first (notes/assumptions/1.md). -/
  pending : List HostAction
  /-- The results returned since reset, newest first (R471; notes/assumptions/2.md). -/
  results : List Result
  deriving DecidableEq, Repr

/-- A model-level fault (R425): the command has no meaning. Safe: the machine stops where the spec
gives no effect. -/
inductive Fault where
  /-- Raised by CRC.EXTRA, SERA, DESERA, SERB, BINDB for a descriptor index out of range, and by
  BIN.ENC and BIN.DEC for a type tag outside 0..10 (R425). Safe. -/
  | badDescriptor
  /-- Raised by DESERA, BINDB and TXT.PARSE for a view or Lazy token that is not live (R40, R386).
  Safe. -/
  | staleView
  /-- Raised by DESERA, TXT.PARSE and a host write for an index outside a working buffer (R70).
  Safe. -/
  | noSuchByte
  deriving DecidableEq, Repr

/-- A refusal (R425): a spelling or value the model gives no meaning. Safe: the machine stops where
the spec gives no effect. -/
inductive Refusal where
  /-- An instruction without a meaning in this model. Safe. -/
  | notModelled (mnemonic : String)
  /-- Raised by the step for a reserved code (R102). Safe. -/
  | illegalCommand (code : Byte)
  /-- Raised by the step for an operand record of another shape, and by BIN.ENC, TXT.FMT, SERA, SERB
  for an operand outside its type (R425). Safe. -/
  | badOperand
  /-- Raised by elaboration for a descriptor that is not well-formed (R201, R231, R452). Safe. -/
  | badConfiguration
  /-- Raised by a host action or an OUT operand that breaks a duty of R84. Safe. -/
  | hostBufferWrite
  /-- Raised by TXT.FMT and SERB for a NaN or an infinity (R235). Safe. -/
  | nonFiniteFormat
  /-- Raised by TXT.PARSE for inf, infinity, nan, or an underflow (R243). Safe. -/
  | unmodelledParse
  deriving DecidableEq, Repr

/-- Framer-A after reset (R46): `state`, `wr`, `gen` are the spec's; the spec calls every other
register unspecified, and the value here is a DESIGN CHOICE, unsafe (notes/assumptions/5.md). -/
def FramerA.reset : FramerA where
  state := .seekSync
  ver := .v1
  n := 0
  idx := 0
  incompat := 0
  compat := 0
  seq := 0
  sys := 0
  comp := 0
  msgid := 0
  ck := 0
  wr := 0
  poff := 0
  gen := 0

/-- Framer-B after reset (R46): `state`, `wr`, `gen` are the spec's; every other register is a DESIGN
CHOICE, unsafe (notes/assumptions/5.md). -/
def FramerB.reset (fieldCap : Nat) : FramerB where
  state := .seekStart
  xor := 0
  wr := 0
  fstart := 0
  hdr := false
  talker := []
  sid := []
  flist := List.replicate fieldCap ⟨0, 0⟩
  fcount := 0
  hex := (0, 0)
  idx := 0
  gen := 0

/-- The machine right after reset (R46, R450), elaborated with the default parameters (R7), whose
message tables are none, so that `CRCX` has no entry (notes/assumptions/4.md). -/
def State.reset : State where
  cfg := Config.default
  crcx := []
  crc := 0xFFFF
  xsum := 0x00
  a := FramerA.reset
  wba := Buffer.new
  b := FramerB.reset Config.default.fieldCap
  wbb := Buffer.new
  out := []
  inst := ⟨0, 0⟩
  draws := 0
  pending := []
  results := []

end Sys2Proof.Machine
end

