-- ==== Sys2Proof/Machine/Ops.lean ====
section
/-! DEFINITION. The named operations over memory and registers: reading and writing the byte spaces
(20_memory.md), returning a result, raising an error with a framer's recovery (60_exceptions.md R420),
and the values reset leaves unspecified (10_state.md R46). -/

namespace Sys2Proof.Machine

/-! ### Memory -/

/-- The stored byte at index `a`, if one is listed. -/
def Memory.read? : Memory → Nat → Option Byte
  | [], _ => none
  | (k, v) :: rest, a => if k = a then some v else Memory.read? rest a

/-- Store byte `v` at index `a`, keeping the indices strictly rising. -/
def Memory.write : Memory → Nat → Byte → Memory
  | [], a, v => [(a, v)]
  | (k, w) :: rest, a, v =>
    if a < k then (a, v) :: (k, w) :: rest
    else if a = k then (a, v) :: rest
    else (k, w) :: Memory.write rest a v

/-- Store a run of bytes from index `a` on (R12 MemWrite). -/
def Memory.writeRun : Memory → Nat → Bytes → Memory
  | m, _, [] => m
  | m, a, v :: rest => Memory.writeRun (Memory.write m a v) (a + 1) rest

/-- Every listed index is below `n` and above none of the ones after it: strictly rising from `n`. -/
def Memory.risesFrom : Nat → Memory → Bool
  | _, [] => true
  | n, (k, _) :: rest => decide (n ≤ k) && Memory.risesFrom (k + 1) rest

/-- The canonical form of a memory: indices strictly rising. No entry can equal what an unlisted
index holds, which is no stored value. -/
def Memory.wf (m : Memory) : Bool := Memory.risesFrom 0 m

/-- Every listed index lies in a space of `cap` bytes (R70). -/
def Memory.below (cap : Nat) (m : Memory) : Bool := m.all (fun c => decide (c.1 < cap))

/-! ### Working buffers -/

/-- Store byte `v` at index `i` of a buffer (R71, R72). -/
def Buffer.write (w : Buffer) (i : Nat) (v : Byte) : Buffer :=
  { w with bytes := Memory.write w.bytes i v }

/-- The contents become unspecified (R71, R72, R420; I3): nothing is stored any more, and every byte
reads as a free value of a new epoch (notes/assumptions/8.md). -/
def Buffer.forget (w : Buffer) : Buffer := ⟨[], w.epoch + 1⟩

/-- The stored byte at index `i`, if one is listed. -/
def Buffer.read? (w : Buffer) (i : Nat) : Option Byte := Memory.read? w.bytes i

/-- A buffer of `cap` bytes is in canonical form and inside its space (R70). -/
def Buffer.wf (cap : Nat) (w : Buffer) : Bool := Memory.wf w.bytes && Memory.below cap w.bytes

/-! ### State updates -/

/-- `CRC <- v` (R31). -/
def State.setCrc (s : State) (v : Half) : State := { s with crc := v }

/-- `XSUM <- v` (R31). -/
def State.setXsum (s : State) (v : Byte) : State := { s with xsum := v }

/-- Framer-A's registers become `a` (R34). -/
def State.setA (s : State) (a : FramerA) : State := { s with a := a }

/-- Framer-B's registers become `b` (R36). -/
def State.setB (s : State) (b : FramerB) : State := { s with b := b }

/-- WBA becomes `m` (R71). -/
def State.setWba (s : State) (m : Buffer) : State := { s with wba := m }

/-- WBB becomes `m` (R72). -/
def State.setWbb (s : State) (m : Buffer) : State := { s with wbb := m }

/-- The OUT bytes become `m` (R73). -/
def State.setOut (s : State) (m : Memory) : State := { s with out := m }

/-- `n` free values have been drawn since (notes/assumptions/6.md). -/
def State.addDraws (s : State) (n : Nat) : State := { s with draws := s.draws + n }

/-- The queue of host actions becomes `q` (notes/assumptions/1.md). -/
def State.setPending (s : State) (q : List HostAction) : State := { s with pending := q }

/-- The command returns `r` (R38: exactly one result per command, R30). -/
def State.returns (s : State) (r : Result) : State := { s with results := r :: s.results }

/-! ### Reads of the byte spaces -/

/-- The byte of WBA at an index; one not stored since the contents became unspecified is a free value of
this block (R46, R71, R420; that other blocks draw apart is notes/assumptions/25.md). -/
def State.wbaByte (s : State) (i : Nat) : Byte :=
  (s.wba.read? i).getD (Config.unwrittenWba s.inst s.wba.epoch i)

/-- The byte of WBB at an index; one not stored since the contents became unspecified is a free value of
this block (R46, R72, R420; that other blocks draw apart is notes/assumptions/25.md). -/
def State.wbbByte (s : State) (i : Nat) : Byte :=
  (s.wbb.read? i).getD (Config.unwrittenWbb s.inst s.wbb.epoch i)

/-- The byte of the host's OUT space at an address; one nothing has written is a free value (R70). -/
def State.outByte (s : State) (i : Nat) : Byte :=
  (Memory.read? s.out i).getD (Config.unwrittenOut s.inst.block i)

/-- `MemRead(WBA, off, len)` (R12). -/
def State.wbaRun (s : State) (sl : Slice) : Bytes :=
  (List.range sl.len).map (fun i => s.wbaByte (sl.off + i))

/-- `MemRead(WBB, off, len)` (R12). -/
def State.wbbRun (s : State) (sl : Slice) : Bytes :=
  (List.range sl.len).map (fun i => s.wbbByte (sl.off + i))

/-- `MemRead(OUT, base, len)` (R12). -/
def State.outRun (s : State) (base len : Nat) : Bytes :=
  (List.range len).map (fun i => s.outByte (base + i))

/-! ### Raising an error -/

/-- `raise E` (R12): the command ends with the error result E. A framer's raise also performs the
recovery of R420 in the same push: the partial frame is discarded, the framer scans again, the byte
is consumed, the error is the push's result, and the working buffer's bytes are unspecified from then
on. Nothing is saved and control goes nowhere; the counterpart of a return is the next push, which
begins in that first state (R421). -/
def State.raise (s : State) : Option Framer → ErrorKind → State
  | some .a, e =>
    ((s.setWba s.wba.forget).setA { s.a with state := .seekSync, idx := 0 }).returns (.error e)
  | some .b, e =>
    ((s.setWbb s.wbb.forget).setB { s.b with state := .seekStart }).returns (.error e)
  | none, e => s.returns (.error e)

/-! ### Appending to a working buffer -/

/-- `AppendA(b)` (R271), then the rest of the push: the capacity is checked on every append. -/
def State.appendA (s : State) (b : Byte) (rest : State → State) : State :=
  if s.cfg.bufCapA ≤ s.a.wr then
    s.raise (some .a) .bufferOverrun
  else
    rest ((s.setWba (s.wba.write s.a.wr b)).setA { s.a with wr := s.a.wr + 1 })

/-- `AppendB(c)` (R311), then the rest of the push: the capacity is checked on every append. -/
def State.appendB (s : State) (c : Byte) (rest : State → State) : State :=
  if s.cfg.bufCapB ≤ s.b.wr then
    s.raise (some .b) .bufferOverrun
  else
    rest ((s.setWbb (s.wbb.write s.b.wr c)).setB { s.b with wr := s.b.wr + 1 })

/-! ### What reset leaves unspecified -/

/-- How many free values `junkA` takes. -/
def junkADraws : Nat := 6

/-- Framer-A right after its reset, with generation 0 (R46, R270): every register but `state` and `wr`
holds a free value of its width and range, drawn by the block `i` apart from other blocks
(notes/assumptions/25.md). -/
def junkA (i : BlockId) (d cap : Nat) : FramerA where
  state := .seekSync
  ver := if Config.freeBool i d then .v2 else .v1
  n := Config.freeByte i d
  idx := Config.freeNat i d % 256
  incompat := Config.freeByte i (d + 1)
  compat := Config.freeByte i (d + 2)
  seq := Config.freeByte i (d + 3)
  sys := Config.freeByte i (d + 4)
  comp := Config.freeByte i (d + 5)
  msgid := Config.freeId i d
  ck := Config.freeHalf i d
  wr := 0
  poff := Config.freeNat i (d + 1) % (cap + 1)
  gen := 0

/-- How many free values `junkB` takes. -/
def junkBDraws (fieldCap : Nat) : Nat := 8 + 2 * fieldCap

/-- Framer-B right after its reset, with generation 0 (R46, R310): every register but `state` and `wr`
holds a free value of its width and range, drawn by the block `i` as in `junkA`; an id has length 2 (3)
or 0 (R36). -/
def junkB (i : BlockId) (d cap fieldCap : Nat) : FramerB where
  state := .seekStart
  xor := Config.freeByte i d
  wr := 0
  fstart := Config.freeNat i d % (cap + 1)
  hdr := Config.freeBool i d
  talker := if Config.freeBool i (d + 1) then
      [Config.freeByte i (d + 1), Config.freeByte i (d + 2)] else []
  sid := if Config.freeBool i (d + 2) then
      [Config.freeByte i (d + 3), Config.freeByte i (d + 4), Config.freeByte i (d + 5)] else []
  flist := (List.range fieldCap).map (fun k =>
      ⟨Config.freeNat i (d + 8 + 2 * k), Config.freeNat i (d + 9 + 2 * k)⟩)
  fcount := Config.freeNat i (d + 1) % (fieldCap + 1)
  hex := (Config.freeByte i (d + 6), Config.freeByte i (d + 7))
  idx := Config.freeNat i (d + 2) % 2
  gen := 0

/-- The block right after reset (R46, R450), created with configuration `cfg` and constants `crcx`
(R452): the registers the spec gives, free values in the others, no view, and buffer contents
unspecified. It is a new life of the block (R450: every earlier view belonged to a discarded instance).
That its free values differ from those of other lives and of other blocks is the model's choice
(notes/assumptions/6.md, 25.md). The host's OUT bytes and its queue are its own and stay. -/
def State.create (s : State) (cfg : Config) (crcx : List Byte) : State :=
  let inst : BlockId := { s.inst with life := s.inst.life + 1 }
  { cfg := cfg
    crcx := crcx
    crc := 0xFFFF
    xsum := 0x00
    a := junkA inst s.draws cfg.bufCapA
    wba := Buffer.new
    b := junkB inst (s.draws + junkADraws) cfg.bufCapB cfg.fieldCap
    wbb := Buffer.new
    out := s.out
    inst := inst
    draws := s.draws + junkADraws + junkBDraws cfg.fieldCap
    pending := s.pending
    results := [] }

/-- What a failed SERA may have done to its buffer of `len` bytes at `base` (R73): a prefix of an
unspecified length holds unspecified bytes, and the rest is unchanged. -/
def State.scribbleOut (s : State) (base len : Nat) : State :=
  let k := Config.freeNat s.inst s.draws % (len + 1)
  let bytes := (List.range k).map (fun i => Config.freeByte s.inst (s.draws + 1 + i))
  (s.setOut (Memory.writeRun s.out base bytes)).addDraws (len + 1)

end Sys2Proof.Machine
end

