-- ==== Sys2Proof/Machine/Flags.lean ====
section
/-! DEFINITION. The block has no condition codes and no status flags (10_state.md R38). What it has is
derived status: whether a framer is in frame (R38) and whether a view or a token is live (R40, R386).
The enumeration numbers of R35, R37 and R410 stand here too. -/

namespace Sys2Proof.Machine

/-- Framer-A is in frame (R38). -/
def State.inFrameA (s : State) : Bool := decide (s.a.state ≠ .seekSync)

/-- Framer-B is in frame (R38). -/
def State.inFrameB (s : State) : Bool := decide (s.b.state ≠ .seekStart)

/-- A binary view is live (R40): its generation is Framer-A's current one, and this life of the block
emitted it (R450: a view from before a reset is never live after it; notes/assumptions/12.md). -/
def State.viewALive (s : State) (v : BinView) : Bool :=
  v.gen == s.a.gen && v.origin == s.inst && s.results.contains (.viewA v)

/-- A text view is live (R40), read as for `viewALive`. -/
def State.viewBLive (s : State) (v : TxtView) : Bool :=
  v.gen == s.b.gen && v.origin == s.inst && s.results.contains (.viewB v)

/-- A result is a live binary view that Framer-A of state `s` emitted. -/
def isLiveViewA (s : State) : Result → Bool
  | .viewA v => v.gen == s.a.gen
  | _ => false

/-- A result is a live text view that Framer-B of state `s` emitted. -/
def isLiveViewB (s : State) : Result → Bool
  | .viewB v => v.gen == s.b.gen
  | _ => false

/-- Some view of the framer is live (R84, R461). -/
def State.someViewLive (s : State) : Framer → Bool
  | .a => s.results.any (isLiveViewA s)
  | .b => s.results.any (isLiveViewB s)

/-- A result is the text view a token of slice `sl`, generation `g` and origin `o` was bound from. -/
def holdsToken (sl : Slice) (g : Nat) (o : BlockId) : Result → Bool
  | .viewB v => v.gen == g && v.origin == o && v.fields.contains sl
  | _ => false

/-- A Lazy text token is live (R386): EMPTY_TOKEN always; a slice while its view is
(notes/assumptions/13.md). -/
def State.tokenLive (s : State) : LazyTok → Bool
  | .empty => true
  | .slice sl g o => g == s.b.gen && o == s.inst && s.results.any (holdsToken sl g o)

/-- The number of a Framer-A state (R35). -/
def syncNumber : SyncState → Nat
  | .seekSync => 0
  | .readLength => 1
  | .readV2Flags => 2
  | .readCoreHeader => 3
  | .readPayload => 4
  | .readChecksum => 5
  | .readSignature => 6

/-- The number of a Framer-B state (R37). -/
def textNumber : TextState → Nat
  | .seekStart => 0
  | .readFields => 1
  | .readChecksumHex => 2
  | .readCRLF => 3

/-- The code of an error kind (R410). -/
def errorCode : ErrorKind → Nat
  | .parseError => 1
  | .bufferOverrun => 2
  | .invalidMagic => 3
  | .invalidChecksumChar => 4
  | .checksumMismatch => 5
  | .protocolViolation => 6
  | .fieldCountMismatch => 7

end Sys2Proof.Machine
end

