-- ==== Sys2Proof/Machine/Operands.lean ====
section
/-! DEFINITION. The operand forms (30_encoding.md R101): descriptor indexes, message records against
their descriptor, output buffers, slices and tokens. -/

namespace Sys2Proof.Machine

/-- The binary descriptor of index `d`, if `d` is in range of BIN_MSGS (R101). -/
def State.binMsg? (s : State) (d : Nat) : Option BinMsg := s.cfg.binMsgs[d]?

/-- The text descriptor of index `d`, if `d` is in range of TXT_MSGS (R101). -/
def State.txtMsg? (s : State) (d : Nat) : Option TxtMsg := s.cfg.txtMsgs[d]?

/-- `CRCX[d]` (R157). -/
def State.crcxAt (s : State) (d : Nat) : Byte := s.crcx.getD d 0

/-- One entry of an Eager binary record fits its field (R350): absent, or a value of its type. -/
def binEntryFits (f : BinField) : Option BinVal → Bool
  | none => true
  | some x =>
    match primOfTag f.ptype with
    | some p => valFits p f.count x
    | none => false

/-- An Eager binary record matches its descriptor's fields (R350): one entry a field, in order. -/
def binRecordFits : List BinField → List (Option BinVal) → Bool
  | [], [] => true
  | f :: fs, x :: xs => binEntryFits f x && binRecordFits fs xs
  | _, _ => false

/-- One entry of an Eager text record fits its field (R380): absent, or a value of its kind. -/
def txtEntryFits (f : TxtField) : Option TxtVal → Bool
  | none => true
  | some v => kindAdmits f.kind v

/-- An Eager text record matches its descriptor's fields (R380): one entry a field, in order. -/
def txtRecordFits : List TxtField → List (Option TxtVal) → Bool
  | [], [] => true
  | f :: fs, x :: xs => txtEntryFits f x && txtRecordFits fs xs
  | _, _ => false

/-- The length L of an OUT buffer (R101). -/
def outLen : OutBuf → Nat
  | .own _ len => len
  | .overBuffer _ len => len

/-- Where an OUT buffer's index 0 lies in the host's OUT space (notes/assumptions/14.md). -/
def outBase : OutBuf → Nat
  | .own base _ => base
  | .overBuffer _ _ => 0

/-- The OUT buffer overlaps a working buffer, against the second duty of R84. An empty buffer
overlaps nothing. -/
def outOverlaps : OutBuf → Bool
  | .own _ _ => false
  | .overBuffer _ len => len != 0

/-- A slice lies inside a working buffer of `cap` bytes (R70; notes/assumptions/21.md). -/
def sliceInside (cap : Nat) (sl : Slice) : Bool := decide (sl.off + sl.len ≤ cap)

/-- The payload of a binary view (R41, R74), read through the buffer while the view is live. -/
def State.viewPayload (s : State) (v : BinView) : Except Fault Bytes :=
  if s.viewALive v then
    if sliceInside s.cfg.bufCapA v.payload then .ok (s.wbaRun v.payload) else .error .noSuchByte
  else
    .error .staleView

/-- The bytes of a token operand (R240, R386): an IN run is itself, EMPTY_TOKEN is empty, and a slice
is read through the buffer while its view is live. -/
def State.tokenBytes (s : State) : Tok → Except Fault Bytes
  | .run bs => .ok bs
  | .held .empty => .ok []
  | .held (.slice sl g o) =>
    if s.tokenLive (.slice sl g o) then
      if sliceInside s.cfg.bufCapB sl then .ok (s.wbbRun sl) else .error .noSuchByte
    else
      .error .staleView

end Sys2Proof.Machine
end

