-- ==== Sys2Proof/Machine/BinCodec.lean ====
section
/-! DEFINITION. The binary field codec (42_binary_field_codec.md). -/

namespace Sys2Proof.Machine

/-- The number of elements of a field (R200): 1 for a scalar. -/
def elemCount (count : Nat) : Nat := if count = 0 then 1 else count

/-- The size in bytes of a field `(p, count)` (R112, R200). -/
def fieldSizeOf (p : PrimType) (count : Nat) : Nat := primSize p * elemCount count

/-- The size of a descriptor's field (R200); a tag outside 0..10 has no size, and no elaborated
descriptor holds one (R201). -/
def fieldSize (f : BinField) : Nat :=
  match primOfTag f.ptype with
  | some p => fieldSizeOf p f.count
  | none => 0

/-- The offset of the field after a list of fields, which is their payload size (R200). -/
def fieldsSize : List BinField → Nat
  | [] => 0
  | f :: fs => fieldSize f + fieldsSize fs

/-- `payload_size(d)` (R200). -/
def payloadSize (m : BinMsg) : Nat := fieldsSize m.fields

/-- `offset(f_k)` (R200): the sizes of the fields before it. -/
def fieldOffset (fs : List BinField) (k : Nat) : Nat := fieldsSize (fs.take k)

/-- `bits(v)` (R202): the two's-complement pattern of the type's width. -/
def valueBits (p : PrimType) (v : Int) : Nat := (v % (2 ^ (8 * primSize p) : Int)).toNat

/-- The little-endian image of a pattern in `n` bytes (R75, R202). -/
def leBytes (bits n : Nat) : Bytes :=
  (List.range n).map (fun i => BitVec.ofNat 8 (bits >>> (8 * i)))

/-- The pattern of little-endian bytes (R202: `Σ bs[i] << 8i`). -/
def leNat : Bytes → Nat
  | [] => 0
  | b :: bs => b.toNat + 256 * leNat bs

/-- `Img(ptype, v)` (R111, R202). -/
def image (p : PrimType) (v : Int) : Bytes := leBytes (valueBits p v) (primSize p)

/-- The value of a pattern (R202): two's complement for a signed type. -/
def bitsValue (p : PrimType) (bits : Nat) : Int :=
  if primSigned p && decide (2 ^ (8 * primSize p - 1) ≤ bits) then
    (bits : Int) - (2 ^ (8 * primSize p) : Nat)
  else
    (bits : Int)

/-- `Val(ptype, bs)` (R202). -/
def value (p : PrimType) (bs : Bytes) : Int := bitsValue p (leNat bs)

/-- The image of a field value (R112, R203): an array is its elements' images in order. -/
def fieldImage (p : PrimType) : BinVal → Bytes
  | .scalar v => image p v
  | .array vs => (vs.map (image p)).flatten

/-- The zero-filled value buffer of `n` bytes (R204): the low-order end comes from `bs`, and what `bs`
does not supply is zero (R77). -/
def zeroFill (n : Nat) (bs : Bytes) : Bytes := bs.take n ++ List.replicate (n - bs.length) 0x00

/-- The elements of a value buffer (R204): `count` values, each from its own bytes. -/
def elements (p : PrimType) : Nat → Bytes → List Int
  | 0, _ => []
  | k + 1, buf => value p (buf.take (primSize p)) :: elements p k (buf.drop (primSize p))

/-- The value of a field from a byte string of any length (R204). -/
def fieldValue (p : PrimType) (count : Nat) (bs : Bytes) : BinVal :=
  let buf := zeroFill (fieldSizeOf p count) bs
  if count = 0 then .scalar (value p buf) else .array (elements p count buf)

/-- BIN.ENC (ptype, count), x (R203). A tag outside 0..10 is a fault (R425; notes/assumptions/10.md). -/
def execBinEnc (ptype count : Nat) (x : BinVal) (s : State) : Host.Outcome State Fault Refusal :=
  match primOfTag ptype with
  | none => .fault .badDescriptor
  | some p =>
    if valFits p count x then .next (s.returns (.bytes (fieldImage p x)))
    else .refused .badOperand

/-- BIN.DEC (ptype, count), bs (R204). A short byte string is not an error. -/
def execBinDec (ptype count : Nat) (bs : Bytes) (s : State) : Host.Outcome State Fault Refusal :=
  match primOfTag ptype with
  | none => .fault .badDescriptor
  | some p => .next (s.returns (.binVal (fieldValue p count bs)))

end Sys2Proof.Machine
end

