-- ==== Sys2Proof/Machine/Crc.lean ====
section
/-! DEFINITION. The CRC-16 generator and CRC_EXTRA (40_crc16.md). -/

namespace Sys2Proof.Machine

/-- The initial value of the CRC state (R150). -/
def crcInitValue : Half := 0xFFFF

/-- One accumulate step (R150): reflected CRC-16, polynomial 0x1021, no final XOR. -/
def crcStep (b : Byte) (crc : Half) : Half :=
  let t0 : Byte := b ^^^ crc.setWidth 8
  let t : Byte := t0 ^^^ (t0 <<< 4)
  (crc >>> 8) ^^^ (t.setWidth 16 <<< 8) ^^^ (t.setWidth 16 <<< 3) ^^^ (t.setWidth 16 >>> 4)

/-- The fold of a run through the step, in order (R150). -/
def crcFold (run : Bytes) (crc : Half) : Half := run.foldl (fun c b => crcStep b c) crc

/-- One step of the bit-serial form: shift right, and fold 0x8408 in when the bit out is 1 (R158). -/
def crcBit (crc : Half) : Half := (crc >>> 1) ^^^ (if crc.getLsbD 0 then 0x8408 else 0)

/-- The bit-serial form of the step (R158). The machine uses `crcStep`. -/
def crcStepSerial (b : Byte) (crc : Half) : Half :=
  crcBit (crcBit (crcBit (crcBit (crcBit (crcBit (crcBit (crcBit (crc ^^^ b.setWidth 16))))))))

/-- The frame CRC of a run under an extra byte (R159). -/
def frameCrc (run : Bytes) (extra : Byte) : Half := crcStep extra (crcFold run crcInitValue)

/-- The canonical type name of a tag (R110); a tag outside 0..10 has none, and no elaborated
descriptor holds one (R201). -/
def typeName (tag : Nat) : Bytes :=
  match primOfTag tag with
  | some p => primName p
  | none => []

/-- The fold of one field's contribution to CRC_EXTRA (R156): `"<type> <field> "`, then the array
length byte when the parameter asks for it (D4). -/
def crcField (arrayLen : Bool) (c : Half) (f : BinField) : Half :=
  let c := crcFold (typeName f.ptype ++ [chr ' '] ++ f.fname ++ [chr ' ']) c
  if arrayLen && decide (0 < f.count) then crcStep (BitVec.ofNat 8 f.count) c else c

/-- `CrcExtra(d)` (R156). -/
def crcExtra (arrayLen : Bool) (m : BinMsg) : Byte :=
  let c := m.fields.foldl (crcField arrayLen) (crcFold (m.name ++ [chr ' ']) crcInitValue)
  c.setWidth 8 ^^^ (c >>> 8).setWidth 8

/-- `CRC <- v; return CRC`. -/
def State.returnCrc (s : State) (v : Half) : State := (s.setCrc v).returns (.half v)

/-- CRC.INIT (R151). -/
def execCrcInit (s : State) : Host.Outcome State Fault Refusal :=
  .next (s.returnCrc crcInitValue)

/-- CRC.LOAD v (R152). -/
def execCrcLoad (v : Half) (s : State) : Host.Outcome State Fault Refusal :=
  .next (s.returnCrc v)

/-- CRC.ACC b (R153). -/
def execCrcAcc (b : Byte) (s : State) : Host.Outcome State Fault Refusal :=
  .next (s.returnCrc (crcStep b s.crc))

/-- CRC.ACCBUF run (R154). -/
def execCrcAccBuf (run : Bytes) (s : State) : Host.Outcome State Fault Refusal :=
  .next (s.returnCrc (crcFold run s.crc))

/-- CRC.ACCSTR s (R155): no terminator is folded. A byte outside ASCII is folded too
(notes/assumptions/18.md). -/
def execCrcAccStr (str : Bytes) (s : State) : Host.Outcome State Fault Refusal :=
  .next (s.returnCrc (crcFold str s.crc))

/-- CRC.EXTRA d (R156): `CRCX[d]`, computed at elaboration (R157). -/
def execCrcExtra (d : Nat) (s : State) : Host.Outcome State Fault Refusal :=
  match s.binMsg? d with
  | none => .fault .badDescriptor
  | some _ => .next (s.returns (.byte (s.crcxAt d)))

end Sys2Proof.Machine
end

