-- ==== Sys2Proof/Machine/BinSerdes.lean ====
section
/-! DEFINITION. The binary serializer and deserializer (46_binary_serdes.md). -/

namespace Sys2Proof.Machine

/-- SERA_MIN_BUF (R6): the least output buffer SERA accepts. -/
def seraMinBuf : Nat := 280

/-- The image of one record entry (R350): an absent entry is zero bytes (R206). -/
def entryImage (f : BinField) : Option BinVal → Bytes
  | none => List.replicate (fieldSize f) 0x00
  | some x =>
    match primOfTag f.ptype with
    | some p => fieldImage p x
    | none => []

/-- `PayloadImage(d, rec)` (R350): the entries' images in declared order. -/
def payloadImage : List BinField → List (Option BinVal) → Bytes
  | f :: fs, x :: xs => entryImage f x ++ payloadImage fs xs
  | _, _ => []

/-- The trimmed length of a payload's first `n` bytes (R352): trailing zero bytes go, down to one
byte. -/
def trimLen (p : Bytes) : Nat → Nat
  | 0 => 0
  | n + 1 => if 0 < n ∧ p[n]? = some 0x00 then trimLen p n else n + 1

/-- The trimmed payload (R352). -/
def trimPayload (p : Bytes) : Bytes := p.take (trimLen p p.length)

/-- Byte `i` of a message id, little-endian (R75, R120). -/
def msgidByte (m : MsgId) (i : Nat) : Byte := (m >>> (8 * i)).setWidth 8

/-- The ten header bytes (R120, R351): v2, both flag bytes 0. -/
def seraHeader (n : Nat) (msgid : MsgId) (sys comp seq : Byte) : Bytes :=
  [0xFD, BitVec.ofNat 8 n, 0x00, 0x00, seq, sys, comp,
    msgidByte msgid 0, msgidByte msgid 1, msgidByte msgid 2]

/-- The two CRC bytes, little-endian (R353). -/
def crcBytes (c : Half) : Bytes := [c.setWidth 8, (c >>> 8).setWidth 8]

/-- The frame SERA writes (R351, R353) for a payload image and a CRC_EXTRA byte. -/
def seraFrame (m : BinMsg) (extra : Byte) (image : Bytes) (sys comp seq : Byte) : Bytes :=
  let p := trimPayload image
  let hdr := seraHeader p.length m.msgid sys comp seq
  hdr ++ p ++ crcBytes (frameCrc (hdr.drop 1 ++ p) extra)

/-- SERA d, rec, sys, comp, seq, out (R351). The checks stand in the order of R417; a short buffer is
an error whatever the frame's length, and may have been scribbled on (R73). -/
def execSera (d : Nat) (rec : List (Option BinVal)) (sys comp seq : Byte) (out : OutBuf)
    (s : State) : Host.Outcome State Fault Refusal :=
  match s.binMsg? d with
  | none => .fault .badDescriptor
  | some m =>
    if binRecordFits m.fields rec then
      if outOverlaps out then .refused .hostBufferWrite
      else if outLen out < seraMinBuf then
        .next ((s.scribbleOut (outBase out) (outLen out)).raise none .bufferOverrun)
      else
        let frame := seraFrame m (s.crcxAt d) (payloadImage m.fields rec) sys comp seq
        .next ((s.setOut (Memory.writeRun s.out (outBase out) frame)).returns
          (.count frame.length))
    else
      .refused .badOperand

/-- The Lazy record of a payload (R355, R356): each field takes what remains, zero-filled. -/
def lazyRecord : List BinField → Bytes → List Bytes
  | [], _ => []
  | f :: fs, r => zeroFill (fieldSize f) r :: lazyRecord fs (r.drop (fieldSize f))

/-- DESERA d, view (R355): the checks in the order of R417, and only the message id is compared
(R357). -/
def execDesera (d : Nat) (view : BinView) (s : State) : Host.Outcome State Fault Refusal :=
  match s.binMsg? d with
  | none => .fault .badDescriptor
  | some m =>
    match s.viewPayload view with
    | .error f => .fault f
    | .ok r =>
      if view.msgid = m.msgid then .next (s.returns (.lazyBin (lazyRecord m.fields r)))
      else .next (s.raise none .parseError)

end Sys2Proof.Machine
end

