-- ==== Sys2Proof/Machine/FramerA.lean ====
section
/-! DEFINITION. The binary framer (44_binary_framer.md). Each step ends by returning the push's one
result: NONE, VIEW or ERROR. -/

namespace Sys2Proof.Machine

/-- A signature follows the CRC (R121, R278): only v2, only with incompatibility bit 0. -/
def isSigned (a : FramerA) : Bool := decide (a.ver = .v2) && a.incompat.getLsbD 0

/-- The number of core header bytes (R276): 4 for v1, 6 for v2. -/
def headerCount : Ver → Nat
  | .v1 => 4
  | .v2 => 6

/-- The view EmitA builds from the registers (R41, R283), emitted by the block `i`. -/
def viewOf (i : BlockId) (a : FramerA) : BinView where
  ver := a.ver
  msgid := a.msgid
  sys := a.sys
  comp := a.comp
  seq := a.seq
  payload := ⟨a.poff, a.n.toNat⟩
  checksum := a.ck
  incompat := a.incompat
  compat := a.compat
  sig := if isSigned a then ⟨a.poff + a.n.toNat + 2, 13⟩ else ⟨0, 0⟩
  gen := a.gen
  origin := i

/-- `EmitA` (R283): WBA is left as it stands. -/
def emitA (s : State) : State :=
  (s.setA { s.a with state := .seekSync, idx := 0 }).returns (.viewA (viewOf s.inst s.a))

/-- Set the framer's registers and return NONE. -/
def noneA (s : State) (a : FramerA) : State := (s.setA a).returns .noMessage

/-- A marker starts a frame (R273): `A.wr` is 0, so that all of WBA lies above it and is unspecified
(R71; notes/assumptions/8.md), and the marker is byte 0. -/
def startFrame (v : Ver) (b : Byte) (s : State) : State :=
  ((s.setWba s.wba.forget).setA { s.a with ver := v, wr := 0 }).appendA b
    (fun s => noneA s { s.a with state := .readLength })

/-- `StepSeekSync` (R273): a byte that is no marker is dropped without a report. -/
def stepSeekSync (b : Byte) (s : State) : State :=
  if b = 0xFD then startFrame .v2 b s
  else if b = 0xFE then startFrame .v1 b s
  else
    s.returns .noMessage

/-- `StepLength` (R274): every length is accepted. -/
def stepLength (b : Byte) (s : State) : State :=
  s.appendA b (fun s =>
    noneA s { s.a with
      n := b, incompat := 0, compat := 0, idx := 0,
      state := match s.a.ver with
        | .v2 => .readV2Flags
        | .v1 => .readCoreHeader })

/-- `StepFlags` (R275): no flag value is rejected. -/
def stepFlags (b : Byte) (s : State) : State :=
  s.appendA b (fun s =>
    if s.a.idx = 0 then noneA s { s.a with incompat := b, idx := 1 }
    else noneA s { s.a with compat := b, idx := 0, state := .readCoreHeader })

/-- The header byte of index `idx` into its register (R276). -/
def storeHeader (a : FramerA) (b : Byte) : FramerA :=
  match a.idx with
  | 0 => { a with seq := b }
  | 1 => { a with sys := b }
  | 2 => { a with comp := b }
  | 3 => { a with msgid := b.setWidth 24 }
  | 4 => { a with msgid := (a.msgid &&& 0xFF00FF) ||| (b.setWidth 24 <<< 8) }
  | 5 => { a with msgid := (a.msgid &&& 0x00FFFF) ||| (b.setWidth 24 <<< 16) }
  | _ => a

/-- `StepHeader` (R276). -/
def stepHeader (b : Byte) (s : State) : State :=
  s.appendA b (fun s =>
    let a := storeHeader s.a b
    if a.idx + 1 = headerCount a.ver then
      noneA s { a with
        poff := a.wr, idx := 0,
        state := if 0 < a.n.toNat then .readPayload else .readChecksum }
    else
      noneA s { a with idx := a.idx + 1 })

/-- `StepPayload` (R277): a marker value inside the payload is data. -/
def stepPayload (b : Byte) (s : State) : State :=
  s.appendA b (fun s =>
    if s.a.idx + 1 = s.a.n.toNat then noneA s { s.a with idx := 0, state := .readChecksum }
    else noneA s { s.a with idx := s.a.idx + 1 })

/-- `StepChecksum` (R278): stored, low byte first, not validated (R282). -/
def stepChecksum (b : Byte) (s : State) : State :=
  s.appendA b (fun s =>
    if s.a.idx = 0 then noneA s { s.a with ck := b.setWidth 16, idx := 1 }
    else
      let a := { s.a with ck := (s.a.ck &&& 0x00FF) ||| (b.setWidth 16 <<< 8), idx := 0 }
      if isSigned a then noneA s { a with state := .readSignature }
      else emitA (s.setA a))

/-- `StepSignature` (R279): 13 bytes, stored and not checked. -/
def stepSignature (b : Byte) (s : State) : State :=
  s.appendA b (fun s =>
    let a := { s.a with idx := s.a.idx + 1 }
    if a.idx = 13 then emitA (s.setA a) else noneA s a)

/-- Every push increments the generation before anything else (R40). -/
def bumpGenA (s : State) : State := s.setA { s.a with gen := s.a.gen + 1 }

/-- The push after the generation step, by the framer's state (R272). -/
def dispatchA (b : Byte) (s : State) : State :=
  match s.a.state with
  | .seekSync => stepSeekSync b s
  | .readLength => stepLength b s
  | .readV2Flags => stepFlags b s
  | .readCoreHeader => stepHeader b s
  | .readPayload => stepPayload b s
  | .readChecksum => stepChecksum b s
  | .readSignature => stepSignature b s

/-- One push of Framer-A (R272). -/
def pushA (b : Byte) (s : State) : State := dispatchA b (bumpGenA s)

/-- FRA.RESET (R270): every register but the state, `wr` and the generation becomes unspecified, and
with `wr` 0 all of WBA is (R71). -/
def execFraReset (s : State) : Host.Outcome State Fault Refusal :=
  .next ((((s.setWba s.wba.forget).setA
    { junkA s.inst s.draws s.cfg.bufCapA with gen := s.a.gen + 1 }).addDraws
    junkADraws).returns .done)

/-- FRA.PUSH b (R272). -/
def execFraPush (b : Byte) (s : State) : Host.Outcome State Fault Refusal := .next (pushA b s)

end Sys2Proof.Machine
end

