-- ==== Sys2Proof/Machine/Xor.lean ====
section
/-! DEFINITION. The XOR checksum and the hex pair codec (41_xor_checksum.md). -/

namespace Sys2Proof.Machine

/-- The XOR of a run's bytes, from a start value (R180). -/
def xorFold (run : Bytes) (x : Byte) : Byte := run.foldl (fun x b => x ^^^ b) x

/-- `HexDigit(n)` (R184): an uppercase digit. -/
def hexDigit (n : Nat) : Byte :=
  if n < 10 then BitVec.ofNat 8 (0x30 + n) else BitVec.ofNat 8 (0x37 + n)

/-- The two digits of a byte, high nibble first (R184). -/
def hexPair (v : Byte) : Bytes := [hexDigit (v.toNat / 16), hexDigit (v.toNat % 16)]

/-- `HexVal(c)` (R185): uppercase and lowercase digits; `none` is NONHEX. -/
def hexVal (c : Byte) : Option Byte :=
  if chr '0' ≤ c ∧ c ≤ chr '9' then some (c - 0x30)
  else if chr 'A' ≤ c ∧ c ≤ chr 'F' then some (c - 0x37)
  else if chr 'a' ≤ c ∧ c ≤ chr 'f' then some (c - 0x57)
  else none

/-- The byte two hex characters spell, if both are hex digits (R185). -/
def hexByte (c0 c1 : Byte) : Option Byte :=
  match hexVal c0, hexVal c1 with
  | some h, some l => some ((h <<< 4) ||| l)
  | _, _ => none

/-- XOR.INIT (R181). -/
def execXorInit (s : State) : Host.Outcome State Fault Refusal :=
  .next ((s.setXsum 0x00).returns (.byte 0x00))

/-- XOR.ACC b (R182). -/
def execXorAcc (b : Byte) (s : State) : Host.Outcome State Fault Refusal :=
  .next ((s.setXsum (s.xsum ^^^ b)).returns (.byte (s.xsum ^^^ b)))

/-- XOR.RUN run (R183): XSUM is not touched. -/
def execXorRun (run : Bytes) (s : State) : Host.Outcome State Fault Refusal :=
  .next (s.returns (.byte (xorFold run 0x00)))

/-- HEX.ENC v (R184). -/
def execHexEnc (v : Byte) (s : State) : Host.Outcome State Fault Refusal :=
  .next (s.returns (.bytes (hexPair v)))

/-- HEX.DEC c0, c1 (R185): InvalidChecksumChar when either character is not a hex digit. -/
def execHexDec (c0 c1 : Byte) (s : State) : Host.Outcome State Fault Refusal :=
  match hexByte c0 c1 with
  | some v => .next (s.returns (.byte v))
  | none => .next (s.raise none .invalidChecksumChar)

end Sys2Proof.Machine
end

