-- ==== Sys2Proof/Machine/FramerB.lean ====
section
/-! DEFINITION. The text framer and tokenizer (45_text_framer.md). Each step ends by returning the
push's one result: NONE, VIEW or ERROR. -/

namespace Sys2Proof.Machine

/-- Set the framer's registers and return NONE. -/
def noneB (s : State) (b : FramerB) : State := (s.setB b).returns .noMessage

/-- `StepSeekStart` (R312): the start character is not stored, folded or reported. With `B.wr` 0 all of
WBB lies above it and is unspecified (R71, R72; notes/assumptions/8.md). -/
def stepSeekStart (c : Byte) (s : State) : State :=
  if c = chr '$' ∨ c = chr '!' then
    noneB (s.setWbb s.wbb.forget) { s.b with
      xor := 0x00, wr := 0, fstart := 0, hdr := false, talker := [], sid := [], fcount := 0,
      state := .readFields }
  else
    s.returns .noMessage

/-- `CloseField` (R318), then the rest of the push. A short first field is handled by the policy
(R319); a field beyond the capacity is dropped. -/
def closeField (s : State) (rest : State → State) : State :=
  let off := s.b.fstart
  let len := s.b.wr - s.b.fstart
  if s.b.hdr then
    if s.b.fcount < s.cfg.fieldCap then
      rest (s.setB { s.b with flist := s.b.flist.set s.b.fcount ⟨off, len⟩, fcount := s.b.fcount + 1 })
    else
      rest s
  else if 5 ≤ len then
    rest (s.setB { s.b with
      hdr := true, talker := s.wbbRun ⟨off, 2⟩, sid := s.wbbRun ⟨off + 2, 3⟩ })
  else
    match s.cfg.shortHeader with
    | .violation => (s.setB { s.b with hdr := true }).raise (some .b) .protocolViolation
    | .emptyIds => rest (s.setB { s.b with hdr := true, talker := [], sid := [] })

/-- `Star` (R315): the delimiter is neither folded nor stored. -/
def stepStar (s : State) : State :=
  closeField s (fun s => noneB s { s.b with idx := 0, state := .readChecksumHex })

/-- `Comma` (R316): the close comes before the append. -/
def stepComma (s : State) : State :=
  closeField s (fun s =>
    s.appendB (chr ',') (fun s => noneB s { s.b with fstart := s.b.wr }))

/-- `StepFields` (R314, R317). -/
def stepFields (c : Byte) (s : State) : State :=
  if c = chr '\n' then s.raise (some .b) .protocolViolation
  else if c = chr '*' then stepStar s
  else
    let s := s.setB { s.b with xor := s.b.xor ^^^ c }
    if c = chr ',' then stepComma s
    else s.appendB c (fun s => s.returns .noMessage)

/-- `StepHex` (R320): any two characters. -/
def stepHex (c : Byte) (s : State) : State :=
  if s.b.idx = 0 then noneB s { s.b with hex := (c, s.b.hex.2), idx := 1 }
  else noneB s { s.b with hex := (s.b.hex.1, c), idx := 0, state := .readCRLF }

/-- The view a sentence's registers give (R42, R322), emitted by the block `i`. -/
def textViewOf (i : BlockId) (b : FramerB) : TxtView where
  talker := b.talker
  sid := b.sid
  fields := b.flist.take b.fcount
  fieldCount := b.fcount
  gen := b.gen
  origin := i

/-- `Validate` (R322): the hex test first, then the comparison. -/
def validateB (s : State) : State :=
  match hexByte s.b.hex.1 s.b.hex.2 with
  | none => s.raise (some .b) .invalidChecksumChar
  | some v =>
    if v = s.b.xor then
      (s.setB { s.b with state := .seekStart }).returns (.viewB (textViewOf s.inst s.b))
    else
      s.raise (some .b) .checksumMismatch

/-- `StepCRLF` (R321): the deviating character is consumed. -/
def stepCRLF (c : Byte) (s : State) : State :=
  if s.b.idx = 0 then
    if c = chr '\r' then noneB s { s.b with idx := 1 }
    else s.raise (some .b) .protocolViolation
  else if c = chr '\n' then validateB s
  else s.raise (some .b) .protocolViolation

/-- Every push increments the generation before anything else (R40). -/
def bumpGenB (s : State) : State := s.setB { s.b with gen := s.b.gen + 1 }

/-- The push after the generation step, by the framer's state (R313). -/
def dispatchB (c : Byte) (s : State) : State :=
  match s.b.state with
  | .seekStart => stepSeekStart c s
  | .readFields => stepFields c s
  | .readChecksumHex => stepHex c s
  | .readCRLF => stepCRLF c s

/-- One push of Framer-B (R313). -/
def pushB (c : Byte) (s : State) : State := dispatchB c (bumpGenB s)

/-- FRB.RESET (R310): every register but the state, `wr` and the generation becomes unspecified, and
with `wr` 0 all of WBB is (R72). -/
def execFrbReset (s : State) : Host.Outcome State Fault Refusal :=
  .next ((((s.setWbb s.wbb.forget).setB
    { junkB s.inst s.draws s.cfg.bufCapB s.cfg.fieldCap with gen := s.b.gen + 1 }).addDraws
    (junkBDraws s.cfg.fieldCap)).returns .done)

/-- FRB.PUSH c (R313). -/
def execFrbPush (c : Byte) (s : State) : Host.Outcome State Fault Refusal := .next (pushB c s)

end Sys2Proof.Machine
end

