-- ==== Sys2Proof/Machine/TxtCodec.lean ====
section
/-! DEFINITION. The text field formatter and parser (43_text_field_codec.md). Both float roundings are
computed exactly over the naturals: to the nearest, ties to even (R232, R243). -/

namespace Sys2Proof.Machine

/-! ### Formatting -/

/-- One decimal digit. -/
def decDigit (d : Nat) : Byte := BitVec.ofNat 8 (0x30 + d)

/-- The decimal numeral of `n`, with `fuel` at least the number of its digits less one. -/
def decFuel : Nat → Nat → Bytes
  | 0, n => [decDigit (n % 10)]
  | fuel + 1, n => if n < 10 then [decDigit n] else decFuel fuel (n / 10) ++ [decDigit (n % 10)]

/-- `Dec(n)` (R232). -/
def dec (n : Nat) : Bytes := decFuel n n

/-- `Pad(s, W)` (R232). -/
def pad (s : Bytes) (w : Nat) : Bytes := List.replicate (w - s.length) (chr '0') ++ s

/-- The natural nearest to `num / den`, an exact tie going to the even one (R232, R243). -/
def roundHalfEven (num den : Nat) : Nat :=
  let q := num / den
  let r := num % den
  if 2 * r < den then q
  else if den < 2 * r then q + 1
  else if q % 2 = 0 then q else q + 1

/-- An IEEE 754 binary format: fraction bits and exponent bits (R230). -/
structure FloatFormat where
  mbits : Nat
  ebits : Nat
  deriving DecidableEq, Repr

/-- binary32. -/
def binary32 : FloatFormat := ⟨23, 8⟩

/-- binary64. -/
def binary64 : FloatFormat := ⟨52, 11⟩

/-- The exponent bias. -/
def floatBias (f : FloatFormat) : Nat := 2 ^ (f.ebits - 1) - 1

/-- The sign bit of a pattern (R235). -/
def floatSign (f : FloatFormat) (bits : Nat) : Bool := bits / 2 ^ (f.mbits + f.ebits) % 2 == 1

/-- The exponent field of a pattern. -/
def floatExp (f : FloatFormat) (bits : Nat) : Nat := bits / 2 ^ f.mbits % 2 ^ f.ebits

/-- The fraction field of a pattern. -/
def floatFrac (f : FloatFormat) (bits : Nat) : Nat := bits % 2 ^ f.mbits

/-- The pattern is neither a NaN nor an infinity. -/
def floatFinite (f : FloatFormat) (bits : Nat) : Bool := floatExp f bits != 2 ^ f.ebits - 1

/-- The integer significand: a finite pattern's magnitude is `floatMant * 2 ^ floatPow`. -/
def floatMant (f : FloatFormat) (bits : Nat) : Nat :=
  if floatExp f bits = 0 then floatFrac f bits else 2 ^ f.mbits + floatFrac f bits

/-- The power of two that scales `floatMant`. -/
def floatPow (f : FloatFormat) (bits : Nat) : Int :=
  (if floatExp f bits = 0 then 1 else (floatExp f bits : Int)) - floatBias f - f.mbits

/-- The magnitude of a finite pattern times `10 ^ prec`, rounded to a natural (R232 Fixed). -/
def fixedScaled (f : FloatFormat) (bits prec : Nat) : Nat :=
  let m := floatMant f bits
  let e := floatPow f bits
  if 0 ≤ e then m * 2 ^ e.toNat * 10 ^ prec
  else roundHalfEven (m * 10 ^ prec) (2 ^ (-e).toNat)

/-- The decimal rendering of `n / 10 ^ prec` (R232 Fixed): no point when `prec` is 0, never an
exponent. -/
def fixedText (n prec : Nat) : Bytes :=
  if prec = 0 then dec n
  else dec (n / 10 ^ prec) ++ [chr '.'] ++ pad (dec (n % 10 ^ prec)) prec

/-- The sign character of a negative number, which the width does not count (R235, R236). -/
def signText (neg : Bool) : Bytes := if neg then [chr '-'] else []

/-- `FmtFloat` (R235). -/
def fmtFloat (f : FloatFormat) (bits prec width : Nat) : Except Refusal Bytes :=
  if floatFinite f bits then
    .ok (signText (floatSign f bits) ++ pad (fixedText (fixedScaled f bits prec) prec) width)
  else
    .error .nonFiniteFormat

/-- `FmtInt` (R236). -/
def fmtInt (v : Int) (width : Nat) : Bytes :=
  signText (decide (v < 0)) ++ pad (dec v.natAbs) width

/-- The rendering of a present value (R233, R235 to R238). -/
def fmtValue (prec width : Nat) : TxtVal → Except Refusal Bytes
  | .int v => .ok (fmtInt v width)
  | .f32 bits => fmtFloat binary32 bits.toNat prec width
  | .f64 bits => fmtFloat binary64 bits.toNat prec width
  | .chr c => .ok [c]
  | .str s => .ok s

/-- `TXT.FMT` of a descriptor and an Eager value of its kind (R233, R234). A value outside the kind is
an operand outside its type (R425; notes/assumptions/17.md). -/
def fmtField (fd : TxtField) : Option TxtVal → Except Refusal Bytes
  | none => .ok []
  | some v => if kindAdmits fd.kind v then fmtValue fd.prec fd.width v else .error .badOperand

/-- A field descriptor operand is inside its type (R9): `prec` and `width` within their limits. -/
def txtFieldInRange (c : Config) (fd : TxtField) : Bool :=
  decide (fd.prec ≤ c.precMax) && decide (fd.width ≤ c.widthMax)

/-! ### Parsing -/

/-- The value of a decimal digit (R241: `'0'..'9'`). -/
def digitVal (c : Byte) : Option Nat :=
  if chr '0' ≤ c ∧ c ≤ chr '9' then some (c.toNat - 0x30) else none

/-- The number a run of digits continues, if every character is a digit. -/
def natFrom (acc : Nat) : Bytes → Option Nat
  | [] => some acc
  | c :: rest =>
    match digitVal c with
    | some d => natFrom (acc * 10 + d) rest
    | none => none

/-- `digit+` over the whole string (R241). -/
def parseNat (bs : Bytes) : Option Nat := if bs = [] then none else natFrom 0 bs

/-- Split a leading `'-'` off (R241, R243). -/
def takeMinus : Bytes → Bool × Bytes
  | [] => (false, [])
  | c :: rest => if c = chr '-' then (true, rest) else (false, c :: rest)

/-- The integer a token spells (R241): `'-'? digit+`, the sign only for signed kinds. -/
def parseInt (signed : Bool) (bs : Bytes) : Option Int :=
  match takeMinus bs with
  | (true, rest) => if signed then (parseNat rest).map (fun n => -(n : Int)) else none
  | (false, rest) => (parseNat rest).map (fun n => (n : Int))

/-- An integer kind admits a `'-'` (R241): its range reaches below zero. -/
def kindSigned (k : TxtKind) : Bool :=
  match kindRange k with
  | some (lo, _) => decide (lo < 0)
  | none => false

/-- `ParseInt` (R241): out of range is a ParseError too. -/
def parseIntToken (k : TxtKind) (bs : Bytes) : Result :=
  match parseInt (kindSigned k) bs with
  | some v => if kindHolds k v then .txtVal (some (.int v)) else .error .parseError
  | none => .error .parseError

/-- The leading digits of a string, and the rest. -/
def spanDigits : Bytes → Bytes × Bytes
  | [] => ([], [])
  | c :: rest =>
    match digitVal c with
    | some _ => (c :: (spanDigits rest).1, (spanDigits rest).2)
    | none => ([], c :: rest)

/-- The number a string of digits spells. -/
def digitsNat (bs : Bytes) : Nat := (natFrom 0 bs).getD 0

/-- The decimal number a float token denotes (R243): `digits * 10 ^ pow`, with the token's sign. -/
structure Decimal where
  neg : Bool
  digits : Nat
  pow : Int
  deriving DecidableEq, Repr

/-- `exp?` over the whole rest of a token (R243): the exponent, 0 when there is none. -/
def parseExp : Bytes → Option Int
  | [] => some 0
  | c :: rest =>
    if c = chr 'e' ∨ c = chr 'E' then
      match rest with
      | [] => none
      | s :: rest' =>
        if s = chr '+' then (parseNat rest').map (fun n => (n : Int))
        else if s = chr '-' then (parseNat rest').map (fun n => -(n : Int))
        else (parseNat (s :: rest')).map (fun n => (n : Int))
    else none

/-- The fraction part of a mantissa: the digits after a `'.'`, and the rest (R243). -/
def takeFraction : Bytes → Bytes × Bytes
  | [] => ([], [])
  | c :: rest => if c = chr '.' then spanDigits rest else ([], c :: rest)

/-- The grammar of R243 over the whole token: `'-'? mant exp?`, a mantissa having a digit before or
after its point. -/
def parseDecimal (bs : Bytes) : Option Decimal :=
  let (neg, body) := takeMinus bs
  let (whole, afterWhole) := spanDigits body
  let (frac, afterFrac) := takeFraction afterWhole
  if whole = [] ∧ frac = [] then none
  else
    match parseExp afterFrac with
    | some e => some ⟨neg, digitsNat (whole ++ frac), e - frac.length⟩
    | none => none

/-- What a decimal magnitude rounds to (R243). -/
inductive Rounded where
  | finite (bits : Nat)
  | overflow
  | underflow
  deriving DecidableEq, Repr

/-- `2 ^ e ≤ num / den`. -/
def atLeastPow (num den : Nat) (e : Int) : Bool :=
  if 0 ≤ e then decide (den * 2 ^ e.toNat ≤ num) else decide (den ≤ num * 2 ^ (-e).toNat)

/-- The exponent of a positive rational: the greatest `e` with `2 ^ e ≤ num / den`. -/
def binaryExponent (num den : Nat) : Int :=
  let e := (num.log2 : Int) - (den.log2 : Int)
  if atLeastPow num den e then e else e - 1

/-- A positive rational scaled by `2 ^ s` and rounded to a natural, ties to even. -/
def scaledRound (num den : Nat) (s : Int) : Nat :=
  if 0 ≤ s then roundHalfEven (num * 2 ^ s.toNat) den
  else roundHalfEven num (den * 2 ^ (-s).toNat)

/-- A positive rational rounded to a format, ties to even (R243): the magnitude's pattern, overflow
when it rounds to infinity, underflow when it rounds to a subnormal or to zero. -/
def roundRational (f : FloatFormat) (num den : Nat) : Rounded :=
  let emin : Int := 1 - (floatBias f : Int)
  let e := max (binaryExponent num den) emin
  let m := scaledRound num den ((f.mbits : Int) - e)
  if m < 2 ^ f.mbits then .underflow
  else
    let bits := (e + floatBias f).toNat * 2 ^ f.mbits + (m - 2 ^ f.mbits)
    if (2 ^ f.ebits - 1) * 2 ^ f.mbits ≤ bits then .overflow else .finite bits

/-- The magnitude of a decimal rounded to a format (R243). Beyond `10 ^ 400` every magnitude overflows
both formats, and below `10 ^ -400` every one underflows; the powers are not computed there
(notes/assumptions/20.md). -/
def roundDecimal (f : FloatFormat) (digits : Nat) (pow : Int) : Rounded :=
  if digits = 0 then .finite 0
  else if 400 < pow then .overflow
  else if pow + (dec digits).length < -400 then .underflow
  else if 0 ≤ pow then roundRational f (digits * 10 ^ pow.toNat) 1
  else roundRational f digits (10 ^ (-pow).toNat)

/-- A letter made lowercase; every other byte is itself. -/
def lowerCase (c : Byte) : Byte := if chr 'A' ≤ c ∧ c ≤ chr 'Z' then c + 0x20 else c

/-- The words R243 refuses, in any case; a word with a sign is none of them (notes/assumptions/19.md). -/
def isFloatWord (bs : Bytes) : Bool :=
  let w := bs.map lowerCase
  w == chars ['i', 'n', 'f'] || w == chars ['i', 'n', 'f', 'i', 'n', 'i', 't', 'y']
    || w == chars ['n', 'a', 'n']

/-- The pattern with the token's sign. -/
def withSign (f : FloatFormat) (neg : Bool) (bits : Nat) : Nat :=
  if neg then 2 ^ (f.mbits + f.ebits) + bits else bits

/-- `ParseFloat` (R243), `wrap` making the kind's value of a pattern. -/
def parseFloatToken (f : FloatFormat) (wrap : Nat → TxtVal) (bs : Bytes) : Except Refusal Result :=
  match parseDecimal bs with
  | some d =>
    match roundDecimal f d.digits d.pow with
    | .finite bits => .ok (.txtVal (some (wrap (withSign f d.neg bits))))
    | .overflow => .ok (.error .parseError)
    | .underflow => .error .unmodelledParse
  | none => if isFloatWord bs then .error .unmodelledParse else .ok (.error .parseError)

/-- `TXT.PARSE kind, tok` on the token's bytes (R240 to R243). -/
def parseToken (k : TxtKind) (bs : Bytes) : Except Refusal Result :=
  match bs with
  | [] => .ok (.txtVal none)
  | c :: rest =>
    match k with
    | .char => .ok (.txtVal (some (.chr c)))
    | .string => .ok (.txtVal (some (.str (c :: rest))))
    | .float32 =>
      parseFloatToken binary32 (fun n => .f32 (BitVec.ofNat 32 n)) (c :: rest)
    | .float64 =>
      parseFloatToken binary64 (fun n => .f64 (BitVec.ofNat 64 n)) (c :: rest)
    | .int8 | .uint8 | .int16 | .uint16 | .int32 | .uint32 | .int64 | .uint64 =>
      .ok (parseIntToken k (c :: rest))

/-- TXT.FMT fd, x (R233). -/
def execTxtFmt (fd : TxtField) (x : Option TxtVal) (s : State) :
    Host.Outcome State Fault Refusal :=
  if txtFieldInRange s.cfg fd then
    match fmtField fd x with
    | .ok bs => .next (s.returns (.bytes bs))
    | .error r => .refused r
  else
    .refused .badOperand

/-- TXT.PARSE kind, tok (R240); a held token is read first (R244, R386). -/
def execTxtParse (kind : TxtKind) (tok : Tok) (s : State) : Host.Outcome State Fault Refusal :=
  match s.tokenBytes tok with
  | .error f => .fault f
  | .ok bs =>
    match parseToken kind bs with
    | .error r => .refused r
    | .ok (.error e) => .next (s.raise none e)
    | .ok r => .next (s.returns r)

end Sys2Proof.Machine
end

