-- ==== Sys2Proof/Machine/TxtSerdes.lean ====
section
/-! DEFINITION. The text serializer and binder (47_text_serdes.md). -/

namespace Sys2Proof.Machine

/-- The renderings of a record's entries, in column order; a refusal passes up (R381). -/
def fmtFields : List TxtField → List (Option TxtVal) → Except Refusal (List Bytes)
  | f :: fs, x :: xs =>
    match fmtField f x with
    | .error r => .error r
    | .ok t =>
      match fmtFields fs xs with
      | .error r => .error r
      | .ok ts => .ok (t :: ts)
  | _, _ => .ok []

/-- Texts separated by commas (R381). -/
def joinComma : List Bytes → Bytes
  | [] => []
  | [t] => t
  | t :: ts => t ++ [chr ','] ++ joinComma ts

/-- The sentence body (R381): the header, a comma straight after it, and the fields. -/
def sentenceBody (talker sid : Bytes) (texts : List Bytes) : Bytes :=
  talker ++ sid ++ [chr ','] ++ joinComma texts

/-- The full sentence S (R381). -/
def sentence (body : Bytes) : Bytes :=
  [chr '$'] ++ body ++ [chr '*'] ++ hexPair (xorFold body 0x00) ++ [chr '\r', chr '\n']

/-- SERB d, talker, rec, out (R381). The output is the prefix that fits, without an error (R383). -/
def execSerb (d : Nat) (talker : Bytes) (rec : List (Option TxtVal)) (out : OutBuf) (s : State) :
    Host.Outcome State Fault Refusal :=
  match s.txtMsg? d with
  | none => .fault .badDescriptor
  | some m =>
    if talkerOk talker && txtRecordFits m.fields rec then
      if outOverlaps out then .refused .hostBufferWrite
      else
        match fmtFields m.fields rec with
        | .error r => .refused r
        | .ok texts =>
          let full := sentence (sentenceBody talker m.sid texts)
          let count := min (outLen out) full.length
          .next ((s.setOut (Memory.writeRun s.out (outBase out) (full.take count))).returns
            (.count count))
    else
      .refused .badOperand

/-- The token BINDB stores for column `k` (R385): the view's entry while `k` is within its count,
otherwise EMPTY_TOKEN. -/
def bindToken (v : TxtView) (k : Nat) : LazyTok :=
  if k < v.fieldCount then
    match v.fields[k]? with
    | some sl => .slice sl v.gen v.origin
    | none => .empty
  else
    .empty

/-- BINDB d, view (R385): binding never fails by itself. -/
def execBindb (d : Nat) (view : TxtView) (s : State) : Host.Outcome State Fault Refusal :=
  match s.txtMsg? d with
  | none => .fault .badDescriptor
  | some m =>
    if s.viewBLive view then
      .next (s.returns (.lazyTxt ((List.range m.fields.length).map (bindToken view))))
    else
      .fault .staleView

end Sys2Proof.Machine
end

