-- ==== Sys2Proof/Machine/Dispatch.lean ====
section
/-! DEFINITION. The meaning of every command: one arm per constructor of Instr. -/

namespace Sys2Proof.Machine

def exec (i : Instr) (s : State) : Host.Outcome State Fault Refusal :=
  match i with
  | .crcInit => Sys2Proof.Machine.execCrcInit s
  | .crcLoad v => Sys2Proof.Machine.execCrcLoad v s
  | .crcAcc b => Sys2Proof.Machine.execCrcAcc b s
  | .crcAccBuf run => Sys2Proof.Machine.execCrcAccBuf run s
  | .crcAccStr str => Sys2Proof.Machine.execCrcAccStr str s
  | .crcExtra d => Sys2Proof.Machine.execCrcExtra d s
  | .xorInit => Sys2Proof.Machine.execXorInit s
  | .xorAcc b => Sys2Proof.Machine.execXorAcc b s
  | .xorRun run => Sys2Proof.Machine.execXorRun run s
  | .hexEnc v => Sys2Proof.Machine.execHexEnc v s
  | .hexDec c0 c1 => Sys2Proof.Machine.execHexDec c0 c1 s
  | .binEnc ptype count x => Sys2Proof.Machine.execBinEnc ptype count x s
  | .binDec ptype count bs => Sys2Proof.Machine.execBinDec ptype count bs s
  | .txtFmt fd x => Sys2Proof.Machine.execTxtFmt fd x s
  | .txtParse kind tok => Sys2Proof.Machine.execTxtParse kind tok s
  | .fraReset => Sys2Proof.Machine.execFraReset s
  | .fraPush b => Sys2Proof.Machine.execFraPush b s
  | .frbReset => Sys2Proof.Machine.execFrbReset s
  | .frbPush c => Sys2Proof.Machine.execFrbPush c s
  | .sera d rec sys comp seq out => Sys2Proof.Machine.execSera d rec sys comp seq out s
  | .desera d view => Sys2Proof.Machine.execDesera d view s
  | .serb d talker rec out => Sys2Proof.Machine.execSerb d talker rec out s
  | .bindb d view => Sys2Proof.Machine.execBindb d view s

end Sys2Proof.Machine
end

