-- ==== Sys2Proof/Machine/Elaborate.lean ====
section
/-! DEFINITION. Elaboration (70_reset_and_hazards.md R452): the descriptor checks, CRCX, and the reset
that follows. -/

namespace Sys2Proof.Machine

/-- The element size of a field's type (R201 (d)); a tag outside 0..10 has none. -/
def elemSize (f : BinField) : Nat :=
  match primOfTag f.ptype with
  | some p => primSize p
  | none => 0

/-- The element sizes are non-increasing in list order (R201 (d)). -/
def sizesFall : List BinField → Bool
  | f :: g :: fs => decide (elemSize g ≤ elemSize f) && sizesFall (g :: fs)
  | _ => true

/-- A non-empty ASCII string (R201 (e)). -/
def asciiName (n : Bytes) : Bool := n != [] && n.all isAscii

/-- A binary descriptor is well-formed (R201). -/
def binMsgOk (m : BinMsg) : Bool :=
  m.fields.all (fun f => (primOfTag f.ptype).isSome)
    && m.fields != []
    && decide (1 ≤ payloadSize m) && decide (payloadSize m ≤ 255)
    && sizesFall m.fields
    && asciiName m.name && m.fields.all (fun f => asciiName f.fname)

/-- A text descriptor is well-formed (R231). -/
def txtMsgOk (precMax widthMax : Nat) (m : TxtMsg) : Bool :=
  m.sid.length == 3 && m.sid.all (fun c => !isDelimiter c)
    && m.fields.all (fun f => decide (f.prec ≤ precMax) && decide (f.width ≤ widthMax))

/-- Every descriptor of a configuration is well-formed (R452 step 2). -/
def configOk (c : Config) : Bool :=
  c.binMsgs.all binMsgOk && c.txtMsgs.all (txtMsgOk c.precMax c.widthMax)

/-- CRCX: one constant a binary descriptor (R157, R452 step 3). -/
def crcxOf (c : Config) : List Byte := c.binMsgs.map (crcExtra c.arrayLenInCrcExtra)

/-- Elaboration (R452): the parameters are checked, CRCX is computed, the block is reset. -/
def elaborate (c : Config) (s : State) : Host.Outcome State Fault Refusal :=
  if configOk c then .next (s.create c (crcxOf c)) else .refused .badConfiguration

/-- The platform's reset (R450): the configuration and CRCX stay at their elaboration values
(notes/assumptions/23.md). -/
def platformReset (s : State) : Host.Outcome State Fault Refusal := .next (s.create s.cfg s.crcx)

/-- A host write of one byte of a working buffer (R84, R461): refused while the framer is in frame or
a view of it is live; an index the buffer does not have is no byte (R70; notes/assumptions/16.md). -/
def hostWriteBuffer (f : Framer) (index : Nat) (v : Byte) (s : State) :
    Host.Outcome State Fault Refusal :=
  match f with
  | .a =>
    if s.inFrameA || s.someViewLive .a then .refused .hostBufferWrite
    else if index < s.cfg.bufCapA then .next (s.setWba (s.wba.write index v))
    else .fault .noSuchByte
  | .b =>
    if s.inFrameB || s.someViewLive .b then .refused .hostBufferWrite
    else if index < s.cfg.bufCapB then .next (s.setWbb (s.wbb.write index v))
    else .fault .noSuchByte

/-- A host write of one byte of its own OUT space (R70: the host owns it). -/
def hostWriteOut (addr : Nat) (v : Byte) (s : State) : Host.Outcome State Fault Refusal :=
  .next (s.setOut (Memory.write s.out addr v))

/-- Why a rejected command is refused (R102, R425). -/
def refusalOf : DecodeError → Refusal
  | .illegalCommand code => .illegalCommand code
  | .badOperand _ => .badOperand

end Sys2Proof.Machine
end

