-- ==== Sys2Proof/Machine/Issue.lean ====
section
/-! DEFINITION. What the block does with one host action (10_state.md R30, 20_memory.md R84,
70_reset_and_hazards.md R450, R452), and where the next one is taken from (notes/assumptions/1.md). -/

namespace Sys2Proof.Machine

/-- A command is decoded, and executed if it decodes (R100, R102, R416). -/
def issueCommand (c : Command) (s : State) : Host.Outcome State Fault Refusal :=
  match decode c with
  | .ok i => exec i s
  | .error e => .refused (refusalOf e)

/-- What the block or the platform does with a host action. -/
def perform (act : HostAction) (s : State) : Host.Outcome State Fault Refusal :=
  match act with
  | .command c => issueCommand c s
  | .writeBuffer f index v => hostWriteBuffer f index v s
  | .writeOut addr v => hostWriteOut addr v s
  | .writeTables => .refused .hostBufferWrite
  | .reset => platformReset s
  | .elaborate cfg => elaborate cfg s

/-- Take the oldest host action and perform it (R82: one at a time, in the order issued). With none
waiting the block holds its state (R436). -/
def takeNext (s : State) : Host.Outcome State Fault Refusal :=
  match s.pending with
  | [] => .next s
  | act :: rest => perform act (s.setPending rest)

/-- `c` becomes the next host action the block takes. -/
def State.withNextCommand (s : State) (c : Command) : State :=
  s.setPending (.command c :: s.pending)

end Sys2Proof.Machine
end

