-- ==== Sys2Proof/Machine/Step.lean ====
section
/-! DEFINITION. One step of the block: one host action (20_memory.md R79, R82). -/

namespace Sys2Proof.Machine

/-- One step (R79: each command is one atomic step). -/
def step (s : State) : Host.Outcome State Fault Refusal := takeNext s

/-- `s` with the command of a table word issued next: the code byte `w`, and the operand record of
zeros. -/
def State.withFetchWord (s : State) (nbits w : Nat) : State :=
  s.withNextCommand (tableCommand nbits w)

end Sys2Proof.Machine
end

