-- ==== Sys2Proof/Machine/Pseudo.lean ====
section
/-! DEFINITION. The pseudo-commands (30_encoding.md R103, 46_binary_serdes.md R359): host-side
expansions into commands. -/

namespace Sys2Proof.Machine

/-- `FRA.PUSH* bytes`, `FRA.FEED bytes` (R103): one push per byte, in order. -/
def expandFeedA (bs : Bytes) : List Instr := bs.map Instr.fraPush

/-- `FRB.PUSH* text`, `FRB.FEED text` (R103). -/
def expandFeedB (cs : Bytes) : List Instr := cs.map Instr.frbPush

/-- The commands of an expansion, executed in order; the first stop stops it. -/
def execAll : List Instr → State → Host.Outcome State Fault Refusal
  | [], s => .next s
  | i :: is, s =>
    match exec i s with
    | .next s' => execAll is s'
    | .fault f => .fault f
    | .refused r => .refused r

/-- The pushes of `FRA.FEED` as one function of the state. -/
def feedA (bs : Bytes) (s : State) : State := bs.foldl (fun s b => pushA b s) s

/-- The pushes of `FRB.FEED` as one function of the state. -/
def feedB (cs : Bytes) (s : State) : State := cs.foldl (fun s c => pushB c s) s

/-- What a feed yields (R103): the non-NONE results, each with the index of the push that produced it,
from the results of the pushes in order. -/
def feedReport : Nat → List Result → List (Nat × Result)
  | _, [] => []
  | k, .noMessage :: rs => feedReport (k + 1) rs
  | k, r :: rs => (k, r) :: feedReport (k + 1) rs

/-- The results a feed of `n` pushes added, in order. -/
def addedResults (n : Nat) (s : State) : List Result := (s.results.take n).reverse

/-- The report of `FRA.FEED` (R103). -/
def reportA (bs : Bytes) (s : State) : List (Nat × Result) :=
  feedReport 0 (addedResults bs.length (feedA bs s))

/-- The report of `FRB.FEED` (R103). -/
def reportB (cs : Bytes) (s : State) : List (Nat × Result) :=
  feedReport 0 (addedResults cs.length (feedB cs s))

/-- The header bytes of a frame, marker included (R123). -/
def headerLength : Ver → Nat
  | .v1 => 6
  | .v2 => 10

/-- The bytes CRC.CHECKA covers (R103, R359): the frame from index 1 through the header, then the
payload. -/
def coveredBytes (v : BinView) (s : State) : Bytes :=
  s.wbaRun ⟨1, headerLength v.ver - 1⟩ ++ s.wbaRun v.payload

/-- The expansion of `CRC.CHECKA view, d` (R103). -/
def expandCheckA (v : BinView) (d : Nat) (s : State) : List Instr :=
  [.crcInit, .crcAccBuf (coveredBytes v s), .crcAcc (s.crcxAt d)]

/-- `CRC.CHECKA view, d` (R359): the expansion, then the comparison of the CRC with the view's
checksum. The host reads the view, so it must be live, and `d` must be in range
(notes/assumptions/27.md). -/
def checkA (v : BinView) (d : Nat) (s : State) : Host.Outcome (State × Bool) Fault Refusal :=
  match s.binMsg? d with
  | none => .fault .badDescriptor
  | some _ =>
    match s.viewPayload v with
    | .error f => .fault f
    | .ok _ =>
      match execAll (expandCheckA v d s) s with
      | .next s' => .next (s', decide (s'.crc = v.checksum))
      | .fault f => .fault f
      | .refused r => .refused r

/-- The expansion of `XOR.SUM run` (R103): the second command's operand is the first one's result. -/
def expandXorSum (run : Bytes) : List Instr := [.xorRun run, .hexEnc (xorFold run 0x00)]

/-- `XOR.SUM run` (R103). -/
def xorSum (run : Bytes) (s : State) : Host.Outcome State Fault Refusal :=
  execAll (expandXorSum run) s

end Sys2Proof.Machine
end

