-- ==== Sys2Proof/Machine/Run.lean ====
section
/-! DEFINITION. Runs with the fault record and the refusal mark of 60_exceptions.md R425, and the end
of a run (70_reset_and_hazards.md R471). -/

namespace Sys2Proof.Machine

/-- A block with its fault record and refusal mark (R425), each newest first. -/
structure Run where
  state : State
  faults : List Fault
  refusals : List Refusal
  deriving DecidableEq, Repr

/-- A run starts from a state with nothing recorded. -/
def Run.start (s : State) : Run := ⟨s, [], []⟩

/-- The state a stopped step leaves (R426): every register and all memory as before, the host action
gone (notes/assumptions/11.md). -/
def State.drop (s : State) : State := s.setPending s.pending.tail

/-- One step of a run (R425): a fault is recorded, a refusal sets the mark, and nothing clears
either. -/
def Run.advance (r : Run) : Run :=
  match step r.state with
  | .next s => { r with state := s }
  | .fault f => { r with state := r.state.drop, faults := f :: r.faults }
  | .refused m => { r with state := r.state.drop, refusals := m :: r.refusals }

/-- `k` steps of a run. -/
def Run.steps : Nat → Run → Run
  | 0, r => r
  | k + 1, r => Run.steps k r.advance

/-- No fault is recorded and no refusal mark is set (R453 P1). -/
def Run.clean (r : Run) : Bool := r.faults.isEmpty && r.refusals.isEmpty

/-- The run has ended (R471): every host action is taken. A faulted state is never final (R425). -/
def Run.final (r : Run) : Bool := r.clean && r.state.pending.isEmpty

/-- The list of results, one per command, oldest first (R471). -/
def Run.resultList (r : Run) : List Result := r.state.results.reverse

end Sys2Proof.Machine
end

