-- ==== Sys2Proof/Machine/System.lean ====
section
/-! DEFINITION. Several blocks (60_exceptions.md R440): an interleaving of their steps. -/

namespace Sys2Proof.Machine

/-- A system of blocks (R440), each with its own fault record and refusal mark (R425). A stop of one
block is recorded there and the others go on, which is the model's choice (notes/assumptions/25.md). -/
abbrev System := List Run

/-- Each block's number is its place in the list, the model's own name, so that no two blocks share a
free value (notes/assumptions/25.md). -/
def System.numbered (sys : System) : Prop :=
  ∀ (k : Nat) (r : Run), sys[k]? = some r → r.state.inst.block = k

/-- The block `k` of a system right after reset (R450). -/
def State.resetBlock (k : Nat) : State := { State.reset with inst := ⟨k, 0⟩ }

/-- A system of `n` blocks right after reset. -/
def System.start (n : Nat) : System := (List.range n).map (fun k => Run.start (State.resetBlock k))

/-- Block `k` takes one step; no other block changes (R440). A number no block has changes nothing. -/
def systemStep (k : Nat) (sys : System) : System := sys.modify k Run.advance

/-- The steps of a schedule: the number of the block that steps next, in order (R440). -/
def systemRun (ks : List Nat) (sys : System) : System := ks.foldl (fun sys k => systemStep k sys) sys

end Sys2Proof.Machine
end

