-- ==== Sys2Proof/Safety.lean ====
section
/-! DEFINITION. What counts as a legal block: the reset state (10_state.md R46), the launch premises
(70_reset_and_hazards.md R453), and the invariant every step keeps. -/

namespace Sys2Proof.Machine

/-- The configuration passed elaboration (R452, R453 P3): its descriptors are well-formed and CRCX
holds their constants. -/
def Elaborated (s : State) : Prop := configOk s.cfg = true ∧ s.crcx = crcxOf s.cfg

/-- Every register lies in its width and range (R34, R36; A.idx as in notes/assumptions/9.md), and the
working buffers are in canonical form and inside their spaces (R70). -/
def InRange (s : State) : Prop :=
  s.a.wr ≤ s.cfg.bufCapA ∧ s.a.poff ≤ s.cfg.bufCapA ∧ s.a.idx < 256
    ∧ s.b.wr ≤ s.cfg.bufCapB ∧ s.b.fstart ≤ s.cfg.bufCapB ∧ s.b.idx < 2
    ∧ s.b.fcount ≤ s.cfg.fieldCap ∧ s.b.flist.length = s.cfg.fieldCap
    ∧ (s.b.talker = [] ∨ s.b.talker.length = 2) ∧ (s.b.sid = [] ∨ s.b.sid.length = 3)
    ∧ Buffer.wf s.cfg.bufCapA s.wba = true ∧ Buffer.wf s.cfg.bufCapB s.wbb = true

/-- What reset leaves (R46, R450): the framers in their first states with empty write indexes, the
registers at their initial values, generations 0, no view, and every item the spec calls unspecified at
some value of its type. -/
def IsReset (s : State) : Prop :=
  s.crc = 0xFFFF ∧ s.xsum = 0x00
    ∧ s.a.state = .seekSync ∧ s.a.wr = 0 ∧ s.a.gen = 0
    ∧ s.b.state = .seekStart ∧ s.b.wr = 0 ∧ s.b.gen = 0
    ∧ s.results = [] ∧ InRange s

/-- Where Framer-A stands in its frame: the step it rests in, the index inside it, and the number of
bytes stored agree with the frame layout (R120, R122, R273 to R279). -/
def positionA (a : FramerA) : Prop :=
  match a.state with
  | .seekSync => True
  | .readLength => a.wr = 1
  | .readV2Flags => a.ver = .v2 ∧ a.idx < 2 ∧ a.wr = 2 + a.idx
  | .readCoreHeader =>
    a.idx < headerCount a.ver ∧ a.wr + headerCount a.ver = headerLength a.ver + a.idx
  | .readPayload =>
    a.poff = headerLength a.ver ∧ a.idx < a.n.toNat ∧ a.wr = a.poff + a.idx
  | .readChecksum =>
    a.poff = headerLength a.ver ∧ a.idx < 2 ∧ a.wr = a.poff + a.n.toNat + a.idx
  | .readSignature =>
    isSigned a = true ∧ a.poff = headerLength a.ver ∧ a.idx < 13
      ∧ a.wr = a.poff + a.n.toNat + 2 + a.idx

/-- Bytes `0 .. A.wr)` of WBA are stored ones (R71). -/
def storedA (s : State) : Prop := ∀ i, i < s.a.wr → (s.wba.read? i).isSome = true

/-- Bytes `0 .. B.wr)` of WBB are stored ones (R72). -/
def storedB (s : State) : Prop := ∀ i, i < s.b.wr → (s.wbb.read? i).isSome = true

/-- Framer-A is legal: a position the frame layout knows, and in frame every byte below the write index
is stored (R71). -/
def FramerALegal (s : State) : Prop := positionA s.a ∧ (s.a.state ≠ .seekSync → storedA s)

/-- The registers of a sentence in progress: the field starts inside the stored body, the stored
entries lie inside it, no field is closed before the header, the ids are both set or both empty, and
the running XOR is the XOR of the stored body (R324). -/
def sentenceLegal (s : State) : Prop :=
  s.b.fstart ≤ s.b.wr
    ∧ (∀ sl, sl ∈ s.b.flist.take s.b.fcount → sl.off + sl.len ≤ s.b.wr)
    ∧ (s.b.hdr = false → s.b.fstart = 0 ∧ s.b.fcount = 0)
    ∧ (s.b.talker = [] ↔ s.b.sid = [])
    ∧ s.b.xor = xorFold (s.wbbRun ⟨0, s.b.wr⟩) 0x00

/-- Framer-B is legal: in frame its registers are those of a sentence in progress, and every character
below the write index is stored (R72). -/
def FramerBLegal (s : State) : Prop :=
  s.b.state ≠ .seekStart → sentenceLegal s ∧ storedB s

/-- The binary views returned since reset (R40, R41, R450): each is of this life of the block, none is
younger than the framer, and a live one lies in the stored bytes of a framer that is not in frame. -/
def ViewsALegal (s : State) : Prop :=
  ∀ v, Result.viewA v ∈ s.results → v.origin = s.inst ∧ v.gen ≤ s.a.gen ∧
    (v.gen = s.a.gen → s.a.state = .seekSync ∧ storedA s
      ∧ v.payload.off + v.payload.len ≤ s.a.wr ∧ v.sig.off + v.sig.len ≤ s.a.wr)

/-- The text views returned since reset (R40, R42, R450), in the same way. -/
def ViewsBLegal (s : State) : Prop :=
  ∀ v, Result.viewB v ∈ s.results → v.origin = s.inst ∧ v.gen ≤ s.b.gen ∧
    (v.gen = s.b.gen → s.b.state = .seekStart ∧ storedB s ∧ v.fieldCount = v.fields.length
      ∧ ∀ sl, sl ∈ v.fields → sl.off + sl.len ≤ s.b.wr)

/-- At most one view of each framer is live (R40: a push emits at most one, and every push ends the
life of all before it). -/
def OneLiveView (s : State) : Prop :=
  (∀ v v', Result.viewA v ∈ s.results → Result.viewA v' ∈ s.results →
      v.gen = s.a.gen → v'.gen = s.a.gen → v = v')
    ∧ (∀ v v', Result.viewB v ∈ s.results → Result.viewB v' ∈ s.results →
      v.gen = s.b.gen → v'.gen = s.b.gen → v = v')

/-- The invariant of the block: what every step keeps, whatever host action it takes. -/
structure Legal (s : State) : Prop where
  elaborated : Elaborated s
  inRange : InRange s
  outWf : Memory.wf s.out = true
  framerA : FramerALegal s
  framerB : FramerBLegal s
  viewsA : ViewsALegal s
  viewsB : ViewsBLegal s
  oneLive : OneLiveView s

/-- A run of a block that was launched (R453 P1, P2, P3): nothing recorded, and its state is reached
by steps from a reset state of an elaborated configuration, the host's OUT bytes being in canonical form
there. P4 is enforced by the refusals of R84, and P5 holds between steps. -/
def Launched (r : Run) : Prop :=
  r.clean = true ∧ Elaborated r.state ∧
    ∃ s k, IsReset s ∧ Elaborated s ∧ Memory.wf s.out = true ∧ r = Run.steps k (Run.start s)

/-! ### Frames on the wire -/

/-- The length of a frame from its first bytes (R123), once enough of them are there. -/
def frameLength : Bytes → Option Nat
  | m :: n :: rest =>
    if m = 0xFD then
      match rest with
      | incompat :: _ => some (10 + n.toNat + 2 + (if incompat.getLsbD 0 then 13 else 0))
      | [] => none
    else if m = 0xFE then some (6 + n.toNat + 2)
    else none
  | _ => none

/-- A byte string is exactly one frame of the layout of R120 or R122. -/
def isFrame (f : Bytes) : Bool := frameLength f == some f.length

/-- The variant of a frame, from its marker (R120, R122). -/
def frameVer (f : Bytes) : Ver := if f.head? = some 0xFD then .v2 else .v1

/-- The payload of a frame (R120, R122). -/
def framePayload (f : Bytes) : Bytes :=
  (f.drop (headerLength (frameVer f))).take (f.getD 1 0).toNat

/-- The index inside WBA the next push of Framer-A stores its byte at (R71, R271, R273), if it stores
it. -/
def storedAtA (b : Byte) (s : State) : Option Nat :=
  match s.a.state with
  | .seekSync => if (b = 0xFD ∨ b = 0xFE) ∧ 0 < s.cfg.bufCapA then some 0 else none
  | _ => if s.a.wr < s.cfg.bufCapA then some s.a.wr else none

/-- The next push of Framer-A is a marker that starts a frame (R273), so that `A.wr` becomes 0 and all of
WBA is unspecified before the marker is stored (R71). -/
def startsFrame (b : Byte) (s : State) : Prop := s.a.state = .seekSync ∧ (b = 0xFD ∨ b = 0xFE)

/-- The next push of Framer-B starts a sentence (R312), so that `B.wr` becomes 0 and all of WBB is
unspecified (R72). -/
def startsSentence (c : Byte) (s : State) : Prop := s.b.state = .seekStart ∧ (c = 0x24 ∨ c = 0x21)

/-- The close of a short first field ends the sentence (R319). -/
def shortHeaderStops (s : State) : Bool :=
  !s.b.hdr && decide (s.b.wr - s.b.fstart < 5) && decide (s.cfg.shortHeader = .violation)

/-- The index inside WBB the next push of Framer-B stores its character at (R72, R311, R314 to R317),
if it stores it. -/
def storedAtB (c : Byte) (s : State) : Option Nat :=
  match s.b.state with
  | .readFields =>
    if c = chr '\n' ∨ c = chr '*' then none
    else if c = chr ',' ∧ shortHeaderStops s = true then none
    else if s.b.wr < s.cfg.bufCapB then some s.b.wr
    else none
  | _ => none

/-- The errors a command can report (R414). -/
def reportable : Instr → List ErrorKind
  | .hexDec _ _ => [.invalidChecksumChar]
  | .txtParse _ _ => [.parseError]
  | .fraPush _ => [.bufferOverrun]
  | .frbPush _ => [.protocolViolation, .bufferOverrun, .invalidChecksumChar, .checksumMismatch]
  | .sera _ _ _ _ _ _ => [.bufferOverrun]
  | .desera _ _ => [.parseError]
  | _ => []

/-- What CloseField leaves in the registers when it does not stop the sentence (R318, R319). -/
def closedB (s : State) : FramerB :=
  let len := s.b.wr - s.b.fstart
  if s.b.hdr then
    if s.b.fcount < s.cfg.fieldCap then
      { s.b with flist := s.b.flist.set s.b.fcount ⟨s.b.fstart, len⟩, fcount := s.b.fcount + 1 }
    else s.b
  else if 5 ≤ len then
    { s.b with hdr := true, talker := s.wbbRun ⟨s.b.fstart, 2⟩,
               sid := s.wbbRun ⟨s.b.fstart + 2, 3⟩ }
  else { s.b with hdr := true, talker := [], sid := [] }

/-! ### Text records -/

/-- The entry is a NaN or an infinity (R235). -/
def nonFinite : Option TxtVal → Prop
  | some (.f32 bits) => floatExp binary32 bits.toNat = 255
  | some (.f64 bits) => floatExp binary64 bits.toNat = 2047
  | _ => False

/-- A char or string entry holds no `,`, no `*` and no line feed (R128, R388). -/
def delimiterFree : Option TxtVal → Prop
  | some (.chr c) => c ∉ ([0x2C, 0x2A, 0x0A] : Bytes)
  | some (.str str) => ∀ c ∈ str, c ∉ ([0x2C, 0x2A, 0x0A] : Bytes)
  | _ => True

/-- `texts` are what TXT.FMT returns for the entries of a record, column by column (R381). -/
def textsOf (s : State) (fs : List TxtField) (rec : List (Option TxtVal)) (texts : List Bytes) : Prop :=
  texts.length = fs.length ∧
    ∀ (k : Nat) (f : TxtField) (x : Option TxtVal), fs[k]? = some f → rec[k]? = some x →
      exec (.txtFmt f x) s = .next { s with results := .bytes (texts.getD k []) :: s.results }

/-! ### Well-formed descriptors, as the spec lists the checks -/

/-- The size of a primitive type by its tag (R110). -/
def tagSize (tag : Nat) : Nat := [1, 1, 1, 2, 2, 4, 4, 4, 8, 8, 8].getD tag 0

/-- The size of a binary field (R200). -/
def fieldBytes (f : BinField) : Nat := tagSize f.ptype * (if 0 < f.count then f.count else 1)

/-- A non-empty ASCII string (R201 (e)). -/
def NameOk (n : Bytes) : Prop := n ≠ [] ∧ ∀ c ∈ n, c.toNat < 128

/-- The checks (a) to (e) of R201, in order. -/
def BinMsgOk (m : BinMsg) : Prop :=
  (∀ f ∈ m.fields, f.ptype ≤ 10) ∧ m.fields ≠ []
    ∧ (1 ≤ (m.fields.map fieldBytes).sum ∧ (m.fields.map fieldBytes).sum ≤ 255)
    ∧ (m.fields.map (fun f => tagSize f.ptype)).Pairwise (fun x y => y ≤ x)
    ∧ NameOk m.name ∧ ∀ f ∈ m.fields, NameOk f.fname

/-- The checks of R231: the delimiters are `,` `*` LF `$` `!`; the kinds hold by type. -/
def TxtMsgOk (c : Config) (m : TxtMsg) : Prop :=
  m.sid.length = 3 ∧ (∀ x ∈ m.sid, x ∉ ([0x2C, 0x2A, 0x0A, 0x24, 0x21] : Bytes))
    ∧ ∀ f ∈ m.fields, f.prec ≤ c.precMax ∧ f.width ≤ c.widthMax

/-! ### The tables and grammars of the spec, for statements -/

/-- The defined command codes (R101, R102). -/
def definedCodes : List Byte :=
  [0x00, 0x01, 0x02, 0x03, 0x04, 0x05, 0x10, 0x11, 0x12, 0x13, 0x14, 0x20, 0x21, 0x30, 0x31,
    0x40, 0x41, 0x50, 0x51, 0x60, 0x61, 0x70, 0x71]

/-- The hex digits HEX.ENC emits, by value (R127, R184). -/
def hexUpper : Bytes :=
  chars ['0', '1', '2', '3', '4', '5', '6', '7', '8', '9', 'A', 'B', 'C', 'D', 'E', 'F']

/-- The lowercase spelling of the hex digits, by value (R127, R185). -/
def hexLower : Bytes :=
  chars ['0', '1', '2', '3', '4', '5', '6', '7', '8', '9', 'a', 'b', 'c', 'd', 'e', 'f']

/-- `c` spells the hex digit of value `n` (R127, R185). -/
def spellsHex (c : Byte) (n : Nat) : Prop := hexUpper[n]? = some c ∨ hexLower[n]? = some c

/-- A decimal digit character (R241). -/
def isDigit (c : Byte) : Bool := decide (0x30 ≤ c.toNat ∧ c.toNat ≤ 0x39)

/-- The number a string of digit characters spells, most significant first. -/
def digitsValue (bs : Bytes) : Nat := bs.foldl (fun n c => 10 * n + (c.toNat - 0x30)) 0

/-- The grammar of an integer token (R241): `'-'? digit+`, the sign only where `signed`. -/
def isIntToken (signed : Bool) (bs : Bytes) : Bool :=
  if bs.head? = some 0x2D then signed && bs.tail != [] && bs.tail.all isDigit
  else bs != [] && bs.all isDigit

/-- The integer an integer token spells (R241). -/
def tokenInt (bs : Bytes) : Int :=
  if bs.head? = some 0x2D then -(digitsValue bs.tail : Int) else (digitsValue bs : Int)

/-- The magnitude of a finite pattern, as a rational (R230: IEEE 754). -/
def floatMagnitude (f : FloatFormat) (bits : Nat) : ℚ :=
  (floatMant f bits : ℚ) * (2 : ℚ) ^ floatPow f bits

/-- The least pattern that is not finite: the magnitude pattern of infinity. -/
def infPattern (f : FloatFormat) : Nat := (2 ^ f.ebits - 1) * 2 ^ f.mbits

/-- The least magnitude that rounds to a normal value, ties to even (R243): half a unit below the least
normal value. -/
def leastNormal (f : FloatFormat) : ℚ :=
  (1 - 1 / 2 ^ (f.mbits + 1)) * (2 : ℚ) ^ (1 - (floatBias f : Int))

/-- The least magnitude that rounds to infinity, ties to even (R243): half a unit above the greatest
finite value. -/
def leastInfinite (f : FloatFormat) : ℚ := (2 - 1 / 2 ^ (f.mbits + 1)) * (2 : ℚ) ^ floatBias f

/-- `e` is an optional exponent of a float token (R243), of value `pow`. -/
def expValue (e : Bytes) (pow : Int) : Prop :=
  (e = [] ∧ pow = 0) ∨
    ∃ (mark : Byte) (sign digits : Bytes), (mark = 0x65 ∨ mark = 0x45)
      ∧ (sign = [] ∨ sign = [0x2B] ∨ sign = [0x2D])
      ∧ digits ≠ [] ∧ digits.all isDigit = true ∧ e = mark :: sign ++ digits
      ∧ pow = if sign = [0x2D] then -(digitsValue digits : Int) else (digitsValue digits : Int)

/-- The decimal numeral of `n`, from core Lean's own digits (R232 Dec). -/
def numeral (n : Nat) : Bytes := chars (Nat.toDigits 10 n)

end Sys2Proof.Machine
end

