-- ==== Sys2Proof/Certificates/Slice0/Obligations.lean ====
section
/-! DEFINITION. The statements for the provers, in the order of the spec's files. Each says which rule
it formalises; where it rests on a choice of the model, it names the log entry. -/

open Sys2Proof Sys2Proof.Machine

/-! ### Commands (30_encoding.md, 20_memory.md) -/

/-- R101: code words of every unit, written out from the table, decode to their commands. -/
def Obligations.TableWordsDecode : Prop :=
  decode ⟨0b00000010, .byte 0x41⟩ = .ok (.crcAcc 0x41)
    ∧ decode ⟨0b00010100, .pair 0x34 0x37⟩ = .ok (.hexDec 0x34 0x37)
    ∧ decode ⟨0b00100001, .binBytes 5 0 [0x34, 0x12]⟩ = .ok (.binDec 5 0 [0x34, 0x12])
    ∧ decode ⟨0b00110001, .txtToken .uint8 (.run [0x38])⟩ = .ok (.txtParse .uint8 (.run [0x38]))
    ∧ decode ⟨0b01000001, .byte 0xFD⟩ = .ok (.fraPush 0xFD)
    ∧ decode ⟨0b01010001, .byte 0x24⟩ = .ok (.frbPush 0x24)
    ∧ decode ⟨0b01100000, .binRecord 3 [none] 1 2 7 (.own 0 280)⟩
        = .ok (.sera 3 [none] 1 2 7 (.own 0 280))
    ∧ decode ⟨0b01110000, .txtRecord 0 [0x48, 0x45] [none] (.own 0 64)⟩
        = .ok (.serb 0 [0x48, 0x45] [none] (.own 0 64))

/-- R100, R101: encoding then decoding gives the command back, and a command that decodes is the
encoding of what it decodes to, so that no bit of a code is dropped. -/
def Obligations.DecodeAndEncodeAgree : Prop :=
  (∀ i : Instr, decode (encode i) = .ok i) ∧
    (∀ (c : Command) (i : Instr), decode c = .ok i → encode i = c)

/-- R102: every code outside the table is refused as IllegalCommand, whatever its operand record. -/
def Obligations.ReservedCodesAreRefused : Prop :=
  ∀ (c : Command) (s : State), c.code ∉ definedCodes →
    perform (.command c) s = .refused (.illegalCommand c.code)

/-- R82, R100: a step takes the oldest host action; if it is a command that decodes to `i`, the step
is `exec i` on the state without it. An empty queue leaves the state unchanged (R436). The queue is the
model's own (log 1). -/
def Obligations.StepRunsTheDecodedCommand : Prop :=
  ∀ s : State,
    (∀ (c : Command) (rest : List HostAction) (i : Instr), s.pending = .command c :: rest →
      decode c = .ok i → step s = exec i { s with pending := rest }) ∧
    (s.pending = [] → step s = .next s)

/-- R30, R38: a command that answers a next state adds exactly one result and leaves the
configuration, CRCX, the block's number and the queue alone. -/
def Obligations.EachCommandReturnsOneResult : Prop :=
  ∀ (i : Instr) (s t : State), exec i s = .next t →
    (∃ r, t.results = r :: s.results) ∧ t.cfg = s.cfg ∧ t.crcx = s.crcx ∧ t.inst = s.inst
      ∧ t.pending = s.pending

/-! ### CRC-16 and CRC_EXTRA (40_crc16.md) -/

/-- R151 to R155: each CRC command completes in every state, writes `CRC`, returns the new value, and
changes nothing else. That CRC.ACCSTR also folds a string with bytes outside ASCII is the model's choice
(log 18). -/
def Obligations.CrcCommandsWriteAndReturnCrc : Prop :=
  ∀ (s : State) (v : Half) (b : Byte) (run : Bytes),
    exec .crcInit s = .next { s with crc := 0xFFFF, results := .half 0xFFFF :: s.results }
    ∧ exec (.crcLoad v) s = .next { s with crc := v, results := .half v :: s.results }
    ∧ exec (.crcAcc b) s
        = .next { s with crc := crcStep b s.crc, results := .half (crcStep b s.crc) :: s.results }
    ∧ exec (.crcAccBuf run) s
        = .next { s with crc := crcFold run s.crc, results := .half (crcFold run s.crc) :: s.results }
    ∧ exec (.crcAccStr run) s
        = .next { s with crc := crcFold run s.crc, results := .half (crcFold run s.crc) :: s.results }

/-- R158: the byte-wise step equals eight shifts through 0x8408, on every byte and every state. -/
def Obligations.CrcStepIsTheBitSerialForm : Prop :=
  ∀ (b : Byte) (crc : Half),
    crcStep b crc =
      (List.range 8).foldl
        (fun (c : Half) _ => (c >>> 1) ^^^ (if c.getLsbD 0 then (0x8408 : Half) else 0))
        (crc ^^^ b.setWidth 16)

/-- R156, R157: on an elaborated block CRC.EXTRA returns CrcExtra of its descriptor and changes nothing
else; a descriptor index out of range faults. -/
def Obligations.CrcExtraReturnsTheConstant : Prop :=
  ∀ (s : State) (d : Nat), Elaborated s →
    (∀ m, s.cfg.binMsgs[d]? = some m →
      exec (.crcExtra d) s
        = .next { s with results := .byte (crcExtra s.cfg.arrayLenInCrcExtra m) :: s.results }) ∧
    (s.cfg.binMsgs.length ≤ d → exec (.crcExtra d) s = .fault .badDescriptor)

/-- R156, D4: CRC_EXTRA is one fold over the name, a space, and for each field in wire order its type
name, a space, its name and a space, followed, where the array-length parameter is true and the field is
an array, by one byte, the element count mod 256; the two bytes of the result are XORed. -/
def Obligations.CrcExtraFoldsNameAndFields : Prop :=
  ∀ (arrayLen : Bool) (m : BinMsg),
    let lengthByte := fun f : BinField =>
      if arrayLen = true ∧ 0 < f.count then [BitVec.ofNat 8 (f.count % 256)] else []
    let text := m.name ++ [0x20] ++ (m.fields.map (fun f =>
      typeName f.ptype ++ [0x20] ++ f.fname ++ [0x20] ++ lengthByte f)).flatten
    crcExtra arrayLen m
      = (crcFold text 0xFFFF).extractLsb' 0 8 ^^^ (crcFold text 0xFFFF).extractLsb' 8 8

/-! ### XOR checksum and hex (41_xor_checksum.md) -/

/-- R181, R182, R183: XOR.INIT and XOR.ACC write XSUM and return it; XOR.RUN returns the XOR of its
run's bytes and writes no register. -/
def Obligations.XorCommandsFold : Prop :=
  ∀ (s : State) (b : Byte) (run : Bytes),
    exec .xorInit s = .next { s with xsum := 0x00, results := .byte 0x00 :: s.results }
    ∧ exec (.xorAcc b) s
        = .next { s with xsum := s.xsum ^^^ b, results := .byte (s.xsum ^^^ b) :: s.results }
    ∧ exec (.xorRun run) s
        = .next { s with results := .byte (run.foldl (fun x c => x ^^^ c) 0x00) :: s.results }

/-- R184, R185: HEX.ENC returns the uppercase digit of the high nibble, then that of the low one.
HEX.DEC returns the byte two hex digits of either case spell, high nibble first; if either character
spells no digit it reports InvalidChecksumChar. Neither writes anything else. -/
def Obligations.HexPairCodec : Prop :=
  ∀ (s : State) (v c0 c1 : Byte),
    (∃ h l, hexUpper[v.toNat / 16]? = some h ∧ hexUpper[v.toNat % 16]? = some l
      ∧ exec (.hexEnc v) s = .next { s with results := .bytes [h, l] :: s.results }) ∧
    (∀ h l : Nat, spellsHex c0 h → spellsHex c1 l →
      exec (.hexDec c0 c1) s
        = .next { s with results := .byte (BitVec.ofNat 8 (16 * h + l)) :: s.results }) ∧
    ((¬ ∃ h l : Nat, spellsHex c0 h ∧ spellsHex c1 l) →
      exec (.hexDec c0 c1) s
        = .next { s with results := .error .invalidChecksumChar :: s.results })

/-! ### Binary field codec (42_binary_field_codec.md) -/

/-- R205: for every field type and every value of it, BIN.ENC completes with an image of the field's
size, and BIN.DEC of that image gives the value back. -/
def Obligations.BinaryFieldRoundTrip : Prop :=
  ∀ (s : State) (tag count : Nat) (p : PrimType) (x : BinVal),
    primOfTag tag = some p → valFits p count x = true →
    ∃ bs : Bytes, bs.length = primSize p * (if count = 0 then 1 else count)
      ∧ exec (.binEnc tag count x) s = .next { s with results := .bytes bs :: s.results }
      ∧ exec (.binDec tag count bs) s = .next { s with results := .binVal x :: s.results }

/-- R202, R203, R425: byte `i` of a scalar's image is bits 8i+7..8i of the two's-complement pattern of
its width; an array's image is the images of its elements in order. A value outside the field's type is
refused. A type tag outside 0..10 faults in both commands (R425's class; log 10). -/
def Obligations.BinEncIsLittleEndian : Prop :=
  (∀ (s : State) (tag count : Nat) (x : BinVal) (bs : Bytes), 10 < tag →
    exec (.binEnc tag count x) s = .fault .badDescriptor
      ∧ exec (.binDec tag count bs) s = .fault .badDescriptor) ∧
  ∀ (s : State) (tag : Nat) (p : PrimType), primOfTag tag = some p →
    let bits := fun v : Int => (v % (2 : Int) ^ (8 * primSize p)).toNat
    let img := fun v : Int =>
      (List.range (primSize p)).map (fun i => BitVec.ofNat 8 (bits v / 256 ^ i))
    (∀ v : Int, valFits p 0 (.scalar v) = true →
      exec (.binEnc tag 0 (.scalar v)) s = .next { s with results := .bytes (img v) :: s.results }) ∧
    (∀ (count : Nat) (vs : List Int), valFits p count (.array vs) = true →
      exec (.binEnc tag count (.array vs)) s
        = .next { s with results := .bytes (vs.map img).flatten :: s.results }) ∧
    (∀ (count : Nat) (x : BinVal), valFits p count x = false →
      exec (.binEnc tag count x) s = .refused .badOperand)

/-- R204, R77: BIN.DEC of any byte string completes, and gives the value of the field-sized buffer whose
byte `i` is the string's byte `i`, or zero where the string is shorter; a scalar is the little-endian
number of that buffer, less 2 to the width when the type is signed and the number is that high. -/
def Obligations.BinDecZeroFills : Prop :=
  ∀ (s : State) (tag count : Nat) (p : PrimType) (bs : Bytes), primOfTag tag = some p →
    let size := primSize p * (if count = 0 then 1 else count)
    let buf := (List.range size).map (fun i => bs.getD i 0x00)
    let num := fun off : Nat =>
      ((List.range (primSize p)).map (fun i => (buf.getD (off + i) 0x00).toNat * 256 ^ i)).sum
    let val := fun off : Nat =>
      if primSigned p = true ∧ 2 ^ (8 * primSize p - 1) ≤ num off
      then (num off : Int) - (2 : Int) ^ (8 * primSize p) else (num off : Int)
    exec (.binDec tag count bs) s
      = .next { s with results := .binVal (if count = 0 then .scalar (val 0)
          else .array ((List.range count).map (fun j => val (j * primSize p)))) :: s.results }

/-! ### Text field codec (43_text_field_codec.md) -/

/-- R236: TXT.FMT of an integer completes with a `'-'` only for a negative value, then the decimal
numeral of the magnitude padded with zeros to the width, which the sign does not count in. -/
def Obligations.TxtFmtRendersIntegers : Prop :=
  ∀ (s : State) (fd : TxtField) (v : Int),
    fd.prec ≤ s.cfg.precMax → fd.width ≤ s.cfg.widthMax → kindAdmits fd.kind (.int v) = true →
    exec (.txtFmt fd (some (.int v))) s
      = .next { s with results := .bytes ((if v < 0 then [0x2D] else [])
          ++ List.replicate (fd.width - (numeral v.natAbs).length) 0x30
          ++ numeral v.natAbs) :: s.results }

/-- R234, R237, R238, R240, R242: absent renders as the empty string and the empty token parses as
absent; a char renders as itself and parses as a token's first byte; a string renders and parses as
itself. -/
def Obligations.AbsentCharAndStringText : Prop :=
  ∀ (s : State) (fd : TxtField) (k : TxtKind) (c : Byte) (str : Bytes),
    fd.prec ≤ s.cfg.precMax → fd.width ≤ s.cfg.widthMax →
    exec (.txtFmt fd none) s = .next { s with results := .bytes [] :: s.results }
    ∧ exec (.txtParse k (.run [])) s = .next { s with results := .txtVal none :: s.results }
    ∧ (fd.kind = .char →
        exec (.txtFmt fd (some (.chr c))) s = .next { s with results := .bytes [c] :: s.results })
    ∧ (fd.kind = .string →
        exec (.txtFmt fd (some (.str str))) s = .next { s with results := .bytes str :: s.results })
    ∧ exec (.txtParse .char (.run (c :: str))) s
        = .next { s with results := .txtVal (some (.chr c)) :: s.results }
    ∧ exec (.txtParse .string (.run (c :: str))) s
        = .next { s with results := .txtVal (some (.str (c :: str))) :: s.results }

/-- R232, R235: TXT.FMT of a finite float completes with the sign bit's sign, then the magnitude
rounded to `prec` fractional digits, padded to the width: the integer part's numeral and, unless `prec`
is 0, a point and exactly `prec` digits. The rounding is to the nearest multiple of 10 to the minus
`prec`, an exact tie going to the even one. A NaN or an infinity is refused. -/
def Obligations.TxtFmtRoundsFloats : Prop :=
  ∀ (s : State) (fd : TxtField) (f : FloatFormat) (bits : Nat) (x : TxtVal),
    fd.prec ≤ s.cfg.precMax → fd.width ≤ s.cfg.widthMax → kindAdmits fd.kind x = true →
    ((f = binary32 ∧ ∃ w : BitVec 32, x = .f32 w ∧ bits = w.toNat) ∨
      (f = binary64 ∧ ∃ w : BitVec 64, x = .f64 w ∧ bits = w.toNat)) →
    (floatExp f bits ≠ 2 ^ f.ebits - 1 →
      ∃ (n : Nat) (frac : Bytes),
        let scaled : ℚ := floatMagnitude f bits * 10 ^ fd.prec
        let sign : Bytes := if bits.testBit (f.mbits + f.ebits) then [0x2D] else []
        let point : Bytes := if fd.prec = 0 then [] else [0x2E]
        let text : Bytes := numeral (n / 10 ^ fd.prec) ++ point ++ frac
        let zeros : Bytes := List.replicate (fd.width - text.length) 0x30
        |(n : ℚ) - scaled| ≤ 1 / 2 ∧ (|(n : ℚ) - scaled| = 1 / 2 → n % 2 = 0)
          ∧ frac.length = fd.prec ∧ frac.all isDigit = true ∧ digitsValue frac = n % 10 ^ fd.prec
          ∧ exec (.txtFmt fd (some x)) s
              = .next { s with results := .bytes (sign ++ zeros ++ text) :: s.results }) ∧
    (floatExp f bits = 2 ^ f.ebits - 1 → exec (.txtFmt fd (some x)) s = .refused .nonFiniteFormat)

/-- R241: TXT.PARSE of a non-empty token of an integer kind completes: with the integer a token of the
grammar spells if it is in the kind's range, otherwise with ParseError. -/
def Obligations.TxtParseReadsIntegers : Prop :=
  ∀ (s : State) (k : TxtKind) (lo hi : Int) (bs : Bytes),
    kindRange k = some (lo, hi) → bs ≠ [] →
    exec (.txtParse k (.run bs)) s = .next { s with results :=
      (if isIntToken (decide (lo < 0)) bs = true ∧ lo ≤ tokenInt bs ∧ tokenInt bs ≤ hi
       then .txtVal (some (.int (tokenInt bs))) else .error .parseError) :: s.results }

/-- R245: parsing the rendering of an integer gives the integer back, at every width. -/
def Obligations.IntegerTextRoundTrip : Prop :=
  ∀ (s : State) (fd : TxtField) (v : Int),
    fd.prec ≤ s.cfg.precMax → fd.width ≤ s.cfg.widthMax → kindAdmits fd.kind (.int v) = true →
    ∃ bs : Bytes,
      exec (.txtFmt fd (some (.int v))) s = .next { s with results := .bytes bs :: s.results }
      ∧ exec (.txtParse fd.kind (.run bs)) s
          = .next { s with results := .txtVal (some (.int v)) :: s.results }

/-- R243: a float token whose number is neither zero, nor rounds below the least normal value, nor to
infinity, parses to a finite value that carries the token's sign and is as near to the token's decimal
number as any finite value of the format; a tie goes to the even pattern. -/
def Obligations.FloatParseIsNearest : Prop :=
  ∀ (f : FloatFormat) (k : TxtKind) (wrap : Nat → TxtVal) (s : State) (bs : Bytes) (d : Decimal),
    ((f = binary32 ∧ k = .float32 ∧ wrap = fun n => .f32 (BitVec.ofNat 32 n)) ∨
      (f = binary64 ∧ k = .float64 ∧ wrap = fun n => .f64 (BitVec.ofNat 64 n))) →
    parseDecimal bs = some d →
    let q : ℚ := (d.digits : ℚ) * (10 : ℚ) ^ d.pow
    leastNormal f ≤ q → q < leastInfinite f →
    ∃ mag : Nat, 2 ^ f.mbits ≤ mag ∧ mag < infPattern f
      ∧ (let x := wrap ((if d.neg then 2 ^ (f.mbits + f.ebits) else 0) + mag)
         exec (.txtParse k (.run bs)) s = .next { s with results := .txtVal (some x) :: s.results })
      ∧ ∀ other : Nat, other < infPattern f →
          |floatMagnitude f mag - q| ≤ |floatMagnitude f other - q|
          ∧ (|floatMagnitude f mag - q| = |floatMagnitude f other - q| → other ≠ mag → mag % 2 = 0)

/-- R243: what the other float tokens give. Outside the grammar: ParseError, but for the three words,
which are refused. A zero: the signed zero. A number that rounds to a subnormal value or to zero is
refused. A number that rounds to infinity: ParseError. That a word with a sign, such as "-inf", is outside
the grammar and none of the words is the model's choice (log 19). -/
def Obligations.FloatParseOutcomes : Prop :=
  ∀ (f : FloatFormat) (k : TxtKind) (wrap : Nat → TxtVal) (s : State) (bs : Bytes),
    ((f = binary32 ∧ k = .float32 ∧ wrap = fun n => .f32 (BitVec.ofNat 32 n)) ∨
      (f = binary64 ∧ k = .float64 ∧ wrap = fun n => .f64 (BitVec.ofNat 64 n))) →
    bs ≠ [] →
    let failed := Host.Outcome.next (φ := Fault) (ρ := Refusal)
      { s with results := .error .parseError :: s.results }
    (parseDecimal bs = none → isFloatWord bs = true →
      exec (.txtParse k (.run bs)) s = .refused .unmodelledParse) ∧
    (parseDecimal bs = none → isFloatWord bs = false → exec (.txtParse k (.run bs)) s = failed) ∧
    (∀ d, parseDecimal bs = some d →
      let q : ℚ := (d.digits : ℚ) * (10 : ℚ) ^ d.pow
      let zero := wrap (if d.neg then 2 ^ (f.mbits + f.ebits) else 0)
      (d.digits = 0 → exec (.txtParse k (.run bs)) s
        = .next { s with results := .txtVal (some zero) :: s.results }) ∧
      (d.digits ≠ 0 → q < leastNormal f →
        exec (.txtParse k (.run bs)) s = .refused .unmodelledParse) ∧
      (leastInfinite f ≤ q → exec (.txtParse k (.run bs)) s = failed))

/-- R243: the float grammar over the whole token: an optional `-`, then digits with at most one point
and at least one digit, then an optional exponent of digits after `e` or `E` and an optional sign; the
number is the digits' value scaled by the exponent less the number of digits after the point. -/
def Obligations.FloatGrammar : Prop :=
  ∀ (bs : Bytes) (d : Decimal), parseDecimal bs = some d ↔
    ∃ (whole frac : Bytes) (point : Bool) (e : Bytes) (pow : Int),
      whole.all isDigit = true ∧ frac.all isDigit = true ∧ (point = false → frac = [])
      ∧ whole ++ frac ≠ [] ∧ expValue e pow
      ∧ bs = (if d.neg then [0x2D] else []) ++ whole ++ (if point then [0x2E] else []) ++ frac ++ e
      ∧ d.digits = digitsValue (whole ++ frac) ∧ d.pow = pow - frac.length

/-- R244, R386: parsing a token BINDB stored is parsing its bytes while its view is live, and faults
StaleView under another generation or in another life of the block; EMPTY_TOKEN never goes stale and
parses as absent. The two forms of the token operand are the model's choice (log 13). -/
def Obligations.HeldTokensParseWhileLive : Prop :=
  ∀ (s : State) (k : TxtKind) (sl : Slice) (g : Nat) (o : BlockId),
    exec (.txtParse k (.held .empty)) s = .next { s with results := .txtVal none :: s.results }
    ∧ (g ≠ s.b.gen ∨ o ≠ s.inst → exec (.txtParse k (.held (.slice sl g o))) s = .fault .staleView)
    ∧ (∀ v, Result.viewB v ∈ s.results → v.gen = s.b.gen → v.origin = s.inst → g = s.b.gen →
        o = s.inst → sl ∈ v.fields → sl.off + sl.len ≤ s.cfg.bufCapB →
        exec (.txtParse k (.held (.slice sl g o))) s
          = exec (.txtParse k (.run (s.wbbRun sl))) s)

/-! ### Framer-A (44_binary_framer.md) -/

/-- R270, R310: FRA.RESET and FRB.RESET complete in every state: the framer scans from an empty buffer,
whose contents are unspecified (R71, R72; `Buffer.forget`, log 8), under a new generation; nothing outside
its registers and its buffer changes but the model's free-value counter (log 6). -/
def Obligations.FramerResetsScanAgain : Prop :=
  ∀ s : State,
    (∃ (a : FramerA) (n : Nat),
      exec .fraReset s
        = .next { s with a := a, wba := s.wba.forget, draws := n, results := .done :: s.results }
      ∧ a.state = .seekSync ∧ a.wr = 0 ∧ a.gen = s.a.gen + 1) ∧
    (∃ (b : FramerB) (n : Nat),
      exec .frbReset s
        = .next { s with b := b, wbb := s.wbb.forget, draws := n, results := .done :: s.results }
      ∧ b.state = .seekStart ∧ b.wr = 0 ∧ b.gen = s.b.gen + 1)

/-- R273: in SeekSync a byte that is no marker is dropped; a marker is recorded, stored as byte 0 and
starts a frame, all of WBA above it being unspecified (R71; `Buffer.forget`, log 8). With no buffer at all
the marker overruns (R280). -/
def Obligations.FraPushScansForAMarker : Prop :=
  ∀ (b : Byte) (s : State), s.a.state = .seekSync →
    (b ≠ 0xFD → b ≠ 0xFE →
      exec (.fraPush b) s
        = .next { s with a := { s.a with gen := s.a.gen + 1 }, results := .noMessage :: s.results }) ∧
    (b = 0xFD ∨ b = 0xFE → 0 < s.cfg.bufCapA →
      exec (.fraPush b) s = .next { s with
        a := { s.a with gen := s.a.gen + 1, ver := if b = 0xFD then .v2 else .v1, wr := 1,
                        state := .readLength },
        wba := s.wba.forget.write 0 b, results := .noMessage :: s.results }) ∧
    (b = 0xFD ∨ b = 0xFE → s.cfg.bufCapA = 0 →
      exec (.fraPush b) s = .next { s with
        a := { s.a with gen := s.a.gen + 1, ver := if b = 0xFD then .v2 else .v1, wr := 0, idx := 0 },
        wba := s.wba.forget.forget, results := .error .bufferOverrun :: s.results })

/-- R274, R275: the length byte and the two flag bytes of a v2 frame, each stored in WBA and in its
register. -/
def Obligations.FraPushReadsLengthAndFlags : Prop :=
  ∀ (b : Byte) (s : State), s.a.wr < s.cfg.bufCapA →
    (s.a.state = .readLength →
      exec (.fraPush b) s = .next { s with
        a := { s.a with gen := s.a.gen + 1, wr := s.a.wr + 1, n := b, incompat := 0, compat := 0,
                        idx := 0,
                        state := if s.a.ver = .v2 then .readV2Flags else .readCoreHeader },
        wba := s.wba.write s.a.wr b, results := .noMessage :: s.results }) ∧
    (s.a.state = .readV2Flags →
      exec (.fraPush b) s = .next { s with
        a := if s.a.idx = 0 then
            { s.a with gen := s.a.gen + 1, wr := s.a.wr + 1, incompat := b, idx := 1 }
          else
            { s.a with gen := s.a.gen + 1, wr := s.a.wr + 1, compat := b, idx := 0,
                       state := .readCoreHeader },
        wba := s.wba.write s.a.wr b, results := .noMessage :: s.results })

/-- R276: the core header bytes in order: sequence, system, component, then the message id, low byte
first; after byte 4 (v1) or 6 (v2) the payload starts, or the checksum when N is 0. -/
def Obligations.FraPushReadsTheCoreHeader : Prop :=
  ∀ (b : Byte) (s : State), s.a.wr < s.cfg.bufCapA → s.a.state = .readCoreHeader →
    let last := s.a.idx + 1 = if s.a.ver = .v1 then 4 else 6
    let byte := fun i : Nat => s.a.msgid.extractLsb' (8 * i) 8
    exec (.fraPush b) s = .next { s with
      a := { s.a with
        gen := s.a.gen + 1, wr := s.a.wr + 1,
        seq := if s.a.idx = 0 then b else s.a.seq,
        sys := if s.a.idx = 1 then b else s.a.sys,
        comp := if s.a.idx = 2 then b else s.a.comp,
        msgid :=
          if s.a.idx = 3 then (0x0000 : BitVec 16) ++ b
          else if s.a.idx = 4 then byte 2 ++ b ++ byte 0
          else if s.a.idx = 5 then b ++ byte 1 ++ byte 0
          else s.a.msgid,
        poff := if last then s.a.wr + 1 else s.a.poff,
        idx := if last then 0 else s.a.idx + 1,
        state := if last then (if 0 < s.a.n.toNat then .readPayload else .readChecksum)
          else .readCoreHeader },
      wba := s.wba.write s.a.wr b, results := .noMessage :: s.results }

/-- R277: exactly N payload bytes are stored, markers among them as data. -/
def Obligations.FraPushReadsThePayload : Prop :=
  ∀ (b : Byte) (s : State), s.a.wr < s.cfg.bufCapA → s.a.state = .readPayload →
    exec (.fraPush b) s = .next { s with
      a := { s.a with
        gen := s.a.gen + 1, wr := s.a.wr + 1,
        idx := if s.a.idx + 1 = s.a.n.toNat then 0 else s.a.idx + 1,
        state := if s.a.idx + 1 = s.a.n.toNat then .readChecksum else .readPayload },
      wba := s.wba.write s.a.wr b, results := .noMessage :: s.results }

/-- R278, R279, R283: the checksum is stored low byte first and not validated; a v2 frame whose
incompatibility bit 0 is set then reads 13 signature bytes; the last byte emits the view of the
registers and returns to SeekSync. The view's `origin` is the model's own field (log 12). -/
def Obligations.FraPushEndsTheFrame : Prop :=
  ∀ (b : Byte) (s : State), s.a.wr < s.cfg.bufCapA →
    let wba := s.wba.write s.a.wr b
    let a0 := { s.a with gen := s.a.gen + 1, wr := s.a.wr + 1 }
    let ck : Half := b ++ s.a.ck.extractLsb' 0 8
    let signed := s.a.ver = .v2 ∧ s.a.incompat.getLsbD 0 = true
    let view := fun ck : Half => Result.viewA
      { ver := s.a.ver, msgid := s.a.msgid, sys := s.a.sys, comp := s.a.comp, seq := s.a.seq,
        payload := ⟨s.a.poff, s.a.n.toNat⟩, checksum := ck, incompat := s.a.incompat,
        compat := s.a.compat,
        sig := if signed then ⟨s.a.poff + s.a.n.toNat + 2, 13⟩ else ⟨0, 0⟩, gen := s.a.gen + 1,
        origin := s.inst }
    (s.a.state = .readChecksum → s.a.idx = 0 →
      exec (.fraPush b) s = .next { s with
        a := { a0 with ck := (0x00 : Byte) ++ b, idx := 1 }, wba := wba,
        results := .noMessage :: s.results }) ∧
    (s.a.state = .readChecksum → s.a.idx ≠ 0 →
      exec (.fraPush b) s = .next { s with
        a := { a0 with ck := ck, idx := 0, state := if signed then .readSignature else .seekSync },
        wba := wba, results := (if signed then .noMessage else view ck) :: s.results }) ∧
    (s.a.state = .readSignature → s.a.idx + 1 ≠ 13 →
      exec (.fraPush b) s = .next { s with
        a := { a0 with idx := s.a.idx + 1 }, wba := wba,
        results := .noMessage :: s.results }) ∧
    (s.a.state = .readSignature → s.a.idx + 1 = 13 →
      exec (.fraPush b) s = .next { s with
        a := { a0 with idx := 0, state := .seekSync }, wba := wba,
        results := view s.a.ck :: s.results })

/-- R271, R420: in frame with the buffer full, the push reports BufferOverrun, stores nothing, and the
framer scans again; the byte is consumed, and WBA's bytes are unspecified from then on (`Buffer.forget`,
log 8). -/
def Obligations.FraPushOverrunsAFullBuffer : Prop :=
  ∀ (b : Byte) (s : State), s.a.state ≠ .seekSync → s.cfg.bufCapA ≤ s.a.wr →
    exec (.fraPush b) s = .next { s with
      a := { s.a with gen := s.a.gen + 1, state := .seekSync, idx := 0 },
      wba := s.wba.forget, results := .error .bufferOverrun :: s.results }

/-- R71, R272, R420, R441: a push of Framer-A completes in every state and changes only its registers,
the results and WBA. It stores at most the byte at the index `storedAtA` gives. Every other byte of WBA
stays as it was, unless the push starts a frame or reports an error: then all of WBA but the stored byte
is unspecified. That the bytes above the write index stay as they were within a frame is the model's
choice (log 8). -/
def Obligations.FraPushFrame : Prop :=
  ∀ (b : Byte) (s : State), ∃ (a : FramerA) (wba : Buffer) (r : Result),
    exec (.fraPush b) s = .next { s with a := a, wba := wba, results := r :: s.results }
      ∧ a.gen = s.a.gen + 1
      ∧ (∀ j, storedAtA b s = some j → wba.read? j = some b)
      ∧ (¬ startsFrame b s → (∀ e, r ≠ .error e) → ∀ i, storedAtA b s ≠ some i →
          State.wbaByte { s with a := a, wba := wba, results := r :: s.results } i = s.wbaByte i)
      ∧ (startsFrame b s ∨ (∃ e, r = .error e) →
          s.wba.epoch < wba.epoch ∧ ∀ i, storedAtA b s ≠ some i → wba.read? i = none)

/-- R123, R280, R283: pushing exactly one frame from SeekSync. If it fits the buffer, every push but
the last gives NONE and the last gives the live view of the frame's own bytes; if it does not, the push
of the byte at index BUF_CAP_A, and none before it, gives BufferOverrun. -/
def Obligations.AFrameGivesItsViewOrOverruns : Prop :=
  ∀ (f : Bytes) (s : State), isFrame f = true → s.a.state = .seekSync →
    let h := headerLength (frameVer f)
    let n := (f.getD 1 0).toNat
    (f.length ≤ s.cfg.bufCapA → ∃ t v,
      execAll (expandFeedA f) s = .next t
      ∧ t.results = .viewA v :: (List.replicate (f.length - 1) .noMessage ++ s.results)
      ∧ t.viewALive v = true ∧ t.a.state = .seekSync ∧ t.a.wr = f.length
      ∧ t.wbaRun ⟨0, f.length⟩ = f
      ∧ v.ver = frameVer f ∧ v.payload = ⟨h, n⟩ ∧ t.wbaRun v.payload = framePayload f
      ∧ v.checksum = f.getD (h + n + 1) 0 ++ f.getD (h + n) 0
      ∧ (frameVer f = .v2 → v.incompat = f.getD 2 0 ∧ v.compat = f.getD 3 0 ∧ v.seq = f.getD 4 0
          ∧ v.sys = f.getD 5 0 ∧ v.comp = f.getD 6 0
          ∧ v.msgid = f.getD 9 0 ++ f.getD 8 0 ++ f.getD 7 0)
      ∧ (frameVer f = .v1 → v.incompat = 0 ∧ v.compat = 0 ∧ v.seq = f.getD 2 0
          ∧ v.sys = f.getD 3 0 ∧ v.comp = f.getD 4 0 ∧ v.msgid = (f.getD 5 0).setWidth 24)
      ∧ t.wbaRun v.sig = f.drop (h + n + 2)) ∧
    (s.cfg.bufCapA < f.length → ∃ t,
      execAll (expandFeedA (f.take (s.cfg.bufCapA + 1))) s = .next t
      ∧ t.results = .error .bufferOverrun
          :: (List.replicate s.cfg.bufCapA .noMessage ++ s.results)
      ∧ t.a.state = .seekSync)

/-! ### Framer-B (45_text_framer.md) -/

/-- R312: in SeekStart every character but `$` and `!` is dropped; either starts a sentence with cleared
registers and is itself neither stored nor folded; all of WBB is then unspecified (R71, R72;
`Buffer.forget`, log 8). -/
def Obligations.FrbPushScansForAStart : Prop :=
  ∀ (c : Byte) (s : State), s.b.state = .seekStart →
    (c ≠ 0x24 → c ≠ 0x21 →
      exec (.frbPush c) s
        = .next { s with b := { s.b with gen := s.b.gen + 1 }, results := .noMessage :: s.results }) ∧
    (c = 0x24 ∨ c = 0x21 →
      exec (.frbPush c) s = .next { s with
        b := { s.b with gen := s.b.gen + 1, xor := 0x00, wr := 0, fstart := 0, hdr := false,
                        talker := [], sid := [], fcount := 0, state := .readFields },
        wbb := s.wbb.forget, results := .noMessage :: s.results })

/-- R311, R314, R317: in ReadFields a line feed aborts the sentence with ProtocolViolation; every
character but `*` and `,` is folded, and stored if the buffer has room, otherwise it overruns. After an
error WBB's bytes are unspecified (R420; `Buffer.forget`, log 8). -/
def Obligations.FrbPushReadsBodyCharacters : Prop :=
  ∀ (c : Byte) (s : State), s.b.state = .readFields →
    (c = 0x0A →
      exec (.frbPush c) s = .next { s with
        b := { s.b with gen := s.b.gen + 1, state := .seekStart },
        wbb := s.wbb.forget, results := .error .protocolViolation :: s.results }) ∧
    (c ≠ 0x0A → c ≠ 0x2A → c ≠ 0x2C → s.b.wr < s.cfg.bufCapB →
      exec (.frbPush c) s = .next { s with
        b := { s.b with gen := s.b.gen + 1, xor := s.b.xor ^^^ c, wr := s.b.wr + 1 },
        wbb := s.wbb.write s.b.wr c, results := .noMessage :: s.results }) ∧
    (c ≠ 0x0A → c ≠ 0x2A → c ≠ 0x2C → s.cfg.bufCapB ≤ s.b.wr →
      exec (.frbPush c) s = .next { s with
        b := { s.b with gen := s.b.gen + 1, xor := s.b.xor ^^^ c, state := .seekStart },
        wbb := s.wbb.forget, results := .error .bufferOverrun :: s.results })

/-- R315, R316, R318, R319: `*` and `,` close the field. Closing a short first field under the
`violation` policy ends the sentence with ProtocolViolation, before any overrun. Otherwise `*` goes on
to the checksum, and `,`, which is folded, is stored and starts a new field, or overruns. After an error
WBB's bytes are unspecified (R420; `Buffer.forget`, log 8). -/
def Obligations.FrbPushClosesFields : Prop :=
  ∀ s : State, s.b.state = .readFields →
    (shortHeaderStops s = true →
      exec (.frbPush 0x2A) s = .next { s with
        b := { s.b with gen := s.b.gen + 1, hdr := true, state := .seekStart },
        wbb := s.wbb.forget, results := .error .protocolViolation :: s.results }
      ∧ exec (.frbPush 0x2C) s = .next { s with
        b := { s.b with gen := s.b.gen + 1, xor := s.b.xor ^^^ 0x2C, hdr := true,
                        state := .seekStart },
        wbb := s.wbb.forget, results := .error .protocolViolation :: s.results }) ∧
    (shortHeaderStops s = false →
      exec (.frbPush 0x2A) s = .next { s with
        b := { closedB s with gen := s.b.gen + 1, idx := 0, state := .readChecksumHex },
        results := .noMessage :: s.results }
      ∧ (s.b.wr < s.cfg.bufCapB →
        exec (.frbPush 0x2C) s = .next { s with
          b := { closedB s with gen := s.b.gen + 1, xor := s.b.xor ^^^ 0x2C, wr := s.b.wr + 1,
                                fstart := s.b.wr + 1 },
          wbb := s.wbb.write s.b.wr 0x2C, results := .noMessage :: s.results })
      ∧ (s.cfg.bufCapB ≤ s.b.wr →
        exec (.frbPush 0x2C) s = .next { s with
          b := { closedB s with gen := s.b.gen + 1, xor := s.b.xor ^^^ 0x2C, state := .seekStart },
          wbb := s.wbb.forget, results := .error .bufferOverrun :: s.results }))

/-- R320, R321, R322: two characters of any kind are taken as the checksum; then `\r` and `\n` are
required, a deviation being a ProtocolViolation; the final `\n` validates: InvalidChecksumChar when
either character is no hex digit, ChecksumMismatch when the value is not the running XOR, otherwise the
view. Every one of these but the waiting steps returns to SeekStart; after an error WBB's bytes are
unspecified (R420; `Buffer.forget`, log 8), after a view they stay (R323). The view's `origin` is the
model's own field (log 12). -/
def Obligations.FrbPushValidatesTheSentence : Prop :=
  ∀ (c : Byte) (s : State),
    let b0 := { s.b with gen := s.b.gen + 1 }
    let fails := fun e : ErrorKind => Host.Outcome.next (φ := Fault) (ρ := Refusal)
      { s with b := { b0 with state := .seekStart }, wbb := s.wbb.forget,
               results := .error e :: s.results }
    (s.b.state = .readChecksumHex → s.b.idx = 0 →
      exec (.frbPush c) s = .next { s with
        b := { b0 with hex := (c, s.b.hex.2), idx := 1 }, results := .noMessage :: s.results }) ∧
    (s.b.state = .readChecksumHex → s.b.idx ≠ 0 →
      exec (.frbPush c) s = .next { s with
        b := { b0 with hex := (s.b.hex.1, c), idx := 0, state := .readCRLF },
        results := .noMessage :: s.results }) ∧
    (s.b.state = .readCRLF → s.b.idx = 0 → c = 0x0D →
      exec (.frbPush c) s = .next { s with
        b := { b0 with idx := 1 }, results := .noMessage :: s.results }) ∧
    (s.b.state = .readCRLF → s.b.idx = 0 → c ≠ 0x0D →
      exec (.frbPush c) s = fails .protocolViolation) ∧
    (s.b.state = .readCRLF → s.b.idx ≠ 0 → c ≠ 0x0A →
      exec (.frbPush c) s = fails .protocolViolation) ∧
    (s.b.state = .readCRLF → s.b.idx ≠ 0 → c = 0x0A →
      ((¬ ∃ h l : Nat, spellsHex s.b.hex.1 h ∧ spellsHex s.b.hex.2 l) →
        exec (.frbPush c) s = fails .invalidChecksumChar) ∧
      (∀ h l : Nat, spellsHex s.b.hex.1 h → spellsHex s.b.hex.2 l →
        (16 * h + l ≠ s.b.xor.toNat →
          exec (.frbPush c) s = fails .checksumMismatch) ∧
        (16 * h + l = s.b.xor.toNat →
          exec (.frbPush c) s = .next { s with
            b := { b0 with state := .seekStart },
            results := .viewB
              { talker := s.b.talker, sid := s.b.sid, fields := s.b.flist.take s.b.fcount,
                fieldCount := s.b.fcount, gen := s.b.gen + 1, origin := s.inst } :: s.results })))

/-- R72, R313, R420, R441: a push of Framer-B completes in every state and changes only its registers,
the results and WBB. It stores at most the character at the index `storedAtB` gives. Every other byte of
WBB stays as it was, unless the push starts a sentence or reports an error: then all of WBB is
unspecified. That the bytes above the write index stay as they were within a sentence is the model's
choice (log 8). -/
def Obligations.FrbPushFrame : Prop :=
  ∀ (c : Byte) (s : State), ∃ (b : FramerB) (wbb : Buffer) (r : Result),
    exec (.frbPush c) s = .next { s with b := b, wbb := wbb, results := r :: s.results }
      ∧ b.gen = s.b.gen + 1
      ∧ (∀ j, storedAtB c s = some j → wbb.read? j = some c)
      ∧ (¬ startsSentence c s → (∀ e, r ≠ .error e) → ∀ i, storedAtB c s ≠ some i →
          State.wbbByte { s with b := b, wbb := wbb, results := r :: s.results } i = s.wbbByte i)
      ∧ (startsSentence c s ∨ (∃ e, r = .error e) →
          s.wbb.epoch < wbb.epoch ∧ ∀ i, wbb.read? i = none)

/-- R324, R325: pushing a start character and a body (no `*`, no line feed) whose first field is not
short. If the body fits the buffer every push gives NONE, the buffer holds the body and the running XOR
is the body's; if it does not, the push of the body character at index BUF_CAP_B gives BufferOverrun. -/
def Obligations.ABodyIsStoredOrOverruns : Prop :=
  ∀ (start : Byte) (body : Bytes) (s : State), s.b.state = .seekStart →
    start = 0x24 ∨ start = 0x21 → (∀ c ∈ body, c ≠ 0x2A ∧ c ≠ 0x0A) →
    s.cfg.shortHeader = .emptyIds ∨ 5 ≤ (body.takeWhile (fun c => c != 0x2C)).length →
    (body.length ≤ s.cfg.bufCapB → ∃ t,
      execAll (expandFeedB (start :: body)) s = .next t
      ∧ t.results = List.replicate (body.length + 1) .noMessage ++ s.results
      ∧ t.b.state = .readFields ∧ t.b.wr = body.length
      ∧ t.wbbRun ⟨0, body.length⟩ = body ∧ t.b.xor = body.foldl (fun x c => x ^^^ c) 0x00) ∧
    (s.cfg.bufCapB < body.length → ∃ t,
      execAll (expandFeedB (start :: body.take (s.cfg.bufCapB + 1))) s = .next t
      ∧ t.results = .error .bufferOverrun
          :: (List.replicate (s.cfg.bufCapB + 1) .noMessage ++ s.results)
      ∧ t.b.state = .seekStart)

/-! ### Binary serdes (46_binary_serdes.md) -/

/-- R352: the trim removes only trailing zero bytes, keeps at least one byte, and leaves no trailing
zero byte after the first. -/
def Obligations.TrimKeepsTheFirstByte : Prop :=
  ∀ p : Bytes, p ≠ [] → ∃ k : Nat,
    p = trimPayload p ++ List.replicate k 0x00 ∧ trimPayload p ≠ []
      ∧ ((trimPayload p).length = 1 ∨ (trimPayload p).getLast? ≠ some 0x00)

/-- R351, R353, R354: on an elaborated block, SERA of a matching record into a buffer of at least 280
bytes completes, returns 12 plus the trimmed payload's length, between 13 and 267, and leaves in the
buffer the header, the trimmed payload and the CRC, low byte first; no other OUT byte changes. That an
OUT buffer has a base address in one space of host bytes is the model's choice (log 14). -/
def Obligations.SeraWritesTheFrame : Prop :=
  ∀ (s : State) (d : Nat) (m : BinMsg) (rec : List (Option BinVal)) (sys comp seq : Byte)
    (base len : Nat), Elaborated s → s.cfg.binMsgs[d]? = some m →
    binRecordFits m.fields rec = true → 280 ≤ len →
    let p := trimPayload (payloadImage m.fields rec)
    let n := p.length
    let hdr : Bytes := [BitVec.ofNat 8 n, 0x00, 0x00, seq, sys, comp,
      m.msgid.extractLsb' 0 8, m.msgid.extractLsb' 8 8, m.msgid.extractLsb' 16 8]
    let crc := crcStep (crcExtra s.cfg.arrayLenInCrcExtra m) (crcFold (hdr ++ p) 0xFFFF)
    ∃ out : Memory,
      exec (.sera d rec sys comp seq (.own base len)) s
        = .next { s with out := out, results := .count (12 + n) :: s.results }
      ∧ 13 ≤ 12 + n ∧ 12 + n ≤ 267
      ∧ State.outRun { s with out := out } base (12 + n)
          = [0xFD] ++ hdr ++ p ++ [crc.extractLsb' 0 8, crc.extractLsb' 8 8]
      ∧ ∀ i, ¬ (base ≤ i ∧ i < base + (12 + n)) → State.outByte { s with out := out } i = s.outByte i

/-- R203, R206, R350: the payload image of a matching record is the entries' images in order, each of its
field's size; the image of an absent entry is that many zero bytes, and the image of a present one is the
byte string BIN.ENC returns for the field's type and that value. -/
def Obligations.PayloadImageHasThePayloadSize : Prop :=
  (∀ (m : BinMsg) (rec : List (Option BinVal)), binRecordFits m.fields rec = true →
    payloadImage m.fields rec = (List.zipWith entryImage m.fields rec).flatten
      ∧ (payloadImage m.fields rec).length = (m.fields.map fieldBytes).sum
      ∧ (List.zipWith entryImage m.fields rec).map List.length = m.fields.map fieldBytes) ∧
  (∀ f : BinField, entryImage f none = List.replicate (fieldBytes f) 0x00) ∧
  (∀ (s : State) (f : BinField) (x : BinVal), binEntryFits f (some x) = true →
    exec (.binEnc f.ptype f.count x) s
      = .next { s with results := .bytes (entryImage f (some x)) :: s.results })

/-- R351, R417, R464, R73: SERA stops on a descriptor index out of range, then on a record that does
not match; then a buffer shorter than 280 bytes is BufferOverrun, and only bytes of that buffer may have
changed. The base address of the buffer is the model's (log 14). -/
def Obligations.SeraFailsInOrder : Prop :=
  ∀ (s : State) (d : Nat) (rec : List (Option BinVal)) (sys comp seq : Byte) (base len : Nat),
    (s.cfg.binMsgs.length ≤ d →
      exec (.sera d rec sys comp seq (.own base len)) s = .fault .badDescriptor) ∧
    (∀ m, s.cfg.binMsgs[d]? = some m → binRecordFits m.fields rec = false →
      exec (.sera d rec sys comp seq (.own base len)) s = .refused .badOperand) ∧
    (∀ m, s.cfg.binMsgs[d]? = some m → binRecordFits m.fields rec = true → len < 280 →
      ∃ (out : Memory) (n : Nat),
        exec (.sera d rec sys comp seq (.own base len)) s
          = .next { s with out := out, draws := n, results := .error .bufferOverrun :: s.results }
        ∧ ∀ i, ¬ (base ≤ i ∧ i < base + len) →
            State.outByte { s with out := out } i = s.outByte i)

/-- R355, R356, R357, R417: DESERA faults on a descriptor index out of range, and then on a view of
another generation or of another life of the block (log 12). Of a live view it completes: with ParseError
when the message id differs, otherwise with one entry a field, byte `j` of entry `k` being the payload's
byte at the field's offset plus `j`, or zero beyond the payload. It writes no register. -/
def Obligations.DeseraCopiesTheFields : Prop :=
  ∀ (s : State) (d : Nat) (v : BinView),
    (s.cfg.binMsgs.length ≤ d → exec (.desera d v) s = .fault .badDescriptor) ∧
    (d < s.cfg.binMsgs.length → v.gen ≠ s.a.gen ∨ v.origin ≠ s.inst →
      exec (.desera d v) s = .fault .staleView) ∧
    (∀ m, s.cfg.binMsgs[d]? = some m → Result.viewA v ∈ s.results → v.gen = s.a.gen →
      v.origin = s.inst → v.payload.off + v.payload.len ≤ s.cfg.bufCapA →
      let sizes := m.fields.map fieldSize
      let entry := fun k : Nat => (List.range (sizes.getD k 0)).map (fun j =>
        (s.wbaRun v.payload).getD ((sizes.take k).sum + j) 0x00)
      exec (.desera d v) s = .next { s with results :=
        (if v.msgid = m.msgid then .lazyBin ((List.range m.fields.length).map entry)
          else .error .parseError) :: s.results })

/-- R358, R359: the frame SERA writes, pushed through Framer-A when it fits the buffer, gives a view
that DESERA turns back into the image of each entry of the record, an absent entry being zero bytes;
and the caller's CRC check of that view succeeds. Of any live view the check computes the frame CRC of
the header bytes after the marker (9 for v2, 5 for v1) and the payload, under the descriptor's CRC_EXTRA,
and answers whether it equals the view's checksum. When such a view is live is read as in log 12. -/
def Obligations.BinaryMessageRoundTrip : Prop :=
  (∀ (s : State) (d : Nat) (m : BinMsg) (rec : List (Option BinVal)) (sys comp seq : Byte)
    (base len : Nat), Elaborated s → s.cfg.binMsgs[d]? = some m →
    binRecordFits m.fields rec = true → 280 ≤ len → s.a.state = .seekSync →
    12 + (trimPayload (payloadImage m.fields rec)).length ≤ s.cfg.bufCapA →
    ∃ (t u w : State) (n : Nat) (v : BinView),
      exec (.sera d rec sys comp seq (.own base len)) s = .next t
      ∧ t.results = .count n :: s.results
      ∧ execAll (expandFeedA (t.outRun base n)) t = .next u
      ∧ u.results = .viewA v :: (List.replicate (n - 1) .noMessage ++ t.results)
      ∧ v.msgid = m.msgid ∧ v.sys = sys ∧ v.comp = comp ∧ v.seq = seq
      ∧ exec (.desera d v) u = .next w
      ∧ w.results = .lazyBin (List.zipWith entryImage m.fields rec) :: u.results
      ∧ ∃ u', checkA v d u = .next (u', true)) ∧
  (∀ (s : State) (d : Nat) (m : BinMsg) (v : BinView), Elaborated s → s.cfg.binMsgs[d]? = some m →
    Result.viewA v ∈ s.results → v.gen = s.a.gen → v.origin = s.inst →
    v.payload.off + v.payload.len ≤ s.cfg.bufCapA →
    let covered := (List.range (if v.ver = .v2 then 9 else 5)).map (fun i => s.wbaByte (1 + i))
      ++ s.wbaRun v.payload
    let crc := crcStep (crcExtra s.cfg.arrayLenInCrcExtra m) (crcFold covered 0xFFFF)
    (crc = v.checksum → ∃ t, checkA v d s = .next (t, true) ∧ t.crc = crc) ∧
    (crc ≠ v.checksum → ∃ t, checkA v d s = .next (t, false) ∧ t.crc = crc))

/-! ### Text serdes (47_text_serdes.md) -/

/-- R380, R381, R383: SERB faults on a descriptor index out of range, refuses a talker that is not two
legal bytes or a record that does not match, and then refuses NonFiniteFormat when an entry is a NaN or
an infinity. Otherwise it completes: the sentence is `$`, the body (talker, sentence id, a comma, and the
fields' texts separated by commas, text `k` being what TXT.FMT returns for entry `k`), `*`, the two
uppercase hex digits of the body's XOR, and CR LF; the first L bytes of it are written and their number
returned; no other OUT byte changes. The base address of the buffer is the model's (log 14). -/
def Obligations.SerbWritesThePrefix : Prop :=
  ∀ (s : State) (d : Nat) (talker : Bytes) (rec : List (Option TxtVal)) (base len : Nat),
    (s.cfg.txtMsgs.length ≤ d →
      exec (.serb d talker rec (.own base len)) s = .fault .badDescriptor) ∧
    (∀ m, s.cfg.txtMsgs[d]? = some m → talkerOk talker = false ∨ txtRecordFits m.fields rec = false →
      exec (.serb d talker rec (.own base len)) s = .refused .badOperand) ∧
    (∀ m, s.cfg.txtMsgs[d]? = some m → talkerOk talker = true → txtRecordFits m.fields rec = true →
      ((∃ x ∈ rec, nonFinite x) →
        exec (.serb d talker rec (.own base len)) s = .refused .nonFiniteFormat) ∧
      (Elaborated s → (∀ x ∈ rec, ¬ nonFinite x) →
        ∃ (texts : List Bytes) (out : Memory),
          let body := talker ++ m.sid ++ [0x2C] ++ (texts.intersperse [0x2C]).flatten
          let x := (body.foldl (fun x c => x ^^^ c) (0x00 : Byte)).toNat
          let full := [0x24] ++ body ++ [0x2A] ++ [hexUpper.getD (x / 16) 0, hexUpper.getD (x % 16) 0]
            ++ [0x0D, 0x0A]
          let count := min len full.length
          textsOf s m.fields rec texts
          ∧ exec (.serb d talker rec (.own base len)) s
              = .next { s with out := out, results := .count count :: s.results }
          ∧ State.outRun { s with out := out } base count = full.take len
          ∧ ∀ i, ¬ (base ≤ i ∧ i < base + count) →
              State.outByte { s with out := out } i = s.outByte i))

/-- R385: BINDB of a live view completes and writes nothing but its result: column `k` is the view's
token `k`, tagged with the view's generation, while `k` is within its count, and EMPTY_TOKEN beyond. A
descriptor index out of range faults, and then a view of another generation or of another life of the
block does (log 12). -/
def Obligations.BindbStoresTheTokens : Prop :=
  ∀ (s : State) (d : Nat) (v : TxtView),
    (s.cfg.txtMsgs.length ≤ d → exec (.bindb d v) s = .fault .badDescriptor) ∧
    (d < s.cfg.txtMsgs.length → v.gen ≠ s.b.gen ∨ v.origin ≠ s.inst →
      exec (.bindb d v) s = .fault .staleView) ∧
    (∀ m, s.cfg.txtMsgs[d]? = some m → Result.viewB v ∈ s.results → v.gen = s.b.gen →
      v.origin = s.inst → v.fieldCount = v.fields.length →
      exec (.bindb d v) s = .next { s with results := .lazyTxt (
        (v.fields.take m.fields.length).map (fun sl => LazyTok.slice sl v.gen v.origin)
          ++ List.replicate (m.fields.length - v.fields.length) LazyTok.empty) :: s.results })

/-- R388: the sentence SERB writes into a long enough buffer, pushed through a Framer-B whose buffer and
field list are large enough, gives a view with the talker and the sentence id, and BINDB binds every
column to the text TXT.FMT returned for it, provided no string or char value holds a comma, a star or a
line feed. -/
def Obligations.TextMessageRoundTrip : Prop :=
  ∀ (s : State) (d : Nat) (m : TxtMsg) (talker : Bytes) (rec : List (Option TxtVal))
    (base len : Nat) (texts : List Bytes), Elaborated s → s.cfg.txtMsgs[d]? = some m →
    talkerOk talker = true → txtRecordFits m.fields rec = true →
    textsOf s m.fields rec texts → (∀ x ∈ rec, delimiterFree x) →
    (sentence (sentenceBody talker m.sid texts)).length ≤ len →
    (sentenceBody talker m.sid texts).length ≤ s.cfg.bufCapB →
    m.fields.length ≤ s.cfg.fieldCap → s.b.state = .seekStart →
    s.b.flist.length = s.cfg.fieldCap →
    ∃ (t u w : State) (n : Nat) (v : TxtView) (toks : List LazyTok),
      exec (.serb d talker rec (.own base len)) s = .next t
      ∧ t.results = .count n :: s.results
      ∧ execAll (expandFeedB (t.outRun base n)) t = .next u
      ∧ u.results = .viewB v :: (List.replicate (n - 1) .noMessage ++ t.results)
      ∧ v.talker = talker ∧ v.sid = m.sid
      ∧ exec (.bindb d v) u = .next w ∧ w.results = .lazyTxt toks :: u.results
      ∧ toks.map (fun k => w.tokenBytes (.held k)) = texts.map Except.ok

/-! ### The whole block (10_state.md, 60_exceptions.md, 70_reset_and_hazards.md) -/

/-- R46, R450: after reset the block has the values the spec gives and is legal. The registers the spec
leaves unspecified hold the model's own values there (log 5), which this does not mention. -/
def Obligations.ResetIsLegal : Prop :=
  IsReset State.reset ∧ Legal State.reset

/-- The invariant: from every legal state, whatever host action it takes, a step that answers a next
state answers a legal one. -/
def Obligations.StepKeepsTheBlockLegal : Prop :=
  ∀ s t : State, Legal s → step s = .next t → Legal t

/-- R32: CRC.EXTRA, XOR.RUN, SERA, DESERA, SERB and both framers neither write nor read CRC or XSUM: on
a state that differs only there, they answer the same with those registers kept. -/
def Obligations.OtherUnitsIgnoreCrcAndXsum : Prop :=
  ∀ (i : Instr) (s : State) (c : Half) (x : Byte),
    (∀ b, i ≠ .xorAcc b) → i ≠ .xorInit → i ≠ .crcInit → (∀ v, i ≠ .crcLoad v) →
    (∀ b, i ≠ .crcAcc b) → (∀ r, i ≠ .crcAccBuf r) → (∀ r, i ≠ .crcAccStr r) →
    (∀ t, exec i s = .next t → t.crc = s.crc ∧ t.xsum = s.xsum
      ∧ exec i { s with crc := c, xsum := x } = .next { t with crc := c, xsum := x }) ∧
    (∀ f, exec i s = .fault f → exec i { s with crc := c, xsum := x } = .fault f) ∧
    (∀ r, exec i s = .refused r → exec i { s with crc := c, xsum := x } = .refused r)

/-- R410, R412, R413, R414: an error result is one the command can report; InvalidMagic and
FieldCountMismatch are never results. -/
def Obligations.OnlyListedErrorsAreReported : Prop :=
  ∀ (i : Instr) (s t : State) (e : ErrorKind), exec i s = .next t →
    t.results = .error e :: s.results →
    e ∈ reportable i ∧ e ≠ .invalidMagic ∧ e ≠ .fieldCountMismatch

/-- R33, R40, R270, R310: only a push or a reset of a framer moves its generation, by one, and only
those move its state; no other command touches its registers or its buffer. -/
def Obligations.OnlyFramerCommandsMoveAFramer : Prop :=
  ∀ (i : Instr) (s t : State), exec i s = .next t →
    (((∃ b, i = .fraPush b) ∨ i = .fraReset) → t.a.gen = s.a.gen + 1) ∧
    (¬ ((∃ b, i = .fraPush b) ∨ i = .fraReset) → t.a = s.a ∧ t.wba = s.wba) ∧
    (((∃ c, i = .frbPush c) ∨ i = .frbReset) → t.b.gen = s.b.gen + 1) ∧
    (¬ ((∃ c, i = .frbPush c) ∨ i = .frbReset) → t.b = s.b ∧ t.wbb = s.wbb)

/-- R40, R74, R460, R441: a push or reset of Framer-A ends the life of every view it emitted, so that
DESERA of it faults from then on; a push to Framer-B leaves it live. -/
def Obligations.ViewsDieAtTheNextPush : Prop :=
  ∀ (s t : State) (v : BinView) (d : Nat) (i : Instr), Legal s → Result.viewA v ∈ s.results →
    exec i s = .next t →
    (((∃ b, i = .fraPush b) ∨ i = .fraReset) → d < t.cfg.binMsgs.length →
      t.viewALive v = false ∧ exec (.desera d v) t = .fault .staleView) ∧
    (¬ ((∃ b, i = .fraPush b) ∨ i = .fraReset) → t.viewALive v = s.viewALive v)

/-- R425, R426: in a run no fault record and no refusal mark is ever cleared, and a step that records one
leaves every register and all memory as before. That the host action that stopped is dropped from the
queue and the run goes on is the model's choice (log 11). -/
def Obligations.RunsKeepTheirRecords : Prop :=
  ∀ (r : Run),
    (∃ fs, r.advance.faults = fs ++ r.faults) ∧ (∃ ms, r.advance.refusals = ms ++ r.refusals) ∧
    (r.advance.faults ≠ r.faults ∨ r.advance.refusals ≠ r.refusals →
      r.advance.state = { r.state with pending := r.state.pending.tail })

/-- R440: in every interleaving of the steps of several blocks, each block is where its own steps alone
take it. That a stop of one block is recorded in that block and the others go on, and that a block keeps
its place in the list as its number, is the model's choice (log 25). -/
def Obligations.BlocksShareNothing : Prop :=
  ∀ (ks : List Nat) (sys : System),
    (∀ j, (systemRun ks sys)[j]? = (sys[j]?).map (Run.steps (ks.count j))) ∧
    (sys.numbered → (systemRun ks sys).numbered)

/-- R201, R231, R450, R452: elaboration refuses a configuration with a binary descriptor that fails one of
the checks (a) to (e) of R201 or a text descriptor that fails one of R231, and otherwise leaves a reset,
elaborated block; a reset of an elaborated block does too. -/
def Obligations.ElaborationChecksAndResets : Prop :=
  ∀ (s : State) (c : Config),
    (((∃ m ∈ c.binMsgs, ¬ BinMsgOk m) ∨ (∃ m ∈ c.txtMsgs, ¬ TxtMsgOk c m)) →
      perform (.elaborate c) s = .refused .badConfiguration) ∧
    ((∀ m ∈ c.binMsgs, BinMsgOk m) → (∀ m ∈ c.txtMsgs, TxtMsgOk c m) →
      ∃ t, perform (.elaborate c) s = .next t ∧ t.cfg = c ∧ Elaborated t ∧ IsReset t) ∧
    (Elaborated s → ∃ t, perform .reset s = .next t ∧ t.cfg = s.cfg ∧ Elaborated t ∧ IsReset t)

/-- R451: the four partial resets together leave the values reset leaves, but for the generations and
the results. -/
def Obligations.PartialResetsMakeAReset : Prop :=
  ∀ s : State, ∃ t, execAll [.fraReset, .frbReset, .crcInit, .xorInit] s = .next t
    ∧ IsReset { t with a := { t.a with gen := 0 }, b := { t.b with gen := 0 }, results := [] }
    ∧ t.cfg = s.cfg ∧ t.crcx = s.crcx ∧ t.a.gen = s.a.gen + 1 ∧ t.b.gen = s.b.gen + 1

/-- R84, R461: a host write of a working buffer is refused while its framer is in frame or a view of it
is live; a host change of the tables is refused always; SERA and SERB never complete into an OUT buffer
laid over a working buffer. That an allowed host write stores its byte, although R70 lists only the pushes
as writers, is the model's choice (log 16). -/
def Obligations.HostDutiesAreEnforced : Prop :=
  ∀ (s : State) (i : Nat) (v : Byte),
    let liveA := ∃ w, Result.viewA w ∈ s.results ∧ w.gen = s.a.gen
    let liveB := ∃ w, Result.viewB w ∈ s.results ∧ w.gen = s.b.gen
    (s.a.state ≠ .seekSync ∨ liveA →
      perform (.writeBuffer .a i v) s = .refused .hostBufferWrite) ∧
    (s.a.state = .seekSync → ¬ liveA → i < s.cfg.bufCapA →
      perform (.writeBuffer .a i v) s = .next { s with wba := s.wba.write i v }) ∧
    (s.b.state ≠ .seekStart ∨ liveB →
      perform (.writeBuffer .b i v) s = .refused .hostBufferWrite) ∧
    (s.b.state = .seekStart → ¬ liveB → i < s.cfg.bufCapB →
      perform (.writeBuffer .b i v) s = .next { s with wbb := s.wbb.write i v }) ∧
    perform .writeTables s = .refused .hostBufferWrite ∧
    (∀ (d : Nat) (rec : List (Option BinVal)) (sys comp seq : Byte) (f : Framer) (len : Nat)
      (t : State), 0 < len → exec (.sera d rec sys comp seq (.overBuffer f len)) s ≠ .next t) ∧
    (∀ (d : Nat) (talker : Bytes) (rec : List (Option TxtVal)) (f : Framer) (len : Nat)
      (t : State), 0 < len → exec (.serb d talker rec (.overBuffer f len)) s ≠ .next t)

/-- R450: a view from before a reset or an elaboration is never live after it, however many steps the
block takes: DESERA and BINDB of it fault, and so does TXT.PARSE of a token bound from it. That a view
carries the life of the block it came from is the model's (log 12). -/
def Obligations.ViewsOfEarlierLivesAreDead : Prop :=
  ∀ (s t : State) (k d : Nat), Legal s →
    (perform .reset s = .next t ∨ ∃ c, perform (.elaborate c) s = .next t) →
    let u := (Run.steps k (Run.start t)).state
    (∀ v, Result.viewA v ∈ s.results → u.viewALive v = false
      ∧ (d < u.cfg.binMsgs.length → exec (.desera d v) u = .fault .staleView)) ∧
    (∀ v, Result.viewB v ∈ s.results → u.viewBLive v = false
      ∧ (d < u.cfg.txtMsgs.length → exec (.bindb d v) u = .fault .staleView)
      ∧ ∀ sl ∈ v.fields, ∀ kind,
          exec (.txtParse kind (.held (.slice sl v.gen v.origin))) u = .fault .staleView)

/-- R453, R46: every block that was launched is legal, at every step of every run; so is every reset state
of an elaborated configuration. -/
def Obligations.LaunchedBlocksAreLegal : Prop :=
  (∀ s : State, IsReset s → Elaborated s → Memory.wf s.out = true → Legal s) ∧
    (∀ r : Run, Launched r → Legal r.state)
end

