-- ==== Sys2Proof/Laws/BinCodec.lean ====
section
/-! SUPPORT. The binary field codec and the payload image (42_binary_field_codec.md,
46_binary_serdes.md): lengths, and reading an image back. -/

namespace Sys2Proof.Machine

/-! ### Little-endian numbers (R75, R202) -/

@[simp] theorem leBytes_length (bits n : Nat) : (leBytes bits n).length = n := by simp [leBytes]

theorem leBytes_succ (bits n : Nat) :
    leBytes bits (n + 1) = BitVec.ofNat 8 bits :: leBytes (bits >>> 8) n := by
  simp only [leBytes, List.range_succ_eq_map, List.map_cons, List.map_map]
  congr 1
  apply List.map_congr_left
  intro i _
  simp only [Function.comp, ← Nat.shiftRight_add]
  congr 2
  omega

theorem leNat_leBytes (bits n : Nat) : leNat (leBytes bits n) = bits % 256 ^ n := by
  induction n generalizing bits with
  | zero => simp [leBytes, leNat, Nat.mod_one]
  | succ n ih =>
    rw [leBytes_succ, leNat, ih, BitVec.toNat_ofNat, Nat.shiftRight_eq_div_pow, pow_succ' 256 n,
      Nat.mod_mul]

theorem leNat_eq_sum (bs : Bytes) :
    leNat bs = ((List.range bs.length).map (fun i => (bs.getD i 0).toNat * 256 ^ i)).sum := by
  induction bs with
  | nil => rfl
  | cons b bs ih =>
    simp only [leNat, List.length_cons, List.range_succ_eq_map, List.map_cons, List.map_map,
      List.sum_cons, ih]
    simp [Function.comp_def, pow_succ]
    rw [← List.sum_map_mul_left]
    congr 1
    apply List.map_congr_left
    intro i _
    ring

/-! ### Images (R111, R202, R203) -/

@[simp] theorem image_length (p : PrimType) (v : Int) : (image p v).length = primSize p :=
  leBytes_length _ _

theorem valueBits_lt (p : PrimType) (v : Int) : valueBits p v < 2 ^ (8 * primSize p) := by
  have h : (0 : Int) < 2 ^ (8 * primSize p) := by positivity
  have h1 := Int.emod_lt_of_pos v h
  have h2 := Int.emod_nonneg v h.ne'
  unfold valueBits
  zify
  rw [Int.toNat_of_nonneg h2]
  exact h1

/-- A value inside its type reads back from its image. -/
theorem value_image {p : PrimType} {v : Int} (h : primAdmits p v = true) :
    value p (image p v) = v := by
  have pow : ∀ k : Nat, ((2 : Int) ^ k) = ((2 ^ k : Nat) : Int) := fun k => by push_cast; rfl
  unfold value image
  rw [leNat_leBytes, show (256 : Nat) ^ primSize p = 2 ^ (8 * primSize p) by rw [pow_mul]; norm_num,
    Nat.mod_eq_of_lt (valueBits_lt p v)]
  unfold bitsValue valueBits
  unfold primAdmits at h
  split at h <;> rename_i hs <;> have h := of_decide_eq_true h
  · have e : 2 ^ (8 * primSize p) = 2 * 2 ^ (8 * primSize p - 1) := by
      rw [← pow_succ']; congr 1; cases p <;> rfl
    rw [hs]
    rw [pow] at h ⊢
    generalize 2 ^ (8 * primSize p - 1) = M at *
    rw [e]
    simp only [Bool.true_and, decide_eq_true_eq]
    push_cast
    split <;> rename_i h2
    · have : v < 0 := by
        by_contra hc
        rw [Int.emod_eq_of_lt (by omega) (by omega)] at h2; omega
      rw [← Int.add_emod_right, Int.emod_eq_of_lt (by omega) (by omega)]; omega
    · have : ¬ v < 0 := by
        intro hc
        rw [← Int.add_emod_right, Int.emod_eq_of_lt (by omega) (by omega)] at h2; omega
      rw [Int.emod_eq_of_lt (by omega) (by omega)]; omega
  · have hs : primSigned p = false := by simpa using hs
    rw [hs]; simp
    rw [Int.emod_eq_of_lt h.1 h.2]; omega

theorem images_length (p : PrimType) (vs : List Int) :
    ((vs.map (image p)).flatten).length = primSize p * vs.length := by
  induction vs with
  | nil => rfl
  | cons v vs ih => simp [ih, Nat.mul_add]; omega

theorem elements_images {p : PrimType} {vs : List Int} (h : vs.all (primAdmits p) = true) :
    elements p vs.length (vs.map (image p)).flatten = vs := by
  induction vs with
  | nil => rfl
  | cons v vs ih =>
    simp only [List.all_cons, Bool.and_eq_true] at h
    simp only [List.length_cons, elements, List.map_cons, List.flatten_cons]
    rw [List.take_left' (image_length p v), List.drop_left' (image_length p v), value_image h.1,
      ih h.2]

theorem fieldImage_length {p : PrimType} {count : Nat} {x : BinVal}
    (h : valFits p count x = true) : (fieldImage p x).length = fieldSizeOf p count := by
  cases x with
  | scalar v => simp [valFits] at h; simp [fieldImage, fieldSizeOf, elemCount, h.1]
  | array vs =>
    simp [valFits] at h
    simp only [fieldImage, images_length]
    simp [fieldSizeOf, elemCount, h.1.1, h.1.2]

/-! ### The zero-filled value buffer (R77, R204) -/

@[simp] theorem zeroFill_length (n : Nat) (bs : Bytes) : (zeroFill n bs).length = n := by
  simp [zeroFill]; omega

theorem zeroFill_self (bs : Bytes) : zeroFill bs.length bs = bs := by simp [zeroFill]

theorem zeroFill_eq_map (n : Nat) (bs : Bytes) :
    zeroFill n bs = (List.range n).map (fun i => bs.getD i 0x00) := by
  apply List.ext_getElem?
  intro i
  simp only [zeroFill, List.getElem?_map, List.getD]
  by_cases h : i < n
  · by_cases h2 : i < bs.length
    · rw [List.getElem?_append_left (by simp; omega)]; simp [h, h2]
    · rw [List.getElem?_append_right (by simp; omega)]
      simp [h, List.getElem?_eq_none (by omega : bs.length ≤ i), List.getElem?_replicate]
      omega
  · rw [List.getElem?_eq_none] <;> simp [h]
    omega

theorem elements_eq_map (p : PrimType) (count : Nat) (buf : Bytes) :
    elements p count buf = (List.range count).map
      (fun j => value p ((buf.drop (j * primSize p)).take (primSize p))) := by
  induction count generalizing buf with
  | zero => rfl
  | succ n ih =>
    simp only [elements, ih, List.range_succ_eq_map, List.map_cons, List.map_map,
      Function.comp_def, List.drop_drop]
    congr 1
    · simp
    apply List.map_congr_left
    intro j _
    congr 3
    rw [Nat.succ_mul]
    omega

/-! ### The trim (R352) -/

/-- What the trim drops is zero bytes, it keeps a byte, and it stops at a byte that is not zero. -/
theorem trimLen_spec (p : Bytes) {n : Nat} (h : n ≤ p.length) :
    p.take n = p.take (trimLen p n) ++ List.replicate (n - trimLen p n) 0x00
      ∧ trimLen p n ≤ n ∧ (0 < n → 0 < trimLen p n)
      ∧ (trimLen p n ≤ 1 ∨ p[trimLen p n - 1]? ≠ some 0x00) := by
  induction n with
  | zero => simp [trimLen]
  | succ n ih =>
    unfold trimLen
    split
    · rename_i hc
      obtain ⟨h1, h2, h3, h4⟩ := ih (by omega)
      refine ⟨?_, by omega, fun _ => h3 hc.1, h4⟩
      rw [List.take_add_one, h1, hc.2,
        show n + 1 - trimLen p n = (n - trimLen p n) + 1 by omega, List.replicate_succ']
      simp
    · rename_i hc
      refine ⟨by simp, le_refl _, fun _ => by omega, ?_⟩
      by_cases hn : 0 < n
      · right; simp at hc ⊢; simpa using hc hn
      · left; omega

theorem trimPayload_length (p : Bytes) : (trimPayload p).length = trimLen p p.length := by
  have := (trimLen_spec p (le_refl p.length)).2.1
  simp [trimPayload]; omega

theorem trimPayload_length_le (p : Bytes) : (trimPayload p).length ≤ p.length := by
  rw [trimPayload_length]; exact (trimLen_spec p (le_refl p.length)).2.1

/-! ### Lazy records (R356) -/

@[simp] theorem lazyRecord_length (fs : List BinField) (r : Bytes) :
    (lazyRecord fs r).length = fs.length := by
  induction fs generalizing r with
  | nil => rfl
  | cons f fs ih => simp [lazyRecord, ih]

end Sys2Proof.Machine
end

