-- ==== Sys2Proof/Laws/State.lean ====
section
/-! SUPPORT. One lemma per field of State per update: the updated field holds the new value, every other
field is unchanged. -/

namespace Sys2Proof.Machine

@[simp] theorem State.setCrc_cfg (s : State) (v : Half) : (s.setCrc v).cfg = s.cfg := rfl
@[simp] theorem State.setCrc_crcx (s : State) (v : Half) : (s.setCrc v).crcx = s.crcx := rfl
@[simp] theorem State.setCrc_crc (s : State) (v : Half) : (s.setCrc v).crc = v := rfl
@[simp] theorem State.setCrc_xsum (s : State) (v : Half) : (s.setCrc v).xsum = s.xsum := rfl
@[simp] theorem State.setCrc_a (s : State) (v : Half) : (s.setCrc v).a = s.a := rfl
@[simp] theorem State.setCrc_wba (s : State) (v : Half) : (s.setCrc v).wba = s.wba := rfl
@[simp] theorem State.setCrc_b (s : State) (v : Half) : (s.setCrc v).b = s.b := rfl
@[simp] theorem State.setCrc_wbb (s : State) (v : Half) : (s.setCrc v).wbb = s.wbb := rfl
@[simp] theorem State.setCrc_out (s : State) (v : Half) : (s.setCrc v).out = s.out := rfl
@[simp] theorem State.setCrc_inst (s : State) (v : Half) : (s.setCrc v).inst = s.inst := rfl
@[simp] theorem State.setCrc_draws (s : State) (v : Half) : (s.setCrc v).draws = s.draws := rfl
@[simp] theorem State.setCrc_pending (s : State) (v : Half) : (s.setCrc v).pending = s.pending := rfl
@[simp] theorem State.setCrc_results (s : State) (v : Half) : (s.setCrc v).results = s.results := rfl

@[simp] theorem State.setXsum_cfg (s : State) (v : Byte) : (s.setXsum v).cfg = s.cfg := rfl
@[simp] theorem State.setXsum_crcx (s : State) (v : Byte) : (s.setXsum v).crcx = s.crcx := rfl
@[simp] theorem State.setXsum_crc (s : State) (v : Byte) : (s.setXsum v).crc = s.crc := rfl
@[simp] theorem State.setXsum_xsum (s : State) (v : Byte) : (s.setXsum v).xsum = v := rfl
@[simp] theorem State.setXsum_a (s : State) (v : Byte) : (s.setXsum v).a = s.a := rfl
@[simp] theorem State.setXsum_wba (s : State) (v : Byte) : (s.setXsum v).wba = s.wba := rfl
@[simp] theorem State.setXsum_b (s : State) (v : Byte) : (s.setXsum v).b = s.b := rfl
@[simp] theorem State.setXsum_wbb (s : State) (v : Byte) : (s.setXsum v).wbb = s.wbb := rfl
@[simp] theorem State.setXsum_out (s : State) (v : Byte) : (s.setXsum v).out = s.out := rfl
@[simp] theorem State.setXsum_inst (s : State) (v : Byte) : (s.setXsum v).inst = s.inst := rfl
@[simp] theorem State.setXsum_draws (s : State) (v : Byte) : (s.setXsum v).draws = s.draws := rfl
@[simp] theorem State.setXsum_pending (s : State) (v : Byte) : (s.setXsum v).pending = s.pending := rfl
@[simp] theorem State.setXsum_results (s : State) (v : Byte) : (s.setXsum v).results = s.results := rfl

@[simp] theorem State.setA_cfg (s : State) (x : FramerA) : (s.setA x).cfg = s.cfg := rfl
@[simp] theorem State.setA_crcx (s : State) (x : FramerA) : (s.setA x).crcx = s.crcx := rfl
@[simp] theorem State.setA_crc (s : State) (x : FramerA) : (s.setA x).crc = s.crc := rfl
@[simp] theorem State.setA_xsum (s : State) (x : FramerA) : (s.setA x).xsum = s.xsum := rfl
@[simp] theorem State.setA_a (s : State) (x : FramerA) : (s.setA x).a = x := rfl
@[simp] theorem State.setA_wba (s : State) (x : FramerA) : (s.setA x).wba = s.wba := rfl
@[simp] theorem State.setA_b (s : State) (x : FramerA) : (s.setA x).b = s.b := rfl
@[simp] theorem State.setA_wbb (s : State) (x : FramerA) : (s.setA x).wbb = s.wbb := rfl
@[simp] theorem State.setA_out (s : State) (x : FramerA) : (s.setA x).out = s.out := rfl
@[simp] theorem State.setA_inst (s : State) (x : FramerA) : (s.setA x).inst = s.inst := rfl
@[simp] theorem State.setA_draws (s : State) (x : FramerA) : (s.setA x).draws = s.draws := rfl
@[simp] theorem State.setA_pending (s : State) (x : FramerA) : (s.setA x).pending = s.pending := rfl
@[simp] theorem State.setA_results (s : State) (x : FramerA) : (s.setA x).results = s.results := rfl

@[simp] theorem State.setB_cfg (s : State) (x : FramerB) : (s.setB x).cfg = s.cfg := rfl
@[simp] theorem State.setB_crcx (s : State) (x : FramerB) : (s.setB x).crcx = s.crcx := rfl
@[simp] theorem State.setB_crc (s : State) (x : FramerB) : (s.setB x).crc = s.crc := rfl
@[simp] theorem State.setB_xsum (s : State) (x : FramerB) : (s.setB x).xsum = s.xsum := rfl
@[simp] theorem State.setB_a (s : State) (x : FramerB) : (s.setB x).a = s.a := rfl
@[simp] theorem State.setB_wba (s : State) (x : FramerB) : (s.setB x).wba = s.wba := rfl
@[simp] theorem State.setB_b (s : State) (x : FramerB) : (s.setB x).b = x := rfl
@[simp] theorem State.setB_wbb (s : State) (x : FramerB) : (s.setB x).wbb = s.wbb := rfl
@[simp] theorem State.setB_out (s : State) (x : FramerB) : (s.setB x).out = s.out := rfl
@[simp] theorem State.setB_inst (s : State) (x : FramerB) : (s.setB x).inst = s.inst := rfl
@[simp] theorem State.setB_draws (s : State) (x : FramerB) : (s.setB x).draws = s.draws := rfl
@[simp] theorem State.setB_pending (s : State) (x : FramerB) : (s.setB x).pending = s.pending := rfl
@[simp] theorem State.setB_results (s : State) (x : FramerB) : (s.setB x).results = s.results := rfl

@[simp] theorem State.setWba_cfg (s : State) (m : Buffer) : (s.setWba m).cfg = s.cfg := rfl
@[simp] theorem State.setWba_crcx (s : State) (m : Buffer) : (s.setWba m).crcx = s.crcx := rfl
@[simp] theorem State.setWba_crc (s : State) (m : Buffer) : (s.setWba m).crc = s.crc := rfl
@[simp] theorem State.setWba_xsum (s : State) (m : Buffer) : (s.setWba m).xsum = s.xsum := rfl
@[simp] theorem State.setWba_a (s : State) (m : Buffer) : (s.setWba m).a = s.a := rfl
@[simp] theorem State.setWba_wba (s : State) (m : Buffer) : (s.setWba m).wba = m := rfl
@[simp] theorem State.setWba_b (s : State) (m : Buffer) : (s.setWba m).b = s.b := rfl
@[simp] theorem State.setWba_wbb (s : State) (m : Buffer) : (s.setWba m).wbb = s.wbb := rfl
@[simp] theorem State.setWba_out (s : State) (m : Buffer) : (s.setWba m).out = s.out := rfl
@[simp] theorem State.setWba_inst (s : State) (m : Buffer) : (s.setWba m).inst = s.inst := rfl
@[simp] theorem State.setWba_draws (s : State) (m : Buffer) : (s.setWba m).draws = s.draws := rfl
@[simp] theorem State.setWba_pending (s : State) (m : Buffer) : (s.setWba m).pending = s.pending := rfl
@[simp] theorem State.setWba_results (s : State) (m : Buffer) : (s.setWba m).results = s.results := rfl

@[simp] theorem State.setWbb_cfg (s : State) (m : Buffer) : (s.setWbb m).cfg = s.cfg := rfl
@[simp] theorem State.setWbb_crcx (s : State) (m : Buffer) : (s.setWbb m).crcx = s.crcx := rfl
@[simp] theorem State.setWbb_crc (s : State) (m : Buffer) : (s.setWbb m).crc = s.crc := rfl
@[simp] theorem State.setWbb_xsum (s : State) (m : Buffer) : (s.setWbb m).xsum = s.xsum := rfl
@[simp] theorem State.setWbb_a (s : State) (m : Buffer) : (s.setWbb m).a = s.a := rfl
@[simp] theorem State.setWbb_wba (s : State) (m : Buffer) : (s.setWbb m).wba = s.wba := rfl
@[simp] theorem State.setWbb_b (s : State) (m : Buffer) : (s.setWbb m).b = s.b := rfl
@[simp] theorem State.setWbb_wbb (s : State) (m : Buffer) : (s.setWbb m).wbb = m := rfl
@[simp] theorem State.setWbb_out (s : State) (m : Buffer) : (s.setWbb m).out = s.out := rfl
@[simp] theorem State.setWbb_inst (s : State) (m : Buffer) : (s.setWbb m).inst = s.inst := rfl
@[simp] theorem State.setWbb_draws (s : State) (m : Buffer) : (s.setWbb m).draws = s.draws := rfl
@[simp] theorem State.setWbb_pending (s : State) (m : Buffer) : (s.setWbb m).pending = s.pending := rfl
@[simp] theorem State.setWbb_results (s : State) (m : Buffer) : (s.setWbb m).results = s.results := rfl

@[simp] theorem State.setOut_cfg (s : State) (m : Memory) : (s.setOut m).cfg = s.cfg := rfl
@[simp] theorem State.setOut_crcx (s : State) (m : Memory) : (s.setOut m).crcx = s.crcx := rfl
@[simp] theorem State.setOut_crc (s : State) (m : Memory) : (s.setOut m).crc = s.crc := rfl
@[simp] theorem State.setOut_xsum (s : State) (m : Memory) : (s.setOut m).xsum = s.xsum := rfl
@[simp] theorem State.setOut_a (s : State) (m : Memory) : (s.setOut m).a = s.a := rfl
@[simp] theorem State.setOut_wba (s : State) (m : Memory) : (s.setOut m).wba = s.wba := rfl
@[simp] theorem State.setOut_b (s : State) (m : Memory) : (s.setOut m).b = s.b := rfl
@[simp] theorem State.setOut_wbb (s : State) (m : Memory) : (s.setOut m).wbb = s.wbb := rfl
@[simp] theorem State.setOut_out (s : State) (m : Memory) : (s.setOut m).out = m := rfl
@[simp] theorem State.setOut_inst (s : State) (m : Memory) : (s.setOut m).inst = s.inst := rfl
@[simp] theorem State.setOut_draws (s : State) (m : Memory) : (s.setOut m).draws = s.draws := rfl
@[simp] theorem State.setOut_pending (s : State) (m : Memory) : (s.setOut m).pending = s.pending := rfl
@[simp] theorem State.setOut_results (s : State) (m : Memory) : (s.setOut m).results = s.results := rfl

@[simp] theorem State.addDraws_cfg (s : State) (n : Nat) : (s.addDraws n).cfg = s.cfg := rfl
@[simp] theorem State.addDraws_crcx (s : State) (n : Nat) : (s.addDraws n).crcx = s.crcx := rfl
@[simp] theorem State.addDraws_crc (s : State) (n : Nat) : (s.addDraws n).crc = s.crc := rfl
@[simp] theorem State.addDraws_xsum (s : State) (n : Nat) : (s.addDraws n).xsum = s.xsum := rfl
@[simp] theorem State.addDraws_a (s : State) (n : Nat) : (s.addDraws n).a = s.a := rfl
@[simp] theorem State.addDraws_wba (s : State) (n : Nat) : (s.addDraws n).wba = s.wba := rfl
@[simp] theorem State.addDraws_b (s : State) (n : Nat) : (s.addDraws n).b = s.b := rfl
@[simp] theorem State.addDraws_wbb (s : State) (n : Nat) : (s.addDraws n).wbb = s.wbb := rfl
@[simp] theorem State.addDraws_out (s : State) (n : Nat) : (s.addDraws n).out = s.out := rfl
@[simp] theorem State.addDraws_inst (s : State) (n : Nat) : (s.addDraws n).inst = s.inst := rfl
@[simp] theorem State.addDraws_draws (s : State) (n : Nat) : (s.addDraws n).draws = s.draws + n := rfl
@[simp] theorem State.addDraws_pending (s : State) (n : Nat) : (s.addDraws n).pending = s.pending := rfl
@[simp] theorem State.addDraws_results (s : State) (n : Nat) : (s.addDraws n).results = s.results := rfl

@[simp] theorem State.setPending_cfg (s : State) (q : List HostAction) : (s.setPending q).cfg = s.cfg := rfl
@[simp] theorem State.setPending_crcx (s : State) (q : List HostAction) : (s.setPending q).crcx = s.crcx := rfl
@[simp] theorem State.setPending_crc (s : State) (q : List HostAction) : (s.setPending q).crc = s.crc := rfl
@[simp] theorem State.setPending_xsum (s : State) (q : List HostAction) : (s.setPending q).xsum = s.xsum := rfl
@[simp] theorem State.setPending_a (s : State) (q : List HostAction) : (s.setPending q).a = s.a := rfl
@[simp] theorem State.setPending_wba (s : State) (q : List HostAction) : (s.setPending q).wba = s.wba := rfl
@[simp] theorem State.setPending_b (s : State) (q : List HostAction) : (s.setPending q).b = s.b := rfl
@[simp] theorem State.setPending_wbb (s : State) (q : List HostAction) : (s.setPending q).wbb = s.wbb := rfl
@[simp] theorem State.setPending_out (s : State) (q : List HostAction) : (s.setPending q).out = s.out := rfl
@[simp] theorem State.setPending_inst (s : State) (q : List HostAction) : (s.setPending q).inst = s.inst := rfl
@[simp] theorem State.setPending_draws (s : State) (q : List HostAction) : (s.setPending q).draws = s.draws := rfl
@[simp] theorem State.setPending_pending (s : State) (q : List HostAction) : (s.setPending q).pending = q := rfl
@[simp] theorem State.setPending_results (s : State) (q : List HostAction) : (s.setPending q).results = s.results := rfl

@[simp] theorem State.returns_cfg (s : State) (r : Result) : (s.returns r).cfg = s.cfg := rfl
@[simp] theorem State.returns_crcx (s : State) (r : Result) : (s.returns r).crcx = s.crcx := rfl
@[simp] theorem State.returns_crc (s : State) (r : Result) : (s.returns r).crc = s.crc := rfl
@[simp] theorem State.returns_xsum (s : State) (r : Result) : (s.returns r).xsum = s.xsum := rfl
@[simp] theorem State.returns_a (s : State) (r : Result) : (s.returns r).a = s.a := rfl
@[simp] theorem State.returns_wba (s : State) (r : Result) : (s.returns r).wba = s.wba := rfl
@[simp] theorem State.returns_b (s : State) (r : Result) : (s.returns r).b = s.b := rfl
@[simp] theorem State.returns_wbb (s : State) (r : Result) : (s.returns r).wbb = s.wbb := rfl
@[simp] theorem State.returns_out (s : State) (r : Result) : (s.returns r).out = s.out := rfl
@[simp] theorem State.returns_inst (s : State) (r : Result) : (s.returns r).inst = s.inst := rfl
@[simp] theorem State.returns_draws (s : State) (r : Result) : (s.returns r).draws = s.draws := rfl
@[simp] theorem State.returns_pending (s : State) (r : Result) : (s.returns r).pending = s.pending := rfl
@[simp] theorem State.returns_results (s : State) (r : Result) : (s.returns r).results = r :: s.results := rfl

end Sys2Proof.Machine
end

