-- ==== Sys2Proof/Laws/Memory.lean ====
section
/-! SUPPORT. The laws of the byte memory: a read after a write, writes elsewhere, and that every
operation keeps the canonical form. -/

namespace Sys2Proof.Machine

@[simp] theorem Memory.read?_nil (a : Nat) : Memory.read? [] a = none := rfl

theorem Memory.read?_write (m : Memory) (a : Nat) (v : Byte) (i : Nat) :
    Memory.read? (Memory.write m a v) i = if i = a then some v else Memory.read? m i := by
  induction m with
  | nil =>
    by_cases h : a = i
    · subst h; simp [Memory.write, Memory.read?]
    · simp [Memory.write, Memory.read?, h, Ne.symm h]
  | cons c rest ih =>
    obtain ⟨k, w⟩ := c
    simp only [Memory.write]
    split
    · rename_i hlt
      by_cases h : a = i
      · subst h; simp [Memory.read?]
      · simp [Memory.read?, h, Ne.symm h]
    · split
      · rename_i _ heq
        subst heq
        by_cases h : a = i
        · subst h; simp [Memory.read?]
        · simp [Memory.read?, h, Ne.symm h]
      · rename_i _ hne
        by_cases hk : k = i
        · subst hk; simp [Memory.read?, Ne.symm hne]
        · simp [Memory.read?, hk, ih]

@[simp] theorem Memory.read?_write_same (m : Memory) (a : Nat) (v : Byte) :
    Memory.read? (Memory.write m a v) a = some v := by
  simp [Memory.read?_write]

theorem Memory.read?_write_other (m : Memory) {a i : Nat} (v : Byte) (h : i ≠ a) :
    Memory.read? (Memory.write m a v) i = Memory.read? m i := by
  simp [Memory.read?_write, h]

theorem Memory.read?_writeRun (bs : Bytes) (m : Memory) (a i : Nat) :
    Memory.read? (Memory.writeRun m a bs) i =
      if a ≤ i ∧ i < a + bs.length then bs[i - a]? else Memory.read? m i := by
  induction bs generalizing m a with
  | nil => simp [Memory.writeRun]
  | cons v rest ih =>
    rw [Memory.writeRun, ih, Memory.read?_write]
    by_cases h1 : i = a
    · subst h1; simp
    · by_cases h2 : a + 1 ≤ i ∧ i < a + 1 + rest.length
      · have h3 : a ≤ i ∧ i < a + (v :: rest).length := by simp only [List.length_cons]; omega
        have h4 : i - a = (i - (a + 1)) + 1 := by omega
        rw [if_pos h2, if_pos h3, h4, List.getElem?_cons_succ]
      · have h3 : ¬ (a ≤ i ∧ i < a + (v :: rest).length) := by
          simp only [List.length_cons]; omega
        rw [if_neg h2, if_neg h3, if_neg h1]

theorem Memory.risesFrom_mono {m : Memory} {n n' : Nat} (h : Memory.risesFrom n' m = true)
    (hn : n ≤ n') : Memory.risesFrom n m = true := by
  cases m with
  | nil => rfl
  | cons c rest =>
    obtain ⟨k, w⟩ := c
    simp only [Memory.risesFrom, Bool.and_eq_true, decide_eq_true_eq] at h ⊢
    exact ⟨by omega, h.2⟩

theorem Memory.risesFrom_write {m : Memory} {n a : Nat} (v : Byte)
    (h : Memory.risesFrom n m = true) (ha : n ≤ a) :
    Memory.risesFrom n (Memory.write m a v) = true := by
  induction m generalizing n with
  | nil => simpa [Memory.write, Memory.risesFrom] using ha
  | cons c rest ih =>
    obtain ⟨k, w⟩ := c
    simp only [Memory.risesFrom, Bool.and_eq_true, decide_eq_true_eq] at h
    simp only [Memory.write]
    split
    · simp only [Memory.risesFrom, Bool.and_eq_true, decide_eq_true_eq]
      exact ⟨ha, by omega, h.2⟩
    · split
      · rename_i _ heq
        subst heq
        simp only [Memory.risesFrom, Bool.and_eq_true, decide_eq_true_eq]
        exact ⟨ha, h.2⟩
      · simp only [Memory.risesFrom, Bool.and_eq_true, decide_eq_true_eq]
        exact ⟨h.1, ih h.2 (by omega)⟩

/-- A write keeps the canonical form. -/
theorem Memory.wf_write {m : Memory} (a : Nat) (v : Byte) (h : Memory.wf m = true) :
    Memory.wf (Memory.write m a v) = true :=
  Memory.risesFrom_write v h (Nat.zero_le a)

/-- A run of writes keeps the canonical form. -/
theorem Memory.wf_writeRun (bs : Bytes) {m : Memory} (a : Nat) (h : Memory.wf m = true) :
    Memory.wf (Memory.writeRun m a bs) = true := by
  induction bs generalizing m a with
  | nil => exact h
  | cons v rest ih => exact ih (a + 1) (Memory.wf_write a v h)

theorem Memory.wf_nil : Memory.wf [] = true := rfl

/-- A write inside the space keeps every index inside it. -/
theorem Memory.below_write {m : Memory} {cap a : Nat} (v : Byte)
    (h : Memory.below cap m = true) (ha : a < cap) :
    Memory.below cap (Memory.write m a v) = true := by
  induction m with
  | nil => simpa [Memory.write, Memory.below] using ha
  | cons c rest ih =>
    obtain ⟨k, w⟩ := c
    simp only [Memory.below, List.all_cons, Bool.and_eq_true, decide_eq_true_eq] at h ih
    simp only [Memory.write]
    split
    · simp only [Memory.below, List.all_cons, Bool.and_eq_true, decide_eq_true_eq]
      exact ⟨ha, h.1, h.2⟩
    · split
      · simp only [Memory.below, List.all_cons, Bool.and_eq_true, decide_eq_true_eq]
        exact ⟨ha, h.2⟩
      · simp only [Memory.below, List.all_cons, Bool.and_eq_true, decide_eq_true_eq]
        exact ⟨h.1, ih h.2⟩

theorem Memory.below_nil (cap : Nat) : Memory.below cap [] = true := rfl

/-- Two canonical memories that read alike are the same list. -/
theorem Memory.read?_eq_none_of_risesFrom {m : Memory} {n i : Nat}
    (h : Memory.risesFrom n m = true) (hi : i < n) : Memory.read? m i = none := by
  induction m generalizing n with
  | nil => rfl
  | cons c rest ih =>
    obtain ⟨k, w⟩ := c
    simp only [Memory.risesFrom, Bool.and_eq_true, decide_eq_true_eq] at h
    have hk : k ≠ i := by omega
    rw [Memory.read?, if_neg hk]
    exact ih h.2 (by omega)

theorem Memory.ext_of_risesFrom {m m' : Memory} {n : Nat} (h : Memory.risesFrom n m = true)
    (h' : Memory.risesFrom n m' = true) (hr : ∀ i, Memory.read? m i = Memory.read? m' i) :
    m = m' := by
  induction m generalizing m' n with
  | nil =>
    cases m' with
    | nil => rfl
    | cons c rest =>
      have := hr c.1
      simp [Memory.read?] at this
  | cons c rest ih =>
    obtain ⟨k, w⟩ := c
    cases m' with
    | nil => have := hr k; simp [Memory.read?] at this
    | cons c' rest' =>
      obtain ⟨k', w'⟩ := c'
      simp only [Memory.risesFrom, Bool.and_eq_true, decide_eq_true_eq] at h h'
      have hkk : k = k' := by
        by_contra hne
        rcases Nat.lt_or_gt_of_ne hne with hlt | hgt
        · have h1 := hr k
          rw [Memory.read?, if_pos rfl, Memory.read?, if_neg (by omega),
            Memory.read?_eq_none_of_risesFrom h'.2 (by omega)] at h1
          cases h1
        · have h1 := hr k'
          rw [Memory.read?, if_neg (by omega), Memory.read?_eq_none_of_risesFrom h.2 (by omega),
            Memory.read?, if_pos rfl] at h1
          cases h1
      subst hkk
      have hw : w = w' := by
        have h1 := hr k
        simpa [Memory.read?] using h1
      subst hw
      have htail : rest = rest' := by
        refine ih h.2 h'.2 (fun i => ?_)
        by_cases hik : k = i
        · subst hik
          rw [Memory.read?_eq_none_of_risesFrom h.2 (by omega),
            Memory.read?_eq_none_of_risesFrom h'.2 (by omega)]
        · have h1 := hr i
          rwa [Memory.read?, if_neg hik, Memory.read?, if_neg hik] at h1
      rw [htail]

/-- Equal reads mean equal memories, in the canonical form. -/
theorem Memory.ext_of_wf {m m' : Memory} (h : Memory.wf m = true) (h' : Memory.wf m' = true)
    (hr : ∀ i, Memory.read? m i = Memory.read? m' i) : m = m' :=
  Memory.ext_of_risesFrom h h' hr

end Sys2Proof.Machine
end

