-- ==== Sys2Proof/Laws/Ops.lean ====
section
/-! SUPPORT. What the shared operations of Machine/Ops.lean do, said once: the recovery of an error, the
two appends, the runs of the byte spaces, and the memories of a new block. -/

namespace Sys2Proof.Machine

/-! ### Working buffers (R70 to R72) -/

@[simp] theorem Buffer.write_epoch (w : Buffer) (i : Nat) (v : Byte) :
    (w.write i v).epoch = w.epoch := rfl

@[simp] theorem Buffer.forget_epoch (w : Buffer) : w.forget.epoch = w.epoch + 1 := rfl

@[simp] theorem Buffer.read?_forget (w : Buffer) (i : Nat) : w.forget.read? i = none := rfl

@[simp] theorem Buffer.read?_new (i : Nat) : Buffer.new.read? i = none := rfl

theorem Buffer.read?_write (w : Buffer) (a : Nat) (v : Byte) (i : Nat) :
    (w.write a v).read? i = if i = a then some v else w.read? i := Memory.read?_write _ _ _ _

theorem Buffer.wf_forget (cap : Nat) (w : Buffer) : Buffer.wf cap w.forget = true := rfl

theorem Buffer.wf_new (cap : Nat) : Buffer.wf cap Buffer.new = true := rfl

/-- A write inside the space keeps the canonical form and the space. -/
theorem Buffer.wf_write {cap : Nat} {w : Buffer} {i : Nat} (v : Byte) (h : Buffer.wf cap w = true)
    (hi : i < cap) : Buffer.wf cap (w.write i v) = true := by
  simp only [Buffer.wf, Bool.and_eq_true] at h ⊢
  exact ⟨Memory.wf_write i v h.1, Memory.below_write v h.2 hi⟩

/-! ### Raising an error (R420) -/

theorem State.raise_a (s : State) (e : ErrorKind) : s.raise (some .a) e
    = { s with a := { s.a with state := .seekSync, idx := 0 }, wba := s.wba.forget,
               results := .error e :: s.results } := rfl

theorem State.raise_b (s : State) (e : ErrorKind) : s.raise (some .b) e
    = { s with b := { s.b with state := .seekStart }, wbb := s.wbb.forget,
               results := .error e :: s.results } := rfl

theorem State.raise_none (s : State) (e : ErrorKind) : s.raise none e = s.returns (.error e) := rfl

theorem State.raise_results (s : State) (f : Option Framer) (e : ErrorKind) :
    (s.raise f e).results = .error e :: s.results := by
  cases f with
  | none => rfl
  | some f => cases f <;> rfl

/-! ### The appends (R271, R311) -/

theorem State.appendA_full {s : State} (b : Byte) (rest : State → State)
    (h : s.cfg.bufCapA ≤ s.a.wr) : s.appendA b rest = s.raise (some .a) .bufferOverrun := if_pos h

theorem State.appendA_room {s : State} (b : Byte) (rest : State → State)
    (h : s.a.wr < s.cfg.bufCapA) : s.appendA b rest
      = rest { s with wba := s.wba.write s.a.wr b, a := { s.a with wr := s.a.wr + 1 } } :=
  if_neg (Nat.not_le.mpr h)

theorem State.appendB_full {s : State} (c : Byte) (rest : State → State)
    (h : s.cfg.bufCapB ≤ s.b.wr) : s.appendB c rest = s.raise (some .b) .bufferOverrun := if_pos h

theorem State.appendB_room {s : State} (c : Byte) (rest : State → State)
    (h : s.b.wr < s.cfg.bufCapB) : s.appendB c rest
      = rest { s with wbb := s.wbb.write s.b.wr c, b := { s.b with wr := s.b.wr + 1 } } :=
  if_neg (Nat.not_le.mpr h)

/-! ### Runs of the byte spaces -/

@[simp] theorem State.wbaRun_length (s : State) (sl : Slice) : (s.wbaRun sl).length = sl.len := by
  simp [State.wbaRun]

@[simp] theorem State.wbbRun_length (s : State) (sl : Slice) : (s.wbbRun sl).length = sl.len := by
  simp [State.wbbRun]

@[simp] theorem State.outRun_length (s : State) (base len : Nat) :
    (s.outRun base len).length = len := by
  simp [State.outRun]

/-- A run of WBB one byte longer is the run and the next byte. -/
theorem State.wbbRun_succ (s : State) (off len : Nat) :
    s.wbbRun ⟨off, len + 1⟩ = s.wbbRun ⟨off, len⟩ ++ [s.wbbByte (off + len)] := by
  simp [State.wbbRun, List.range_succ]

/-- A run of WBA one byte longer is the run and the next byte. -/
theorem State.wbaRun_succ (s : State) (off len : Nat) :
    s.wbaRun ⟨off, len + 1⟩ = s.wbaRun ⟨off, len⟩ ++ [s.wbaByte (off + len)] := by
  simp [State.wbaRun, List.range_succ]

/-- OUT bytes read back after a run is written over them: the run inside it, the old bytes outside. -/
theorem State.outByte_writeRun (s : State) (base : Nat) (bs : Bytes) (i : Nat) :
    State.outByte { s with out := Memory.writeRun s.out base bs } i
      = if base ≤ i ∧ i < base + bs.length then bs.getD (i - base) 0 else s.outByte i := by
  simp only [State.outByte, Memory.read?_writeRun]
  split
  · rename_i h
    rw [List.getElem?_eq_getElem (by omega), List.getD_eq_getElem _ _ (by omega)]
    rfl
  · rfl

/-- A run of bytes written to OUT reads back as itself. -/
theorem State.outRun_writeRun (s : State) (base : Nat) (bs : Bytes) :
    State.outRun { s with out := Memory.writeRun s.out base bs } base bs.length = bs := by
  apply List.ext_getElem?
  intro i
  by_cases h : i < bs.length
  · simp [State.outRun, State.outByte_writeRun, h]
  · simp [h]

/-! ### Memories keep their canonical form -/

theorem State.scribbleOut_out_wf {s : State} (base len : Nat) (h : Memory.wf s.out = true) :
    Memory.wf (s.scribbleOut base len).out = true := Memory.wf_writeRun _ _ h

/-- A new block is a new life of the same block, with nothing stored in its buffers. -/
theorem State.create_inst (s : State) (cfg : Config) (crcx : List Byte) :
    (s.create cfg crcx).inst = { s.inst with life := s.inst.life + 1 } := rfl

theorem State.create_memories (s : State) (cfg : Config) (crcx : List Byte) :
    (s.create cfg crcx).wba = Buffer.new ∧ (s.create cfg crcx).wbb = Buffer.new
      ∧ (s.create cfg crcx).out = s.out := ⟨rfl, rfl, rfl⟩

/-- The memories right after reset are in canonical form. -/
theorem State.reset_memories_wf :
    Buffer.wf State.reset.cfg.bufCapA State.reset.wba = true
      ∧ Buffer.wf State.reset.cfg.bufCapB State.reset.wbb = true ∧ Memory.wf State.reset.out = true := ⟨rfl, rfl, rfl⟩

end Sys2Proof.Machine
end

