-- ==== Sys2Proof/Laws/FramerA.lean ====
section
/-! SUPPORT. What a step of Framer-A can do (44_binary_framer.md), said once: it changes the framer's
registers, stores at most one byte, and adds one result. -/

namespace Sys2Proof.Machine

/-- The buffer with byte `v` stored at the index, if there is one. -/
def storeAt (w : Buffer) (v : Byte) : Option Nat → Buffer
  | none => w
  | some i => w.write i v

/-- `w` is the buffer `w₀` before a push that ends with `r` stores its byte at the index `i`: the same
buffer when `r` is no error, one whose contents became unspecified when it is, and then nothing is stored
(R420). -/
def bufferFor (r : Result) (i : Option Nat) (w₀ w : Buffer) : Prop :=
  (w = w₀ ∧ ∀ e, r ≠ .error e) ∨ (w = w₀.forget ∧ i = none ∧ ∃ e, r = .error e)

theorem bufferFor.same {r : Result} {i : Option Nat} (w : Buffer) (h : ∀ e, r ≠ .error e) :
    bufferFor r i w w := .inl ⟨rfl, h⟩

theorem bufferFor.error (e : ErrorKind) (w : Buffer) : bufferFor (.error e) none w w.forget :=
  .inr ⟨rfl, rfl, e, rfl⟩

/-- `t` is `s` with other Framer-A registers of the same generation, one more result, WBA as the result
leaves it, and the byte `v` stored at the index `i` if there is one. -/
def EndsA (v : Byte) (i : Option Nat) (s t : State) : Prop :=
  ∃ a w r, t = { s with a := a, wba := storeAt w v i, results := r :: s.results }
    ∧ a.gen = s.a.gen ∧ bufferFor r i s.wba w

theorem EndsA.of_raise (v : Byte) (s : State) (e : ErrorKind) :
    EndsA v none s (s.raise (some .a) e) := ⟨_, _, _, rfl, rfl, .error e _⟩

theorem EndsA.of_none (v : Byte) (s : State) : EndsA v none s (s.returns .noMessage) :=
  ⟨_, _, _, rfl, rfl, .same _ nofun⟩

/-- An append stores the byte when there is room, provided the rest of the push raises nothing. -/
theorem EndsA.of_appendA (b : Byte) (s : State) {rest : State → State}
    (h : ∀ s', ∃ a r, rest s' = { s' with a := a, results := r :: s'.results }
      ∧ a.gen = s'.a.gen ∧ ∀ e, r ≠ .error e) :
    EndsA b (if s.a.wr < s.cfg.bufCapA then some s.a.wr else none) s (s.appendA b rest) := by
  by_cases hc : s.a.wr < s.cfg.bufCapA
  · rw [State.appendA_room b rest hc, if_pos hc]
    obtain ⟨a, r, e, hg, hr⟩ :=
      h { s with wba := s.wba.write s.a.wr b, a := { s.a with wr := s.a.wr + 1 } }
    exact ⟨a, s.wba, r, by rw [e]; rfl, hg, .same _ hr⟩
  · rw [State.appendA_full b rest (by omega), if_neg hc]
    exact .of_raise b s _

theorem noneA_eq (s : State) (a : FramerA) :
    noneA s a = { s with a := a, results := .noMessage :: s.results } := rfl

theorem emitA_eq (s : State) (a : FramerA) : emitA (s.setA a)
    = { s with a := { a with state := .seekSync, idx := 0 },
               results := .viewA (viewOf s.inst a) :: s.results } := rfl

theorem storeHeader_gen (a : FramerA) (b : Byte) : (storeHeader a b).gen = a.gen := by
  unfold storeHeader; split <;> rfl

theorem storeHeader_keeps (a : FramerA) (b : Byte) :
    (storeHeader a b).state = a.state ∧ (storeHeader a b).ver = a.ver ∧ (storeHeader a b).n = a.n
      ∧ (storeHeader a b).idx = a.idx ∧ (storeHeader a b).incompat = a.incompat
      ∧ (storeHeader a b).wr = a.wr ∧ (storeHeader a b).poff = a.poff := by
  unfold storeHeader; split <;> simp

/-- A marker starts a frame: WBA is unspecified but for the marker, which overruns only a buffer of no
bytes. -/
theorem EndsA.of_startFrame (v : Ver) (b : Byte) (s : State) :
    EndsA b (if 0 < s.cfg.bufCapA then some 0 else none) (s.setWba s.wba.forget)
      (startFrame v b s) :=
  EndsA.of_appendA b ((s.setWba s.wba.forget).setA { s.a with ver := v, wr := 0 })
    (fun _ => ⟨_, _, rfl, rfl, nofun⟩)

/-- One step of Framer-A that starts no frame, whatever its state. -/
theorem EndsA.of_dispatchA {b : Byte} {s : State} (h : ¬ startsFrame b s) :
    EndsA b (storedAtA b s) s (dispatchA b s) := by
  unfold dispatchA storedAtA
  cases hs : s.a.state <;> simp only
  case seekSync =>
    have h1 : b ≠ 0xFD := fun e => h ⟨hs, .inl e⟩
    have h2 : b ≠ 0xFE := fun e => h ⟨hs, .inr e⟩
    rw [stepSeekSync, if_neg h1, if_neg h2, if_neg (fun e => e.1.elim h1 h2)]
    exact .of_none b s
  all_goals refine .of_appendA b s fun s' => ?_
  case readLength => exact ⟨_, _, rfl, rfl, nofun⟩
  case readV2Flags => split <;> exact ⟨_, _, rfl, rfl, nofun⟩
  case readCoreHeader =>
    simp only; split <;> exact ⟨_, _, rfl, storeHeader_gen _ _, nofun⟩
  case readPayload => split <;> exact ⟨_, _, rfl, rfl, nofun⟩
  case readChecksum =>
    split
    · exact ⟨_, _, rfl, rfl, nofun⟩
    · simp only; split <;> exact ⟨_, _, rfl, rfl, nofun⟩
  case readSignature => simp only; split <;> exact ⟨_, _, rfl, rfl, nofun⟩

/-- One step of Framer-A that starts a frame. -/
theorem EndsA.of_dispatchA_start {b : Byte} {s : State} (h : startsFrame b s) :
    EndsA b (storedAtA b s) (s.setWba s.wba.forget) (dispatchA b s) := by
  obtain ⟨hs, hb⟩ := h
  simp only [dispatchA, storedAtA, hs, hb, true_and, stepSeekSync]
  by_cases h : b = 0xFD
  · rw [if_pos h]; exact .of_startFrame .v2 b s
  · rw [if_neg h, if_pos (hb.resolve_left h)]; exact .of_startFrame .v1 b s

end Sys2Proof.Machine
end

