-- ==== Sys2Proof/Laws/FramerB.lean ====
section
/-! SUPPORT. What a step of Framer-B can do (45_text_framer.md), said once: it changes the framer's
registers, stores at most one character, and adds one result. -/

namespace Sys2Proof.Machine

/-- `t` is `s` with other Framer-B registers of the same generation, one more result, WBB as the result
leaves it, and the character `v` stored at the index `i` if there is one. -/
def EndsB (v : Byte) (i : Option Nat) (s t : State) : Prop :=
  ∃ b w r, t = { s with b := b, wbb := storeAt w v i, results := r :: s.results }
    ∧ b.gen = s.b.gen ∧ bufferFor r i s.wbb w

theorem EndsB.of_noneB (v : Byte) (s : State) {b : FramerB} (h : b.gen = s.b.gen) :
    EndsB v none s (noneB s b) := ⟨b, _, _, rfl, h, .same _ nofun⟩

theorem EndsB.of_raise (v : Byte) (s : State) (e : ErrorKind) :
    EndsB v none s (s.raise (some .b) e) := ⟨_, _, _, rfl, rfl, .error e _⟩

theorem EndsB.of_returns (v : Byte) (s : State) {r : Result} (h : ∀ e, r ≠ .error e) :
    EndsB v none s (s.returns r) := ⟨_, _, _, rfl, rfl, .same _ h⟩

theorem EndsB.of_setB {v : Byte} {i : Option Nat} {s t : State} {b : FramerB}
    (h : EndsB v i (s.setB b) t) (hg : b.gen = s.b.gen) : EndsB v i s t := by
  obtain ⟨b', w, r, e, h, hw⟩ := h
  exact ⟨b', w, r, e, h.trans hg, hw⟩

/-- An append stores the character when there is room, provided the rest of the push raises nothing. -/
theorem EndsB.of_appendB (c : Byte) (s : State) {rest : State → State}
    (h : ∀ s', ∃ b r, rest s' = { s' with b := b, results := r :: s'.results }
      ∧ b.gen = s'.b.gen ∧ ∀ e, r ≠ .error e) :
    EndsB c (if s.b.wr < s.cfg.bufCapB then some s.b.wr else none) s (s.appendB c rest) := by
  by_cases hc : s.b.wr < s.cfg.bufCapB
  · rw [State.appendB_room c rest hc, if_pos hc]
    obtain ⟨b, r, e, hg, hr⟩ :=
      h { s with wbb := s.wbb.write s.b.wr c, b := { s.b with wr := s.b.wr + 1 } }
    exact ⟨b, s.wbb, r, by rw [e]; rfl, hg, .same _ hr⟩
  · rw [State.appendB_full c rest (by omega), if_neg hc]
    exact .of_raise c s _

/-- The close of a field either ends the sentence, or goes on with the registers `closedB` gives. -/
theorem closeField_eq (s : State) (rest : State → State) : closeField s rest
    = if shortHeaderStops s = true then
        (s.setB { s.b with hdr := true }).raise (some .b) .protocolViolation
      else rest (s.setB (closedB s)) := by
  unfold closeField shortHeaderStops closedB
  cases s.b.hdr
  · simp only [Bool.not_false, Bool.true_and, Bool.and_eq_true, decide_eq_true_eq,
      Bool.false_eq_true, if_false]
    by_cases h : 5 ≤ s.b.wr - s.b.fstart
    · rw [if_pos h, if_neg (by omega), if_pos h]
    · rw [if_neg h]
      cases hp : s.cfg.shortHeader
      · rw [if_pos (by simp; omega)]
      · rw [if_neg (by simp), if_neg h]
  · simp only [Bool.not_true, Bool.false_and, if_true, Bool.false_eq_true, if_false]
    split <;> rfl

theorem closedB_keeps (s : State) : (closedB s).state = s.b.state ∧ (closedB s).xor = s.b.xor
    ∧ (closedB s).wr = s.b.wr ∧ (closedB s).fstart = s.b.fstart ∧ (closedB s).hex = s.b.hex
    ∧ (closedB s).idx = s.b.idx ∧ (closedB s).gen = s.b.gen := by
  unfold closedB; simp only; split_ifs <;> simp

/-- A body character: a line feed, a star, a comma, or any other. -/
theorem EndsB.of_stepFields (c : Byte) (s : State) :
    EndsB c (if c = chr '\n' ∨ c = chr '*' then none
      else if c = chr ',' ∧ shortHeaderStops s = true then none
      else if s.b.wr < s.cfg.bufCapB then some s.b.wr else none) s (stepFields c s) := by
  unfold stepFields
  by_cases h1 : c = chr '\n'
  · rw [if_pos h1, if_pos (.inl h1)]; exact .of_raise c s _
  rw [if_neg h1]
  by_cases h2 : c = chr '*'
  · rw [if_pos h2, if_pos (.inr h2)]
    unfold stepStar
    rw [closeField_eq]
    split
    · exact .of_setB (.of_raise c _ _) rfl
    · exact .of_setB (.of_noneB c _ rfl) (closedB_keeps s).2.2.2.2.2.2
  rw [if_neg h2, if_neg (by simp [h1, h2])]
  simp only
  by_cases h3 : c = chr ','
  · rw [if_pos h3]
    subst h3
    simp only [true_and]
    unfold stepComma
    rw [closeField_eq]
    have folded : shortHeaderStops (s.setB { s.b with xor := s.b.xor ^^^ chr ',' })
        = shortHeaderStops s := rfl
    rw [folded]
    by_cases h4 : shortHeaderStops s = true
    · rw [if_pos h4, if_pos h4]
      exact .of_setB (.of_setB (.of_raise _ _ _) rfl) rfl
    · rw [if_neg h4, if_neg h4]
      have h5 := EndsB.of_appendB (chr ',')
        ((s.setB { s.b with xor := s.b.xor ^^^ chr ',' }).setB
          (closedB (s.setB { s.b with xor := s.b.xor ^^^ chr ',' })))
        (rest := fun s => noneB s { s.b with fstart := s.b.wr }) (fun _ => ⟨_, _, rfl, rfl, nofun⟩)
      have h6 := EndsB.of_setB (EndsB.of_setB h5 (closedB_keeps _).2.2.2.2.2.2) rfl
      simpa [(closedB_keeps _).2.2.1] using h6
  · rw [if_neg h3, if_neg (by simp [h3])]
    exact .of_setB (.of_appendB c _ fun _ => ⟨_, _, rfl, rfl, nofun⟩) rfl

/-- One step of Framer-B that starts no sentence, whatever its state. -/
theorem EndsB.of_dispatchB {c : Byte} {s : State} (h : ¬ startsSentence c s) :
    EndsB c (storedAtB c s) s (dispatchB c s) := by
  unfold dispatchB storedAtB
  cases hs : s.b.state <;> simp only
  case seekStart =>
    have hc : ¬ (c = chr '$' ∨ c = chr '!') := fun e => h ⟨hs, e⟩
    rw [stepSeekStart, if_neg hc]
    exact .of_returns c s nofun
  case readFields => exact .of_stepFields c s
  case readChecksumHex => unfold stepHex; split <;> exact .of_noneB c s rfl
  case readCRLF =>
    unfold stepCRLF validateB
    split
    · split
      · exact .of_noneB c s rfl
      · exact .of_raise c s _
    · split
      · split
        · exact .of_raise c s _
        · split
          · exact .of_setB (.of_returns c _ nofun) rfl
          · exact .of_raise c s _
      · exact .of_raise c s _

/-- One step of Framer-B that starts a sentence: WBB is unspecified and nothing is stored. -/
theorem EndsB.of_dispatchB_start {c : Byte} {s : State} (h : startsSentence c s) :
    EndsB c (storedAtB c s) (s.setWbb s.wbb.forget) (dispatchB c s) := by
  obtain ⟨hs, hc⟩ := h
  have hc' : c = chr '$' ∨ c = chr '!' := hc
  simp only [dispatchB, storedAtB, hs, stepSeekStart, if_pos hc']
  exact .of_noneB c (s.setWbb s.wbb.forget) rfl

end Sys2Proof.Machine
end

