-- ==== Sys2Proof/Laws/Hex.lean ====
section
/-! SUPPORT. The hex digit functions against the digit tables of Safety.lean (41_xor_checksum.md R184,
R185). -/

namespace Sys2Proof.Machine

theorem spellsHex_lt {c : Byte} {n : Nat} (h : spellsHex c n) : n < 16 := by
  have h1 : hexUpper.length = 16 := rfl
  have h2 : hexLower.length = 16 := rfl
  rcases h with h | h
  · have := (List.getElem?_eq_some_iff.1 h).1; omega
  · have := (List.getElem?_eq_some_iff.1 h).1; omega

theorem hexVal_spells {c n : Byte} (h : hexVal c = some n) : spellsHex c n.toNat := by
  have all : ∀ c : Byte, (hexVal c).all (fun n =>
      hexUpper[n.toNat]? == some c || hexLower[n.toNat]? == some c) = true := by decide +kernel
  simpa [h, spellsHex] using all c

theorem hexVal_of_spells {c : Byte} {n : Nat} (h : spellsHex c n) :
    hexVal c = some (BitVec.ofNat 8 n) := by
  have all : ∀ c : Byte, ∀ n < 16, (hexUpper[n]? = some c ∨ hexLower[n]? = some c) →
      hexVal c = some (BitVec.ofNat 8 n) := by decide +kernel
  exact all c n (spellsHex_lt h) h

/-- Two characters that spell hex digits give the byte, high nibble first. -/
theorem hexByte_of_spells {c0 c1 : Byte} {h l : Nat} (h0 : spellsHex c0 h) (h1 : spellsHex c1 l) :
    hexByte c0 c1 = some (BitVec.ofNat 8 (16 * h + l)) := by
  have nibbles : ∀ h < 16, ∀ l < 16, ((BitVec.ofNat 8 h <<< 4) ||| BitVec.ofNat 8 l)
      = BitVec.ofNat 8 (16 * h + l) := by decide +kernel
  simp [hexByte, hexVal_of_spells h0, hexVal_of_spells h1,
    nibbles h (spellsHex_lt h0) l (spellsHex_lt h1)]

/-- Otherwise there is no byte. -/
theorem hexByte_eq_none {c0 c1 : Byte} (h : ¬ ∃ h l : Nat, spellsHex c0 h ∧ spellsHex c1 l) :
    hexByte c0 c1 = none := by
  unfold hexByte
  cases e0 : hexVal c0 with
  | none => rfl
  | some a =>
    cases e1 : hexVal c1 with
    | none => rfl
    | some b => exact absurd ⟨_, _, hexVal_spells e0, hexVal_spells e1⟩ h

/-- The digit of a nibble is the table's entry. -/
theorem hexDigit_eq : ∀ n < 16, hexUpper[n]? = some (hexDigit n) := by decide

@[simp] theorem hexPair_length (v : Byte) : (hexPair v).length = 2 := rfl

/-- The emitted pair of a byte is accepted back as that byte. -/
theorem hexByte_hexPair : ∀ v : Byte,
    hexByte (hexDigit (v.toNat / 16)) (hexDigit (v.toNat % 16)) = some v := by decide +kernel

theorem xorFold_append (r q : Bytes) (x : Byte) :
    xorFold (r ++ q) x = xorFold q (xorFold r x) := by
  simp [xorFold]

theorem crcFold_append (r q : Bytes) (c : Half) :
    crcFold (r ++ q) c = crcFold q (crcFold r c) := by
  simp [crcFold]

end Sys2Proof.Machine
end

