-- ==== Sys2Proof/Laws/PerInstr.lean ====
section
/-! SUPPORT. The family CodeRange, one lemma per command: the code a command is issued with is one of
the defined ones, its unit field is one of the eight units, and its operation field is at most 5
(30_encoding.md R100 to R102). -/

namespace Sys2Proof.Laws.CodeRange

open Sys2Proof Sys2Proof.Machine

/-- The code of `i` is defined, and its two fields lie in the ranges of the table of R101. -/
def Statement (i : Instr) : Prop :=
  (encode i).code ∈ definedCodes ∧ codeUnit (encode i).code ≤ 7 ∧ codeOp (encode i).code ≤ 5

theorem crcInit : Statement .crcInit := by
  simp [Statement, encode, definedCodes, codeUnit, codeOp]

theorem crcLoad (v : Half) : Statement (.crcLoad v) := by
  simp [Statement, encode, definedCodes, codeUnit, codeOp]

theorem crcAcc (b : Byte) : Statement (.crcAcc b) := by
  simp [Statement, encode, definedCodes, codeUnit, codeOp]

theorem crcAccBuf (run : Bytes) : Statement (.crcAccBuf run) := by
  simp [Statement, encode, definedCodes, codeUnit, codeOp]

theorem crcAccStr (s : Bytes) : Statement (.crcAccStr s) := by
  simp [Statement, encode, definedCodes, codeUnit, codeOp]

theorem crcExtra (d : Nat) : Statement (.crcExtra d) := by
  simp [Statement, encode, definedCodes, codeUnit, codeOp]

theorem xorInit : Statement .xorInit := by
  simp [Statement, encode, definedCodes, codeUnit, codeOp]

theorem xorAcc (b : Byte) : Statement (.xorAcc b) := by
  simp [Statement, encode, definedCodes, codeUnit, codeOp]

theorem xorRun (run : Bytes) : Statement (.xorRun run) := by
  simp [Statement, encode, definedCodes, codeUnit, codeOp]

theorem hexEnc (v : Byte) : Statement (.hexEnc v) := by
  simp [Statement, encode, definedCodes, codeUnit, codeOp]

theorem hexDec (c0 c1 : Byte) : Statement (.hexDec c0 c1) := by
  simp [Statement, encode, definedCodes, codeUnit, codeOp]

theorem binEnc (ptype count : Nat) (x : BinVal) : Statement (.binEnc ptype count x) := by
  simp [Statement, encode, definedCodes, codeUnit, codeOp]

theorem binDec (ptype count : Nat) (bs : Bytes) : Statement (.binDec ptype count bs) := by
  simp [Statement, encode, definedCodes, codeUnit, codeOp]

theorem txtFmt (fd : TxtField) (x : Option TxtVal) : Statement (.txtFmt fd x) := by
  simp [Statement, encode, definedCodes, codeUnit, codeOp]

theorem txtParse (kind : TxtKind) (tok : Tok) : Statement (.txtParse kind tok) := by
  simp [Statement, encode, definedCodes, codeUnit, codeOp]

theorem fraReset : Statement .fraReset := by
  simp [Statement, encode, definedCodes, codeUnit, codeOp]

theorem fraPush (b : Byte) : Statement (.fraPush b) := by
  simp [Statement, encode, definedCodes, codeUnit, codeOp]

theorem frbReset : Statement .frbReset := by
  simp [Statement, encode, definedCodes, codeUnit, codeOp]

theorem frbPush (c : Byte) : Statement (.frbPush c) := by
  simp [Statement, encode, definedCodes, codeUnit, codeOp]

theorem sera (d : Nat) (rec : List (Option BinVal)) (sys comp seq : Byte) (out : OutBuf) :
    Statement (.sera d rec sys comp seq out) := by
  simp [Statement, encode, definedCodes, codeUnit, codeOp]

theorem desera (d : Nat) (view : BinView) : Statement (.desera d view) := by
  simp [Statement, encode, definedCodes, codeUnit, codeOp]

theorem serb (d : Nat) (talker : Bytes) (rec : List (Option TxtVal)) (out : OutBuf) :
    Statement (.serb d talker rec out) := by
  simp [Statement, encode, definedCodes, codeUnit, codeOp]

theorem bindb (d : Nat) (view : TxtView) : Statement (.bindb d view) := by
  simp [Statement, encode, definedCodes, codeUnit, codeOp]

end Sys2Proof.Laws.CodeRange
end

