-- ==== Sys2Proof/Laws/TxtCodec.lean ====
section
/-! SUPPORT. The decimal numerals and integer tokens of the text codec (43_text_field_codec.md R232,
R241), against the grammar of Safety.lean. -/

namespace Sys2Proof.Machine

theorem chr_digitChar : ∀ d < 10, chr (Nat.digitChar d) = decDigit d := by decide

theorem decFuel_eq_numeral {fuel n : Nat} (h : n < 10 ^ (fuel + 1)) :
    decFuel fuel n = numeral n := by
  induction fuel generalizing n with
  | zero =>
    simp at h
    simp [decFuel, numeral, Nat.toDigits_of_lt_base h, chars, Nat.mod_eq_of_lt h,
      chr_digitChar n h]
  | succ k ih =>
    rw [decFuel, numeral, Nat.toDigits_eq_if (by omega)]
    split
    · simp [chars, chr_digitChar n ‹_›]
    · rw [ih (by rw [Nat.div_lt_iff_lt_mul (by omega)]; rw [pow_succ] at h; exact h)]
      simp [numeral, chars, chr_digitChar (n % 10) (by omega)]

/-- `Dec(n)` is the decimal numeral. -/
theorem dec_eq_numeral (n : Nat) : dec n = numeral n :=
  decFuel_eq_numeral (lt_of_lt_of_le (Nat.lt_pow_self (by omega : 1 < 10))
    (Nat.pow_le_pow_right (by omega) (by omega)))

/-- A numeral is a non-empty string of digits that spells its number. -/
theorem numeral_spec (n : Nat) :
    (numeral n).all isDigit = true ∧ digitsValue (numeral n) = n ∧ numeral n ≠ [] := by
  have digit : ∀ d < 10, isDigit (decDigit d) = true ∧ (decDigit d).toNat - 0x30 = d := by decide
  induction n using Nat.strong_induction_on with
  | _ n ih =>
    rw [numeral, Nat.toDigits_eq_if (by omega)]
    split
    · rename_i h
      simp [chars, chr_digitChar n h, digitsValue, digit n h]
    · rename_i h
      obtain ⟨h1, h2, h3⟩ := ih (n / 10) (by omega)
      simp only [numeral, chars, digitsValue] at h1 h2 h3
      have hd := digit (n % 10) (by omega)
      have hc := chr_digitChar (n % 10) (by omega)
      refine ⟨?_, ?_, by simp [chars]⟩
      · simp only [chars, List.map_append, List.all_append, h1]
        simp [hc, hd]
      · simp only [chars, digitsValue, List.map_append, List.foldl_append, h2]
        simp [hc, hd]
        omega

theorem digitVal_eq : ∀ c : Byte,
    digitVal c = if isDigit c = true then some (c.toNat - 0x30) else none := by decide +kernel

theorem natFrom_eq (bs : Bytes) (acc : Nat) :
    natFrom acc bs = if bs.all isDigit = true
      then some (bs.foldl (fun n c => 10 * n + (c.toNat - 0x30)) acc) else none := by
  induction bs generalizing acc with
  | nil => simp [natFrom]
  | cons c bs ih =>
    simp only [natFrom, digitVal_eq]
    by_cases h : isDigit c = true
    · simp [h, ih, Nat.mul_comm]
    · simp [h]

theorem parseNat_eq (bs : Bytes) : parseNat bs
    = if bs ≠ [] ∧ bs.all isDigit = true then some (digitsValue bs) else none := by
  unfold parseNat digitsValue
  rw [natFrom_eq]
  by_cases h : bs = [] <;> simp [h]

/-- The integer parser reads exactly the tokens of the grammar. -/
theorem parseInt_eq (signed : Bool) (bs : Bytes) : parseInt signed bs
    = if isIntToken signed bs = true then some (tokenInt bs) else none := by
  cases bs with
  | nil => simp [parseInt, takeMinus, parseNat_eq, isIntToken]
  | cons c rest =>
    by_cases h : c = 0x2D
    · subst h
      simp only [parseInt, takeMinus, isIntToken, tokenInt, List.head?_cons, List.tail_cons,
        if_pos, show (chr '-' : Byte) = 0x2D from rfl, parseNat_eq]
      cases signed <;> simp
      split <;> simp
    · have h2 : ¬ c = chr '-' := h
      simp only [parseInt, takeMinus, if_neg h2, isIntToken, tokenInt, List.head?_cons,
        parseNat_eq, Option.some.injEq, if_neg h]
      split <;> simp_all

theorem kindSigned_eq {k : TxtKind} {lo hi : Int} (h : kindRange k = some (lo, hi)) :
    kindSigned k = decide (lo < 0) := by simp [kindSigned, h]

theorem kindHolds_eq {k : TxtKind} {lo hi : Int} (v : Int) (h : kindRange k = some (lo, hi)) :
    kindHolds k v = decide (lo ≤ v ∧ v ≤ hi) := by simp [kindHolds, h]

theorem pad_length (s : Bytes) (w : Nat) : (pad s w).length = max w s.length := by
  simp [pad]; omega

/-- The rounding to a natural is to the nearest, a tie going to the even one. -/
theorem roundHalfEven_spec (num : Nat) {den : Nat} (h : 0 < den) :
    2 * num ≤ (2 * roundHalfEven num den + 1) * den
      ∧ (2 * roundHalfEven num den) * den ≤ 2 * num + den
      ∧ (2 * num = (2 * roundHalfEven num den + 1) * den
          ∨ (2 * roundHalfEven num den) * den = 2 * num + den →
        roundHalfEven num den % 2 = 0) := by
  have hq := Nat.div_add_mod num den
  have hr := Nat.mod_lt num h
  unfold roundHalfEven
  simp only
  generalize num / den = q at *
  generalize num % den = r at *
  subst hq
  split
  · refine ⟨by nlinarith, by nlinarith, ?_⟩
    rintro (e | e) <;> exfalso <;> nlinarith
  · split
    · refine ⟨by nlinarith, by nlinarith, ?_⟩
      rintro (e | e) <;> exfalso <;> nlinarith
    · have hd : den = 2 * r := by omega
      split
      · rename_i he
        exact ⟨by nlinarith, by nlinarith, fun _ => he⟩
      · refine ⟨by nlinarith, by nlinarith, fun _ => by omega⟩

end Sys2Proof.Machine
end

