-- ==== Sys2Proof/Tests/Slice0.lean ====
section
/-! SUPPORT. The model's own tests. Expected results come from spec/95_test_vectors.md (named V-…, E…)
or from the rule a comment names. The theorems witness_… show that the hypotheses of the statements in
Certificates/Slice0/Obligations.lean can be met together. -/

namespace Sys2Proof.Tests

open Sys2Proof Sys2Proof.Machine

/-! ### The small states the tests run on -/

/-- CHANGE_OPERATOR_CONTROL_ACK of 95_test_vectors.md 0.1. -/
def coca : BinMsg where
  name := chars ['C', 'H', 'A', 'N', 'G', 'E', '_', 'O', 'P', 'E', 'R', 'A', 'T', 'O', 'R', '_',
    'C', 'O', 'N', 'T', 'R', 'O', 'L', '_', 'A', 'C', 'K']
  msgid := 6
  fields := [⟨chars ['g', 'c', 's', '_', 's', 'y', 's', 't', 'e', 'm', '_', 'i', 'd'], 1, 0⟩,
    ⟨chars ['c', 'o', 'n', 't', 'r', 'o', 'l', '_', 'r', 'e', 'q', 'u', 'e', 's', 't'], 1, 0⟩,
    ⟨chars ['a', 'c', 'k'], 1, 0⟩]

/-- ROT of 95_test_vectors.md 0.2. -/
def rot : TxtMsg where
  sid := chars ['R', 'O', 'T']
  fields := [⟨chars ['r', 'a', 't', 'e'], .float32, 1, 0⟩,
    ⟨chars ['s', 't', 'a', 't', 'u', 's'], .char, 0, 0⟩]

/-- The default parameters with these two messages. -/
def testCfg : Config := { Config.default with binMsgs := [coca], txtMsgs := [rot] }

/-- An elaborated block with nothing in its framers; `CRCX` of COCA is 104 (95_test_vectors.md 0.1). -/
def idle : State := { State.reset with cfg := testCfg, crcx := [104] }

/-- `idle` with Framer-A in a state of a v2 frame. -/
def inA (st : SyncState) (n : Byte) (idx wr : Nat) (incompat : Byte) : State :=
  { idle with a := { idle.a with state := st, ver := .v2, n := n, idx := idx, wr := wr,
                                 incompat := incompat, poff := 10, msgid := 6, sys := 0xFF,
                                 comp := 0xBE, seq := 7, ck := 0x00D7 } }

/-- `idle` with Framer-B in a state of a sentence. -/
def inB (st : TextState) (hdr : Bool) (idx wr : Nat) (xor : Byte) (hex : Byte × Byte) : State :=
  { idle with b := { idle.b with state := st, hdr := hdr, idx := idx, wr := wr, xor := xor,
                                 hex := hex, talker := [0x48, 0x45], sid := [0x52, 0x4F, 0x54] } }

/-- The view of the COCA frame V-SA3, emitted by the push of generation 13. -/
def cocaView : BinView where
  ver := .v2
  msgid := 6
  sys := 0xFF
  comp := 0xBE
  seq := 7
  payload := ⟨10, 1⟩
  checksum := 0x67D7
  incompat := 0
  compat := 0
  sig := ⟨0, 0⟩
  gen := 13
  origin := ⟨0, 0⟩

/-- A block that has just emitted `cocaView`: the frame V-SA3 stands in WBA. -/
def afterA : State :=
  { idle with
    a := { (inA .seekSync 1 0 13 0).a with gen := 13, ck := 0x67D7 },
    wba := ⟨[(0, 0xFD), (1, 0x01), (2, 0x00), (3, 0x00), (4, 0x07), (5, 0xFF), (6, 0xBE), (7, 0x06),
      (8, 0x00), (9, 0x00), (10, 0xFF), (11, 0xD7), (12, 0x67)], 1⟩,
    results := [.viewA cocaView] }

/-- The view of `$HEROT,-1.5*6F` (E5), emitted by the push of generation 16. -/
def rotView : TxtView where
  talker := [0x48, 0x45]
  sid := [0x52, 0x4F, 0x54]
  fields := [⟨6, 4⟩]
  fieldCount := 1
  gen := 16
  origin := ⟨0, 0⟩

/-- A block that has just emitted `rotView`: the body stands in WBB. -/
def afterB : State :=
  { idle with
    b := { (inB .seekStart true 1 10 0x6F (0x36, 0x46)).b with
      gen := 16, fstart := 6, fcount := 1, flist := ⟨6, 4⟩ :: List.replicate 31 ⟨0, 0⟩ },
    wbb := ⟨[(0, 0x48), (1, 0x45), (2, 0x52), (3, 0x4F), (4, 0x54), (5, 0x2C), (6, 0x2D), (7, 0x31),
      (8, 0x2E), (9, 0x35)], 1⟩,
    results := [.viewB rotView] }

/-- The result a command returns, if it completes. -/
def resultOf (o : Host.Outcome State Fault Refusal) : Option Result :=
  match o with
  | .next s => s.results.head?
  | _ => none

/-- The fault a command ends in. -/
def faultOf (o : Host.Outcome State Fault Refusal) : Option Fault :=
  match o with
  | .fault f => some f
  | _ => none

/-- The refusal a command ends in. -/
def refusalIn (o : Host.Outcome State Fault Refusal) : Option Refusal :=
  match o with
  | .refused r => some r
  | _ => none

/-- A part of the state a command leaves, if it completes. -/
def leaves {α : Type} (f : State → α) (o : Host.Outcome State Fault Refusal) : Option α :=
  match o with
  | .next s => some (f s)
  | _ => none

/-! ### Decoding: code words written out from 30_encoding.md R100 and R101 -/

theorem test_decode_crc :
    decode ⟨0b00000000, .nil⟩ = .ok .crcInit
      ∧ decode ⟨0b00000001, .half 0x1234⟩ = .ok (.crcLoad 0x1234)
      ∧ decode ⟨0b00000010, .byte 0x41⟩ = .ok (.crcAcc 0x41)
      ∧ decode ⟨0b00000011, .run [1, 2]⟩ = .ok (.crcAccBuf [1, 2])
      ∧ decode ⟨0b00000100, .run [0x58]⟩ = .ok (.crcAccStr [0x58])
      ∧ decode ⟨0b00000101, .index 3⟩ = .ok (.crcExtra 3) := by decide

theorem test_decode_xor :
    decode ⟨0b00010000, .nil⟩ = .ok .xorInit
      ∧ decode ⟨0b00010001, .byte 0x47⟩ = .ok (.xorAcc 0x47)
      ∧ decode ⟨0b00010010, .run [0x47]⟩ = .ok (.xorRun [0x47])
      ∧ decode ⟨0b00010011, .byte 0x6F⟩ = .ok (.hexEnc 0x6F)
      ∧ decode ⟨0b00010100, .pair 0x34 0x37⟩ = .ok (.hexDec 0x34 0x37) := by decide

theorem test_decode_codecs :
    decode ⟨0b00100000, .binValue 5 0 (.scalar 1)⟩ = .ok (.binEnc 5 0 (.scalar 1))
      ∧ decode ⟨0b00100001, .binBytes 5 0 [1]⟩ = .ok (.binDec 5 0 [1])
      ∧ decode ⟨0b00110000, .txtValue ⟨[], .char, 0, 0⟩ none⟩ = .ok (.txtFmt ⟨[], .char, 0, 0⟩ none)
      ∧ decode ⟨0b00110001, .txtToken .int8 (.run [0x31])⟩
          = .ok (.txtParse .int8 (.run [0x31])) := by decide

theorem test_decode_framers :
    decode ⟨0b01000000, .nil⟩ = .ok .fraReset ∧ decode ⟨0b01000001, .byte 0xFD⟩ = .ok (.fraPush 0xFD)
      ∧ decode ⟨0b01010000, .nil⟩ = .ok .frbReset
      ∧ decode ⟨0b01010001, .byte 0x24⟩ = .ok (.frbPush 0x24) := by decide

theorem test_decode_serdes :
    decode ⟨0b01100000, .binRecord 0 [none] 1 2 3 (.own 0 280)⟩
        = .ok (.sera 0 [none] 1 2 3 (.own 0 280))
      ∧ decode ⟨0b01100001, .binView 0 cocaView⟩ = .ok (.desera 0 cocaView)
      ∧ decode ⟨0b01110000, .txtRecord 0 [0x48, 0x45] [none] (.own 0 64)⟩
        = .ok (.serb 0 [0x48, 0x45] [none] (.own 0 64))
      ∧ decode ⟨0b01110001, .txtView 0 rotView⟩ = .ok (.bindb 0 rotView) := by decide

/-- R100, R102: the code is looked at before the operand record. -/
theorem test_decode_rejects :
    decode ⟨0b00000110, .nil⟩ = .error (.illegalCommand 0x06)
      ∧ decode ⟨0b10000000, .nil⟩ = .error (.illegalCommand 0x80)
      ∧ decode ⟨0b00000010, .nil⟩ = .error (.badOperand 0x02) := by decide

/-- spec/opcode_table.json: every defined code is read as a table word; a reserved one is not. -/
theorem test_decodeTableWord :
    definedCodes.all (fun c => (decodeTableWord 8 c.toNat).isSome) = true
      ∧ decodeTableWord 8 0x06 = none ∧ decodeTableWord 8 0x72 = none
      ∧ decodeTableWord 8 0x40 = some .fraReset := by decide

/-! ### WellFormed refuses an ill-formed term for each check -/

theorem test_wf_refuses_strings : Instr.wf (.crcAccStr [0x80]) = false
    ∧ Instr.wf (.crcAccStr [0x7F]) = true := by decide

theorem test_wf_refuses_types : Instr.wf (.binEnc 11 0 (.scalar 0)) = false
    ∧ Instr.wf (.binEnc 1 0 (.scalar 256)) = false ∧ Instr.wf (.binEnc 1 0 (.array [])) = false
    ∧ Instr.wf (.binEnc 3 2 (.array [1])) = false ∧ Instr.wf (.binDec 11 0 []) = false
    ∧ Instr.wf (.binEnc 3 2 (.array [1, 65535])) = true := by decide

theorem test_wf_refuses_kinds : Instr.wf (.txtFmt ⟨[], .int8, 0, 0⟩ (some (.int 128))) = false
    ∧ Instr.wf (.txtFmt ⟨[], .char, 0, 0⟩ (some (.int 1))) = false
    ∧ Instr.wf (.txtFmt ⟨[], .int8, 0, 0⟩ (some (.int (-128)))) = true := by decide

theorem test_wf_refuses_talkers : Instr.wf (.serb 0 [0x48] [] (.own 0 0)) = false
    ∧ Instr.wf (.serb 0 [0x48, 0x2A] [] (.own 0 0)) = false
    ∧ Instr.wf (.serb 0 [0x48, 0x45] [] (.own 0 0)) = true := by decide

theorem test_wf_refuses_views :
    Instr.wf (.desera 0 { cocaView with payload := ⟨0, 256⟩ }) = false
      ∧ Instr.wf (.desera 0 { cocaView with sig := ⟨0, 12⟩ }) = false
      ∧ Instr.wf (.bindb 0 { rotView with fieldCount := 2 }) = false
      ∧ Instr.wf (.desera 0 cocaView) = true ∧ Instr.wf (.bindb 0 rotView) = true := by decide

/-! ### One step of each command -/

/-- V-CRC1, V-CRC2. -/
theorem test_crcInit_crcLoad : leaves (fun s => s.crc) (exec .crcInit { idle with crc := 0x1234 })
      = some 0xFFFF
    ∧ resultOf (exec (.crcLoad 0x1234) idle) = some (.half 0x1234) := by decide

/-- V-CRC3, V-CRC5, V-CRC8. -/
theorem test_crcAcc : resultOf (exec (.crcAcc 0x00) idle) = some (.half 0x0F87)
    ∧ resultOf (exec (.crcAcc 0x41) idle) = some (.half 0x5C0A)
    ∧ resultOf (exec (.crcAcc 0x80) { idle with crc := 0 }) = some (.half 0x8408) := by decide

/-- V-CRC9, V-CRC10, V-CRC12. -/
theorem test_crcAccBuf_crcAccStr :
    resultOf (exec (.crcAccBuf (chars ['1', '2', '3', '4', '5', '6', '7', '8', '9'])) idle)
        = some (.half 0x6F91)
      ∧ resultOf (exec (.crcAccBuf (chars ['1', '2', '3', '4'])) idle) = some (.half 0x8B13)
      ∧ resultOf (exec (.crcAccStr (chars ['X', ' '])) idle) = some (.half 0xCC8D) := by
  decide +kernel

/-- 95_test_vectors.md 0.1: COCA gives 104; 40_crc16.md R156: "X" without fields gives 65. -/
theorem test_crcExtra : resultOf (exec (.crcExtra 0) idle) = some (.byte 104)
    ∧ crcExtra false coca = 104 ∧ crcExtra false ⟨chars ['X'], 0, []⟩ = 65
    ∧ faultOf (exec (.crcExtra 1) idle) = some .badDescriptor := by decide +kernel

/-- R181, R182, R183 examples. -/
theorem test_xor : leaves (fun s => s.xsum) (exec .xorInit { idle with xsum := 0x5A }) = some 0x00
    ∧ resultOf (exec (.xorAcc 0x47) idle) = some (.byte 0x47)
    ∧ resultOf (exec (.xorRun (chars ['G', 'P', 'G', 'L', 'L'])) idle) = some (.byte 0x50) := by
  decide

/-- R184, R185 examples: "6F" and "05"; "47", "4f", "4G". -/
theorem test_hex : resultOf (exec (.hexEnc 0x6F) idle) = some (.bytes (chars ['6', 'F']))
    ∧ resultOf (exec (.hexEnc 0x05) idle) = some (.bytes (chars ['0', '5']))
    ∧ resultOf (exec (.hexDec (chr '4') (chr '7')) idle) = some (.byte 0x47)
    ∧ resultOf (exec (.hexDec (chr '4') (chr 'f')) idle) = some (.byte 0x4F)
    ∧ resultOf (exec (.hexDec (chr '4') (chr 'G')) idle) = some (.error .invalidChecksumChar) := by
  decide

/-- R111, R202: the least int16 and a uint32, low byte first. -/
theorem test_binEnc : resultOf (exec (.binEnc 4 0 (.scalar (-2))) idle) = some (.bytes [0xFE, 0xFF])
    ∧ resultOf (exec (.binEnc 5 0 (.scalar 0x12345678)) idle)
      = some (.bytes [0x78, 0x56, 0x34, 0x12])
    ∧ faultOf (exec (.binEnc 11 0 (.scalar 0)) idle) = some .badDescriptor
    ∧ refusalIn (exec (.binEnc 1 0 (.scalar 256)) idle) = some .badOperand := by decide

/-- R77: [0x34, 0x12] as a u32 is 0x1234; a short array fills with zeros. -/
theorem test_binDec :
    resultOf (exec (.binDec 5 0 [0x34, 0x12]) idle) = some (.binVal (.scalar 0x1234))
      ∧ resultOf (exec (.binDec 2 0 [0xFF]) idle) = some (.binVal (.scalar (-1)))
      ∧ resultOf (exec (.binDec 3 2 [1, 0, 2]) idle) = some (.binVal (.array [1, 2])) := by decide

/-- R235 corner cases: 0.125 with P = 2, 12.0 with P = 1 and W = 5, -0.0 with P = 1; R236: -5 with
W = 3. -/
theorem test_txtFmt :
    resultOf (exec (.txtFmt ⟨[], .float32, 2, 0⟩ (some (.f32 0x3E000000))) idle)
        = some (.bytes (chars ['0', '.', '1', '2']))
      ∧ resultOf (exec (.txtFmt ⟨[], .float32, 1, 5⟩ (some (.f32 0x41400000))) idle)
        = some (.bytes (chars ['0', '1', '2', '.', '0']))
      ∧ resultOf (exec (.txtFmt ⟨[], .float32, 1, 0⟩ (some (.f32 0x80000000))) idle)
        = some (.bytes (chars ['-', '0', '.', '0']))
      ∧ resultOf (exec (.txtFmt ⟨[], .int16, 0, 3⟩ (some (.int (-5)))) idle)
        = some (.bytes (chars ['-', '0', '0', '5'])) := by decide +kernel

/-- R235, R9: a NaN is refused; a precision beyond the limit is no descriptor. -/
theorem test_txtFmt_stops :
    refusalIn (exec (.txtFmt ⟨[], .float32, 1, 0⟩ (some (.f32 0x7FC00000))) idle)
        = some .nonFiniteFormat
      ∧ refusalIn (exec (.txtFmt ⟨[], .float32, 18, 0⟩ none) idle) = some .badOperand := by
  decide +kernel

/-- R241: "08" is 8, "256" is out of range, "-0" is 0 only for a signed kind, "12a" is malformed. -/
theorem test_txtParse_integers :
    resultOf (exec (.txtParse .uint8 (.run (chars ['0', '8']))) idle)
        = some (.txtVal (some (.int 8)))
      ∧ resultOf (exec (.txtParse .uint8 (.run (chars ['2', '5', '6']))) idle)
        = some (.error .parseError)
      ∧ resultOf (exec (.txtParse .int8 (.run (chars ['-', '0']))) idle)
        = some (.txtVal (some (.int 0)))
      ∧ resultOf (exec (.txtParse .uint8 (.run (chars ['-', '0']))) idle)
        = some (.error .parseError)
      ∧ resultOf (exec (.txtParse .int8 (.run (chars ['1', '2', 'a']))) idle)
        = some (.error .parseError) := by decide +kernel

/-- R243: "-1.5", "1e39" overflows a float32, "1e-50" underflows it, "1e" is malformed, "nan". -/
theorem test_txtParse_floats :
    resultOf (exec (.txtParse .float32 (.run (chars ['-', '1', '.', '5']))) idle)
        = some (.txtVal (some (.f32 0xBFC00000)))
      ∧ resultOf (exec (.txtParse .float32 (.run (chars ['1', 'e', '3', '9']))) idle)
        = some (.error .parseError)
      ∧ refusalIn (exec (.txtParse .float32 (.run (chars ['1', 'e', '-', '5', '0']))) idle)
        = some .unmodelledParse
      ∧ resultOf (exec (.txtParse .float32 (.run (chars ['1', 'e']))) idle)
        = some (.error .parseError)
      ∧ refusalIn (exec (.txtParse .float32 (.run (chars ['n', 'a', 'n']))) idle)
        = some .unmodelledParse := by decide +kernel

/-- R270, R310: a reset ends the life of the view emitted before it. -/
theorem test_resets : leaves (fun s => (s.a.state, s.a.wr, s.viewALive cocaView)) (exec .fraReset afterA)
      = some (.seekSync, 0, false)
    ∧ leaves (fun s => (s.b.state, s.b.wr, s.viewBLive rotView)) (exec .frbReset afterB)
      = some (.seekStart, 0, false) := by decide

/-- R273, R278, R283: a marker starts a frame; the last byte of V-SA3 gives its view. -/
theorem test_fraPush :
    leaves (fun s => (s.a.state, s.a.ver, s.a.wr, s.wbaByte 0)) (exec (.fraPush 0xFD) idle)
        = some (.readLength, .v2, 1, 0xFD)
      ∧ resultOf (exec (.fraPush 0x67)
          { inA .readChecksum 1 1 12 0 with a := { (inA .readChecksum 1 1 12 0).a with gen := 12 } })
        = some (.viewA cocaView) := by decide

/-- R271: the byte that would be stored at index BUF_CAP_A overruns. -/
theorem test_fraPush_overrun :
    resultOf (exec (.fraPush 0x00) (inA .readPayload 255 250 280 0)) = some (.error .bufferOverrun)
      ∧ leaves (fun s => s.a.state) (exec (.fraPush 0xFD) (inA .readPayload 255 250 280 0))
        = some .seekSync := by decide

/-- R71, R420, I3: after an error nothing of the buffer is known; a marker leaves only itself. -/
theorem test_buffers_forget :
    leaves (fun s => s.wba) (exec (.fraPush 0x00)
        { afterA with a := (inA .readPayload 255 250 280 0).a }) = some ⟨[], 2⟩
      ∧ leaves (fun s => s.wba) (exec (.fraPush 0xFE) afterA) = some ⟨[(0, 0xFE)], 2⟩
      ∧ leaves (fun s => s.wba) (exec (.fraPush 0x00) afterA) = some afterA.wba
      ∧ leaves (fun s => s.wbb) (exec (.frbPush 0x0A)
        { afterB with b := (inB .readFields true 0 7 0 (0, 0)).b }) = some ⟨[], 2⟩ := by decide

/-- R450: a view and a token of the life before are dead, though an equal record was emitted again. -/
theorem test_earlier_lives :
    ({ afterB with inst := ⟨0, 1⟩,
                   results := [.viewB { rotView with origin := ⟨0, 1⟩ }] } : State).viewBLive rotView = false
      ∧ faultOf (exec (.txtParse .float32 (.held (.slice ⟨6, 4⟩ 16 ⟨0, 0⟩)))
          { afterB with inst := ⟨0, 1⟩, results := [.viewB { rotView with origin := ⟨0, 1⟩ }] })
        = some .staleView
      ∧ leaves (fun s => s.inst) (perform .reset afterB) = some ⟨0, 1⟩ := by decide

/-- R314, R319, R321: a line feed in the body, a short header at a comma, a missing CR. -/
theorem test_frbPush_violations :
    resultOf (exec (.frbPush 0x0A) (inB .readFields true 0 7 0 (0, 0)))
        = some (.error .protocolViolation)
      ∧ resultOf (exec (.frbPush 0x2C) (inB .readFields false 0 4 0 (0, 0)))
        = some (.error .protocolViolation)
      ∧ resultOf (exec (.frbPush 0x24) (inB .readCRLF true 0 7 0 (0, 0)))
        = some (.error .protocolViolation) := by decide

/-- R322: a mismatch, a character that is no digit, and a match. -/
theorem test_frbPush_validates :
    resultOf (exec (.frbPush 0x0A) (inB .readCRLF true 1 10 0x6F (0x36, 0x45)))
        = some (.error .checksumMismatch)
      ∧ resultOf (exec (.frbPush 0x0A) (inB .readCRLF true 1 10 0x6F (0x36, 0x47)))
        = some (.error .invalidChecksumChar)
      ∧ resultOf (exec (.frbPush 0x0A) (inB .readCRLF true 1 10 0x6F (0x36, 0x66)))
        = some (.viewB ⟨[0x48, 0x45], [0x52, 0x4F, 0x54], [], 0, 1, ⟨0, 0⟩⟩) := by decide

/-- V-SA3: 13 bytes, the two zero fields trimmed. -/
theorem test_sera : leaves (fun s => (s.results.head?, s.outRun 0 13)) (exec (.sera 0
      [some (.scalar 255), some (.scalar 0), some (.scalar 0)] 0xFF 0xBE 7 (.own 0 280)) idle)
    = some (some (.count 13), [0xFD, 0x01, 0x00, 0x00, 0x07, 0xFF, 0xBE, 0x06, 0x00, 0x00, 0xFF, 0xD7,
        0x67]) := by decide +kernel

/-- R417, R464: a record of the wrong shape comes before a short buffer. -/
theorem test_sera_stops : refusalIn (exec (.sera 0 [none] 0 0 0 (.own 0 279)) idle)
      = some .badOperand
    ∧ resultOf (exec (.sera 0 [none, none, none] 0 0 0 (.own 0 279)) idle)
      = some (.error .bufferOverrun) := by decide +kernel

/-- R355, R356: the trimmed fields come back as zero; a dead view faults. -/
theorem test_desera :
    resultOf (exec (.desera 0 cocaView) afterA) = some (.lazyBin [[0xFF], [0x00], [0x00]])
      ∧ faultOf (exec (.desera 0 { cocaView with gen := 12 }) afterA) = some .staleView
      ∧ faultOf (exec (.desera 1 { cocaView with gen := 12 }) afterA) = some .badDescriptor := by
  decide

/-- R359: the check passes for V-SA3, and fails when the view's checksum is another, v2 and v1. -/
theorem test_checkA :
    (match checkA cocaView 0 afterA with | .next (_, ok) => some ok | _ => none) = some true
      ∧ (match checkA { cocaView with checksum := 0 } 0
            { afterA with results := [.viewA { cocaView with checksum := 0 }] } with
          | .next (_, ok) => some ok | _ => none) = some false
      ∧ (match checkA { cocaView with ver := .v1 } 0
            { afterA with results := [.viewA { cocaView with ver := .v1 }] } with
          | .next (_, ok) => some ok | _ => none) = some false := by decide +kernel

/-- R381 example: "$HEROT,-1.5,A*02" and CR LF, 18 bytes; a buffer of 3 gets the first 3. -/
theorem test_serb : leaves (fun s => (s.results.head?, s.outRun 0 18)) (exec (.serb 0 [0x48, 0x45]
      [some (.f32 0xBFC00000), some (.chr 0x41)] (.own 0 64)) idle)
    = some (some (.count 18), chars ['$', 'H', 'E', 'R', 'O', 'T', ',', '-', '1', '.', '5', ',', 'A',
        '*', '0', '2', '\r', '\n'])
    ∧ resultOf (exec (.serb 0 [0x48, 0x45] [none, none] (.own 0 3)) idle) = some (.count 3)
    ∧ refusalIn (exec (.serb 0 [0x48, 0x45] [some (.f32 0x7FC00000), none] (.own 0 64)) idle)
      = some .nonFiniteFormat := by
  decide +kernel

/-- E5: rate is bound to its token, status to EMPTY_TOKEN; the token then parses as -1.5. -/
theorem test_bindb : resultOf (exec (.bindb 0 rotView) afterB)
      = some (.lazyTxt [.slice ⟨6, 4⟩ 16 ⟨0, 0⟩, .empty])
    ∧ resultOf (exec (.txtParse .float32 (.held (.slice ⟨6, 4⟩ 16 ⟨0, 0⟩))) afterB)
      = some (.txtVal (some (.f32 0xBFC00000)))
    ∧ faultOf (exec (.txtParse .float32 (.held (.slice ⟨6, 4⟩ 15 ⟨0, 0⟩))) afterB) = some .staleView := by
  decide +kernel

/-- R452: the configuration is checked, CRCX computed and the block reset; R84: a host write of WBA
while a view is live is refused. -/
theorem test_host_actions :
    leaves (fun s => (s.crcx, s.cfg, s.a.state)) (perform (.elaborate testCfg) State.reset)
        = some ([104], testCfg, .seekSync)
      ∧ refusalIn (perform (.elaborate { testCfg with binMsgs := [{ coca with fields := [] }] }) idle)
        = some .badConfiguration
      ∧ refusalIn (perform (.writeBuffer .a 0 0) afterA) = some .hostBufferWrite
      ∧ leaves (fun s => s.wbaByte 0) (perform (.writeBuffer .a 0 7) idle) = some 7 := by
  decide +kernel

/-- R201 (a) to (e), R231: each check refuses. -/
theorem test_elaboration_checks :
    ([[⟨[0x61], 11, 0⟩], [], [⟨[0x61], 0, 256⟩], [⟨[0x61], 1, 0⟩, ⟨[0x62], 5, 0⟩], [⟨[], 1, 0⟩],
        [⟨[0x80], 1, 0⟩]] : List (List BinField)).all (fun fs =>
      decide (refusalIn (perform (.elaborate { testCfg with binMsgs := [{ coca with fields := fs }] })
        idle) = some .badConfiguration)) = true
    ∧ ([⟨chars ['R', '*', 'T'], []⟩, ⟨chars ['R', 'O'], []⟩, ⟨chars ['R', 'O', 'T'],
        [⟨[], .float32, 18, 0⟩]⟩, ⟨chars ['R', 'O', 'T'], [⟨[], .float32, 0, 33⟩]⟩]
        : List TxtMsg).all (fun m =>
      decide (refusalIn (perform (.elaborate { testCfg with txtMsgs := [m] }) idle)
        = some .badConfiguration)) = true
    ∧ configOk { testCfg with binMsgs := [{ coca with fields := [⟨[0x61], 0, 255⟩] }] } = true := by
  decide +kernel

/-! ### Witnesses: commands and the checksum units -/

theorem witness_elaborated : Elaborated idle ∧ idle.cfg.binMsgs[0]? = some coca
    ∧ idle.cfg.txtMsgs[0]? = some rot ∧ idle.cfg.binMsgs.length ≤ 1 ∧ idle.cfg.txtMsgs.length ≤ 1 := by
  unfold Elaborated; decide +kernel

theorem witness_DecodeAndEncodeAgree : decode ⟨0x71, .txtView 0 rotView⟩ = .ok (.bindb 0 rotView) := by
  decide

theorem witness_ReservedCodesAreRefused : (0x06 : Byte) ∉ definedCodes ∧ (0x72 : Byte) ∉ definedCodes
    ∧ (0xFF : Byte) ∉ definedCodes := by decide

theorem witness_StepRunsTheDecodedCommand :
    (idle.withFetchWord 8 0x41).pending = [.command ⟨0x41, .byte 0⟩]
      ∧ decode ⟨0x41, .byte 0⟩ = .ok (.fraPush 0) ∧ idle.pending = [] := by decide

/-- Also of OnlyFramerCommandsMoveAFramer, OtherUnitsIgnoreCrcAndXsum (first clause) and
OnlyListedErrorsAreReported (`hexDec`). -/
theorem witness_EachCommandReturnsOneResult :
    (∃ t, exec (.hexDec 0x34 0x47) idle = .next t
      ∧ t.results = .error .invalidChecksumChar :: idle.results)
    ∧ (∃ t, exec (.fraPush 0xFD) idle = .next t) ∧ (∃ t, exec .fraReset idle = .next t)
    ∧ (∃ t, exec (.frbPush 0x24) idle = .next t) ∧ (∃ t, exec .frbReset idle = .next t)
    ∧ exec (.crcExtra 1) idle = .fault .badDescriptor
    ∧ exec (.binEnc 1 0 (.scalar 256)) idle = .refused .badOperand :=
  ⟨⟨_, rfl, rfl⟩, ⟨_, rfl⟩, ⟨_, rfl⟩, ⟨_, rfl⟩, ⟨_, rfl⟩, rfl, rfl⟩

theorem witness_HexPairCodec : spellsHex 0x30 0 ∧ spellsHex 0x46 15 ∧ spellsHex 0x66 15
    ∧ ¬ ∃ h l : Nat, spellsHex 0x47 h ∧ spellsHex 0x30 l := by
  refine ⟨.inl rfl, .inl rfl, .inr rfl, ?_⟩
  rintro ⟨h, l, hh, -⟩
  have notIn : (0x47 : Byte) ∉ hexUpper ∧ (0x47 : Byte) ∉ hexLower := by decide
  rcases hh with hh | hh
  · exact notIn.1 (List.mem_of_getElem? hh)
  · exact notIn.2 (List.mem_of_getElem? hh)

/-! ### Witnesses: the codecs -/

/-- Of BinaryFieldRoundTrip, BinEncIsLittleEndian and BinDecZeroFills: the least int16, an array, a
value one too great, and the tags where the clauses meet. -/
theorem witness_BinaryFields : primOfTag 4 = some .int16 ∧ valFits .int16 0 (.scalar (-32768)) = true
    ∧ valFits .int16 2 (.array [0, 32767]) = true ∧ valFits .int16 0 (.scalar 32768) = false
    ∧ primOfTag 10 = some .double ∧ 10 < 11 := by decide

/-- Of TxtFmtRendersIntegers, IntegerTextRoundTrip and AbsentCharAndStringText. -/
theorem witness_TxtFmt : 17 ≤ idle.cfg.precMax ∧ 32 ≤ idle.cfg.widthMax
    ∧ kindAdmits (⟨[], .int8, 17, 32⟩ : TxtField).kind (.int (-128)) = true
    ∧ kindAdmits (⟨[], .uint64, 0, 0⟩ : TxtField).kind (.int 18446744073709551615) = true
    ∧ (⟨[], .char, 17, 32⟩ : TxtField).kind = .char
    ∧ (⟨[], .string, 0, 0⟩ : TxtField).kind = .string := by decide

/-- Zero, the greatest finite pattern, and the infinity. -/
theorem witness_TxtFmtRoundsFloats : kindAdmits .float32 (.f32 0x7F7FFFFF) = true
    ∧ floatExp binary32 (0x00000000 : BitVec 32).toNat ≠ 2 ^ binary32.ebits - 1
    ∧ floatExp binary32 (0x7F7FFFFF : BitVec 32).toNat ≠ 2 ^ binary32.ebits - 1
    ∧ floatExp binary32 (0x7F800000 : BitVec 32).toNat = 2 ^ binary32.ebits - 1
    ∧ floatExp binary64 (0x7FF0000000000000 : BitVec 64).toNat = 2 ^ binary64.ebits - 1 := by
  decide +kernel

theorem witness_TxtParseReadsIntegers : kindRange .int8 = some (-128, 127)
    ∧ chars ['-', '1', '2', '8'] ≠ [] ∧ isIntToken true (chars ['-', '1', '2', '8']) = true
    ∧ tokenInt (chars ['-', '1', '2', '8']) = -128
    ∧ isIntToken false (chars ['-', '0']) = false := by decide

/-- "1.5" lies between the two bounds of binary32. -/
theorem witness_FloatParseIsNearest :
    parseDecimal (chars ['1', '.', '5']) = some ⟨false, 15, -1⟩
      ∧ leastNormal binary32 ≤ (15 : ℚ) * 10 ^ (-1 : Int)
      ∧ (15 : ℚ) * 10 ^ (-1 : Int) < leastInfinite binary32 := by
  refine ⟨by decide, ?_, ?_⟩
  · norm_num [leastNormal, binary32, floatBias, zpow_neg]
  · norm_num [leastInfinite, binary32, floatBias, zpow_neg]

/-- "-0", "1e-50", the least number that rounds to infinity, a word and a malformed token. -/
theorem witness_FloatParseOutcomes :
    parseDecimal (chars ['-', '0']) = some ⟨true, 0, 0⟩
      ∧ parseDecimal (chars ['1', 'e', '-', '5', '0']) = some ⟨false, 1, -50⟩
      ∧ (1 : ℚ) * 10 ^ (-50 : Int) < leastNormal binary32
      ∧ leastInfinite binary32 = (340282356779733661637539395458142568448 : ℚ) * 10 ^ (0 : Int)
      ∧ parseDecimal (chars ['N', 'a', 'N']) = none ∧ isFloatWord (chars ['N', 'a', 'N']) = true
      ∧ parseDecimal (chars ['1', 'e']) = none ∧ isFloatWord (chars ['1', 'e']) = false := by
  refine ⟨by decide, by decide, ?_, ?_, by decide, by decide, by decide, by decide⟩
  · norm_num [leastNormal, binary32, floatBias, zpow_neg]
  · norm_num [leastInfinite, binary32, floatBias]

/-- "-1.5e+3": both sides of the grammar. -/
theorem witness_FloatGrammar :
    parseDecimal (chars ['-', '1', '.', '5', 'e', '+', '3']) = some ⟨true, 15, 2⟩
      ∧ expValue (chars ['e', '+', '3']) 3 ∧ expValue [] 0 :=
  ⟨by decide, .inr ⟨0x65, [0x2B], [0x33], .inl rfl, .inr (.inl rfl), by decide, by decide, rfl, rfl⟩,
    .inl ⟨rfl, rfl⟩⟩

theorem witness_HeldTokensParseWhileLive : Result.viewB rotView ∈ afterB.results
    ∧ rotView.gen = afterB.b.gen ∧ rotView.origin = afterB.inst ∧ (⟨0, 1⟩ : BlockId) ≠ afterB.inst ∧ (⟨6, 4⟩ : Slice) ∈ rotView.fields
    ∧ 6 + 4 ≤ afterB.cfg.bufCapB ∧ 15 ≠ afterB.b.gen := by decide

/-! ### Witnesses: the framers -/

/-- Of the frame statements: a push that starts a frame or sentence, one that reports an error and one
that does neither. -/
theorem witness_Frames : startsFrame 0xFD idle ∧ ¬ startsFrame 0x00 idle
    ∧ startsSentence 0x24 idle ∧ ¬ startsSentence 0x41 idle
    ∧ resultOf (exec (.fraPush 0x00) idle) = some .noMessage
    ∧ resultOf (exec (.frbPush 0x0A) (inB .readFields true 0 7 0 (0, 0)))
      = some (.error .protocolViolation) := by
  unfold startsFrame startsSentence; decide

/-- Of the statements about one push of Framer-A: a state of each kind, with room and without. -/
theorem witness_FraPush : idle.a.state = .seekSync ∧ 0 < idle.cfg.bufCapA
    ∧ ({ testCfg with bufCapA := 0 } : Config).bufCapA = 0
    ∧ (inA .readLength 0 0 1 0).a.wr < idle.cfg.bufCapA
    ∧ (inA .readV2Flags 1 1 3 0).a.state = .readV2Flags
    ∧ (inA .readCoreHeader 1 5 9 0).a.state = .readCoreHeader
    ∧ (inA .readPayload 255 254 264 0).a.state = .readPayload
    ∧ (inA .readPayload 255 254 264 0).a.wr < idle.cfg.bufCapA
    ∧ (inA .readPayload 255 250 280 0).a.state ≠ .seekSync
    ∧ idle.cfg.bufCapA ≤ (inA .readPayload 255 250 280 0).a.wr := by decide

/-- Of FraPushEndsTheFrame: the two checksum bytes, unsigned and signed, and the last signature byte. -/
theorem witness_FraPushEndsTheFrame : (inA .readChecksum 1 0 11 0).a.idx = 0
    ∧ (inA .readChecksum 1 1 12 0).a.idx ≠ 0 ∧ (inA .readChecksum 1 1 12 0).a.incompat.getLsbD 0 = false
    ∧ (inA .readChecksum 1 1 12 1).a.incompat.getLsbD 0 = true
    ∧ (inA .readSignature 1 11 24 1).a.idx + 1 ≠ 13 ∧ (inA .readSignature 1 12 25 1).a.idx + 1 = 13
    ∧ (inA .readSignature 1 12 25 1).a.state = .readSignature := by decide

/-- The frame V-SA3 fits exactly a buffer of 13 bytes and overruns one of 12. -/
theorem witness_AFrameGivesItsViewOrOverruns :
    isFrame [0xFD, 0x01, 0x00, 0x00, 0x07, 0xFF, 0xBE, 0x06, 0x00, 0x00, 0xFF, 0xD7, 0x67] = true
      ∧ isFrame [0xFE, 0x00, 0x09, 0x01, 0x01, 0x06, 0x5F, 0xF8] = true
      ∧ idle.a.state = .seekSync ∧ 13 ≤ ({ testCfg with bufCapA := 13 } : Config).bufCapA
      ∧ ({ testCfg with bufCapA := 12 } : Config).bufCapA < 13 := by decide

/-- Of the statements about one push of Framer-B: a state of each kind, with room and without. -/
theorem witness_FrbPush : idle.b.state = .seekStart
    ∧ (inB .readFields true 0 255 0 (0, 0)).b.state = .readFields
    ∧ (inB .readFields true 0 255 0 (0, 0)).b.wr < idle.cfg.bufCapB
    ∧ idle.cfg.bufCapB ≤ (inB .readFields true 0 256 0 (0, 0)).b.wr
    ∧ shortHeaderStops (inB .readFields false 0 4 0 (0, 0)) = true
    ∧ shortHeaderStops (inB .readFields false 0 5 0 (0, 0)) = false
    ∧ shortHeaderStops (inB .readFields true 0 4 0 (0, 0)) = false := by decide

/-- Of FrbPushValidatesTheSentence: both characters, both terminators, a match, a mismatch and a
character that is no digit. -/
theorem witness_FrbPushValidatesTheSentence :
    (inB .readChecksumHex true 0 7 0 (0, 0)).b.idx = 0
      ∧ (inB .readChecksumHex true 1 7 0 (0, 0)).b.idx ≠ 0
      ∧ (inB .readCRLF true 0 7 0 (0, 0)).b.state = .readCRLF
      ∧ spellsHex (inB .readCRLF true 1 7 0x6F (0x36, 0x46)).b.hex.1 6
      ∧ spellsHex (inB .readCRLF true 1 7 0x6F (0x36, 0x46)).b.hex.2 15
      ∧ 16 * 6 + 15 = (inB .readCRLF true 1 7 0x6F (0x36, 0x46)).b.xor.toNat
      ∧ 16 * 6 + 15 ≠ (inB .readCRLF true 1 7 0x6E (0x36, 0x46)).b.xor.toNat
      ∧ hexByte (inB .readCRLF true 1 7 0x6F (0x47, 0x46)).b.hex.1 0x46 = none :=
  ⟨rfl, by decide, rfl, .inl rfl, .inl rfl, rfl, by decide, by decide⟩

/-- The body "HEROT," fits exactly a buffer of 6 and overruns one of 5. -/
theorem witness_ABodyIsStoredOrOverruns : idle.b.state = .seekStart
    ∧ (∀ c ∈ chars ['H', 'E', 'R', 'O', 'T', ','], c ≠ 0x2A ∧ c ≠ 0x0A)
    ∧ 5 ≤ ((chars ['H', 'E', 'R', 'O', 'T', ',']).takeWhile (fun c => c != 0x2C)).length
    ∧ (chars ['H', 'E', 'R', 'O', 'T', ',']).length ≤ ({ testCfg with bufCapB := 6 } : Config).bufCapB
    ∧ ({ testCfg with bufCapB := 5 } : Config).bufCapB
      < (chars ['H', 'E', 'R', 'O', 'T', ',']).length := by decide

/-! ### Witnesses: the serdes -/

/-- Of SeraWritesTheFrame, PayloadImageHasThePayloadSize, SeraFailsInOrder and BinaryMessageRoundTrip
(with `witness_elaborated`). -/
theorem witness_Sera : binRecordFits coca.fields [some (.scalar 255), some (.scalar 0), none] = true
    ∧ binRecordFits coca.fields [none] = false ∧ 280 ≤ 280 ∧ 279 < 280
    ∧ idle.a.state = .seekSync
    ∧ 12 + (trimPayload (payloadImage coca.fields
        [some (.scalar 255), some (.scalar 0), none])).length ≤ idle.cfg.bufCapA := by decide

theorem witness_TrimKeepsTheFirstByte : ([0x00, 0x00] : Bytes) ≠ [] ∧ trimPayload [0x00, 0x00] = [0x00]
    ∧ trimPayload [0x01, 0x00, 0x02, 0x00] = [0x01, 0x00, 0x02] := by decide

/-- Of DeseraCopiesTheFields and of the CRC check in BinaryMessageRoundTrip. -/
theorem witness_DeseraCopiesTheFields : cocaView.origin = afterA.inst
    ∧ (⟨1, 0⟩ : BlockId) ≠ afterA.inst ∧ afterA.cfg.binMsgs[0]? = some coca
    ∧ Result.viewA cocaView ∈ afterA.results ∧ cocaView.gen = afterA.a.gen
    ∧ cocaView.payload.off + cocaView.payload.len ≤ afterA.cfg.bufCapA ∧ cocaView.msgid = coca.msgid
    ∧ { coca with msgid := 7 }.msgid ≠ cocaView.msgid
    ∧ afterA.cfg.binMsgs.length ≤ 1 ∧ { cocaView with gen := 12 }.gen ≠ afterA.a.gen := by decide

/-- Of SerbWritesThePrefix and TextMessageRoundTrip (with `witness_elaborated`). -/
theorem witness_Serb : talkerOk [0x48, 0x45] = true ∧ talkerOk [0x48] = false
    ∧ txtRecordFits rot.fields [some (.f32 0xBFC00000), none] = true
    ∧ txtRecordFits rot.fields [none] = false
    ∧ nonFinite (some (.f32 0x7FC00000)) ∧ ¬ nonFinite (some (.f32 0xBFC00000)) ∧ ¬ nonFinite none
    ∧ delimiterFree (some (.f32 0xBFC00000)) ∧ delimiterFree none
    ∧ (sentence (sentenceBody [0x48, 0x45] rot.sid [chars ['-', '1', '.', '5'], []])).length ≤ 17
    ∧ (sentenceBody [0x48, 0x45] rot.sid [chars ['-', '1', '.', '5'], []]).length ≤ idle.cfg.bufCapB
    ∧ rot.fields.length ≤ idle.cfg.fieldCap ∧ idle.b.state = .seekStart
    ∧ idle.b.flist.length = idle.cfg.fieldCap :=
  ⟨by decide, by decide, by decide, by decide, by unfold nonFinite; decide,
    by unfold nonFinite; decide, id, trivial, trivial, by decide +kernel, by decide +kernel, by decide,
    rfl, by decide⟩

/-- Of TextMessageRoundTrip: the texts of a record, as TXT.FMT returns them. -/
theorem witness_textsOf : textsOf idle rot.fields [some (.f32 0xBFC00000), none]
    [chars ['-', '1', '.', '5'], []] := by
  refine ⟨rfl, fun k f x hf hx => ?_⟩
  match k with
  | 0 => cases hf; cases hx; rfl
  | 1 => cases hf; cases hx; rfl
  | k + 2 => simp [rot] at hf

theorem witness_BindbStoresTheTokens : afterB.cfg.txtMsgs[0]? = some rot
    ∧ Result.viewB rotView ∈ afterB.results ∧ rotView.gen = afterB.b.gen
    ∧ rotView.origin = afterB.inst ∧ rotView.fieldCount = rotView.fields.length ∧ afterB.cfg.txtMsgs.length ≤ 1
    ∧ { rotView with gen := 15 }.gen ≠ afterB.b.gen := by decide

/-! ### Witnesses: the whole block -/

/-- Of StepKeepsTheBlockLegal, ViewsDieAtTheNextPush and ViewsOfEarlierLivesAreDead: a block with a live
view and a push waiting is legal, its step completes, and so does a reset. -/
theorem witness_Legal :
    Legal (afterA.withFetchWord 8 0x41) ∧ (∃ t, step (afterA.withFetchWord 8 0x41) = .next t)
      ∧ (∃ t, perform .reset (afterA.withFetchWord 8 0x41) = .next t)
      ∧ Result.viewA cocaView ∈ (afterA.withFetchWord 8 0x41).results := by
  refine ⟨⟨?_, ?_, by decide, ?_, fun h => absurd rfl h, ?_, ?_, ?_, ?_⟩, ⟨_, rfl⟩, ⟨_, rfl⟩, by decide⟩
  · unfold Elaborated; decide +kernel
  · unfold InRange; decide
  · exact ⟨trivial, fun h => absurd rfl h⟩
  · intro v hv
    have : v = cocaView := by simpa [State.withFetchWord, State.withNextCommand, State.setPending,
      afterA] using hv
    subst this
    unfold storedA
    decide
  · intro v hv
    simp [State.withFetchWord, State.withNextCommand, State.setPending, afterA] at hv
  · intro v v' hv hv'
    simp [State.withFetchWord, State.withNextCommand, State.setPending, afterA] at hv hv'
    simp [hv, hv']
  · intro v v' hv
    simp [State.withFetchWord, State.withNextCommand, State.setPending, afterA] at hv

/-- Of the text clauses of ViewsOfEarlierLivesAreDead: a block with a live text view, which has a token, is
legal. -/
theorem witness_Legal_text : Legal afterB ∧ Result.viewB rotView ∈ afterB.results
    ∧ rotView.fields ≠ [] := by
  refine ⟨⟨?_, ?_, by decide, ⟨trivial, fun h => absurd rfl h⟩, fun h => absurd rfl h, ?_, ?_, ?_, ?_⟩,
    by decide, by decide⟩
  · unfold Elaborated; decide +kernel
  · unfold InRange; decide
  · intro v hv
    simp [afterB] at hv
  · intro v hv
    have : v = rotView := by simpa [afterB] using hv
    subst this
    unfold storedB
    decide
  · intro v v' hv
    simp [afterB] at hv
  · intro v v' hv hv'
    simp [afterB] at hv hv'
    simp [hv, hv']

/-- A reset state of an elaborated configuration, and a run from it that has taken a command. -/
theorem witness_LaunchedBlocksAreLegal : IsReset (idle.withFetchWord 8 0x41)
    ∧ Memory.wf (idle.withFetchWord 8 0x41).out = true
    ∧ Launched (Run.steps 1 (Run.start (idle.withFetchWord 8 0x41))) := by
  have reset : IsReset (idle.withFetchWord 8 0x41) := by unfold IsReset InRange; decide
  have elaborated : Elaborated (idle.withFetchWord 8 0x41) := by unfold Elaborated; decide +kernel
  refine ⟨reset, rfl, by decide, ?_, _, 1, reset, elaborated, rfl, rfl⟩
  unfold Elaborated; decide +kernel

theorem witness_RunsKeepTheirRecords :
    (Run.start (idle.withFetchWord 8 0x05)).advance.faults = []
      ∧ (Run.start ((State.reset).withFetchWord 8 0x05)).advance.faults = [.badDescriptor]
      ∧ (Run.start (idle.withFetchWord 8 0x06)).advance.refusals = [.illegalCommand 0x06] := by
  decide

/-- Of BlocksShareNothing: two blocks, of which the second stops and the first goes on. -/
theorem witness_BlocksShareNothing : (System.start 2).numbered
    ∧ (systemRun [1, 0, 1]
        [Run.start (idle.withFetchWord 8 0x10), Run.start (idle.withFetchWord 8 0x06)]).map Run.clean
      = [true, false] := by
  refine ⟨fun k r h => ?_, by decide⟩
  simp only [System.start, List.getElem?_map, Option.map_eq_some_iff, List.getElem?_eq_some_iff,
    List.getElem_range] at h
  obtain ⟨k', ⟨hk, rfl⟩, rfl⟩ := h
  rfl

theorem witness_ElaborationChecksAndResets : configOk testCfg = true
    ∧ (∀ m ∈ testCfg.binMsgs, BinMsgOk m) ∧ (∀ m ∈ testCfg.txtMsgs, TxtMsgOk testCfg m)
    ∧ ¬ TxtMsgOk testCfg { rot with sid := [] } ∧ ¬ BinMsgOk { coca with fields := [] } := by
  refine ⟨by decide +kernel, fun m hm => ?_, fun m hm => ?_, fun h => absurd h.1 (by decide),
    fun h => h.2.1 rfl⟩
  · obtain rfl : m = coca := by simpa [testCfg] using hm
    exact ⟨by decide, by decide, by decide, by simp [coca], by unfold NameOk; decide,
      by unfold NameOk; decide⟩
  · obtain rfl : m = rot := by simpa [testCfg] using hm
    exact ⟨rfl, by decide, by decide⟩

/-- In frame, a live view, and neither; an index at the end of the buffer. -/
theorem witness_HostDutiesAreEnforced : (inA .readLength 0 0 1 0).a.state ≠ .seekSync
    ∧ Result.viewA cocaView ∈ afterA.results ∧ cocaView.gen = afterA.a.gen
    ∧ idle.results = [] ∧ 279 < idle.cfg.bufCapA ∧ 255 < idle.cfg.bufCapB
    ∧ (inB .readCRLF true 0 7 0 (0, 0)).b.state ≠ .seekStart
    ∧ Result.viewB rotView ∈ afterB.results ∧ rotView.gen = afterB.b.gen := by decide

end Sys2Proof.Tests
end

section
/-! PROOF. What a command that completes does to the block, said once: it takes part in no framer, or it is
one of the four framer commands. O5 and O52 are read off it. -/

namespace Sys2Proof.Machine

/-- The command is a push or a reset of Framer-A. -/
def drivesA (i : Instr) : Prop := (∃ b, i = .fraPush b) ∨ i = .fraReset

/-- The command is a push or a reset of Framer-B. -/
def drivesB (i : Instr) : Prop := (∃ c, i = .frbPush c) ∨ i = .frbReset

/-- The state FRA.RESET ends in (`execFraReset_eq`). -/
def resetA (s : State) : State :=
  { s with
    wba := s.wba.forget
    a := { junkA s.inst s.draws s.cfg.bufCapA with gen := s.a.gen + 1 }
    draws := s.draws + junkADraws
    results := .done :: s.results }

/-- The state FRB.RESET ends in (`execFrbReset_eq`). -/
def resetB (s : State) : State :=
  { s with
    wbb := s.wbb.forget
    b := { junkB s.inst s.draws s.cfg.bufCapB s.cfg.fieldCap with gen := s.b.gen + 1 }
    draws := s.draws + junkBDraws s.cfg.fieldCap
    results := .done :: s.results }

theorem execFraReset_eq (s : State) : execFraReset s = .next (resetA s) := rfl

theorem execFrbReset_eq (s : State) : execFrbReset s = .next (resetB s) := rfl

/-- The result is a view (R41, R42). -/
def isView : Result → Bool
  | .viewA _ | .viewB _ => true
  | _ => false

/-- `t` is `s` after a command no framer takes part in: at most the accumulators, the OUT bytes and the
count of free values are new, and the one result is no view. -/
def EndsPlain (s t : State) : Prop :=
  ∃ crc xsum out draws r,
    t = { s with crc := crc, xsum := xsum, out := out, draws := draws, results := r :: s.results }
      ∧ isView r = false ∧ (Memory.wf s.out = true → Memory.wf out = true)

theorem EndsPlain.of_returns (s : State) {r : Result} (h : isView r = false) :
    EndsPlain s (s.returns r) := ⟨_, _, _, _, r, rfl, h, id⟩

theorem EndsPlain.of_error (s : State) (e : ErrorKind) : EndsPlain s (s.raise none e) :=
  .of_returns s rfl

theorem EndsPlain.of_returnCrc (s : State) (v : Half) : EndsPlain s (s.returnCrc v) :=
  ⟨v, _, _, _, _, rfl, rfl, id⟩

theorem EndsPlain.of_setXsum (s : State) (v : Byte) :
    EndsPlain s ((s.setXsum v).returns (.byte v)) := ⟨_, v, _, _, _, rfl, rfl, id⟩

/-- SERA and SERB write a run of OUT bytes and return its length. -/
theorem EndsPlain.of_writeOut (s : State) (base n : Nat) (bs : Bytes) :
    EndsPlain s ((s.setOut (Memory.writeRun s.out base bs)).returns (.count n)) :=
  ⟨_, _, _, _, _, rfl, rfl, Memory.wf_writeRun bs base⟩

/-- A SERA that overruns has scribbled on its OUT buffer. -/
theorem EndsPlain.of_scribble (s : State) (base len : Nat) (e : ErrorKind) :
    EndsPlain s ((s.scribbleOut base len).raise none e) :=
  ⟨_, _, _, _, _, rfl, rfl, State.scribbleOut_out_wf base len⟩

/-! ### The commands of no framer -/

section
variable {s t : State}

theorem EndsPlain.of_crcExtra {d : Nat} (h : execCrcExtra d s = .next t) : EndsPlain s t := by
  unfold execCrcExtra at h
  split at h <;> cases h
  exact .of_returns s rfl

theorem EndsPlain.of_hexDec {c0 c1 : Byte} (h : execHexDec c0 c1 s = .next t) : EndsPlain s t := by
  unfold execHexDec at h
  split at h <;> cases h
  · exact .of_returns s rfl
  · exact .of_error s _

theorem EndsPlain.of_binEnc {ptype count : Nat} {x : BinVal}
    (h : execBinEnc ptype count x s = .next t) : EndsPlain s t := by
  unfold execBinEnc at h
  split at h
  · cases h
  · split at h <;> cases h
    exact .of_returns s rfl

theorem EndsPlain.of_binDec {ptype count : Nat} {bs : Bytes}
    (h : execBinDec ptype count bs s = .next t) : EndsPlain s t := by
  unfold execBinDec at h
  split at h <;> cases h
  exact .of_returns s rfl

theorem EndsPlain.of_txtFmt {fd : TxtField} {x : Option TxtVal}
    (h : execTxtFmt fd x s = .next t) : EndsPlain s t := by
  unfold execTxtFmt at h
  split at h
  · split at h <;> cases h
    exact .of_returns s rfl
  · cases h

theorem parseFloatToken_noView {f : FloatFormat} {wrap : Nat → TxtVal} {bs : Bytes} {r : Result}
    (h : parseFloatToken f wrap bs = .ok r) : isView r = false := by
  unfold parseFloatToken at h
  split at h <;> split at h <;> cases h <;> rfl

theorem parseIntToken_noView (k : TxtKind) (bs : Bytes) : isView (parseIntToken k bs) = false := by
  unfold parseIntToken
  split
  · split <;> rfl
  · rfl

/-- TXT.PARSE gives a value or an error. -/
theorem parseToken_noView {k : TxtKind} {bs : Bytes} {r : Result} (h : parseToken k bs = .ok r) :
    isView r = false := by
  unfold parseToken at h
  split at h
  · cases h; rfl
  · cases k
    case float32 | float64 => exact parseFloatToken_noView h
    case char | string => cases h; rfl
    all_goals cases h; exact parseIntToken_noView _ _

theorem EndsPlain.of_txtParse {kind : TxtKind} {tok : Tok}
    (h : execTxtParse kind tok s = .next t) : EndsPlain s t := by
  unfold execTxtParse at h
  split at h
  · cases h
  · split at h <;> cases h
    case h_2 => exact .of_error s _
    case h_3 hr => exact .of_returns s (parseToken_noView hr)

theorem EndsPlain.of_sera {d : Nat} {rec : List (Option BinVal)} {sys comp seq : Byte} {out : OutBuf}
    (h : execSera d rec sys comp seq out s = .next t) : EndsPlain s t := by
  unfold execSera at h
  split at h
  · cases h
  · split_ifs at h <;> cases h
    · exact .of_scribble s _ _ _
    · exact .of_writeOut s _ _ _

theorem EndsPlain.of_desera {d : Nat} {view : BinView} (h : execDesera d view s = .next t) :
    EndsPlain s t := by
  unfold execDesera at h
  split at h
  · cases h
  · split at h
    · cases h
    · split at h <;> cases h
      · exact .of_returns s rfl
      · exact .of_error s _

theorem EndsPlain.of_serb {d : Nat} {talker : Bytes} {rec : List (Option TxtVal)} {out : OutBuf}
    (h : execSerb d talker rec out s = .next t) : EndsPlain s t := by
  unfold execSerb at h
  split at h
  · cases h
  · split_ifs at h
    split at h <;> cases h
    exact .of_writeOut s _ _ _

theorem EndsPlain.of_bindb {d : Nat} {view : TxtView} (h : execBindb d view s = .next t) :
    EndsPlain s t := by
  unfold execBindb at h
  split at h
  · cases h
  · split at h <;> cases h
    exact .of_returns s rfl

end

/-! ### Every command -/

/-- How command `i` completes from `s`, with the state it ends in. -/
inductive Completes (s : State) : Instr → State → Prop
  | plain {i : Instr} {t : State} (notA : ¬ drivesA i) (notB : ¬ drivesB i) (ends : EndsPlain s t) :
      Completes s i t
  | pushA (b : Byte) : Completes s (.fraPush b) (pushA b s)
  | resetA : Completes s .fraReset (resetA s)
  | pushB (c : Byte) : Completes s (.frbPush c) (pushB c s)
  | resetB : Completes s .frbReset (resetB s)

theorem Completes.of_exec {i : Instr} {s t : State} (h : exec i s = .next t) : Completes s i t := by
  cases i
  case fraPush b => cases h; exact .pushA b
  case fraReset => cases h; exact .resetA
  case frbPush c => cases h; exact .pushB c
  case frbReset => cases h; exact .resetB
  all_goals refine .plain (by simp [drivesA]) (by simp [drivesB]) ?_
  case crcInit | crcLoad | crcAcc | crcAccBuf | crcAccStr => cases h; exact .of_returnCrc s _
  case xorInit | xorAcc => cases h; exact .of_setXsum s _
  case xorRun | hexEnc => cases h; exact .of_returns s rfl
  case crcExtra => exact .of_crcExtra h
  case hexDec => exact .of_hexDec h
  case binEnc => exact .of_binEnc h
  case binDec => exact .of_binDec h
  case txtFmt => exact .of_txtFmt h
  case txtParse => exact .of_txtParse h
  case sera => exact .of_sera h
  case desera => exact .of_desera h
  case serb => exact .of_serb h
  case bindb => exact .of_bindb h

/-- A push of Framer-A changes only its registers and WBA, moves its generation by one and adds one
result. -/
theorem pushA_frame (b : Byte) (s : State) :
    ∃ a w r, pushA b s = { s with a := a, wba := w, results := r :: s.results }
      ∧ a.gen = s.a.gen + 1 := by
  by_cases h : startsFrame b (bumpGenA s)
  · obtain ⟨a, w, r, e, hg, -⟩ := EndsA.of_dispatchA_start h
    exact ⟨a, _, r, e, hg⟩
  · obtain ⟨a, w, r, e, hg, -⟩ := EndsA.of_dispatchA h
    exact ⟨a, _, r, e, hg⟩

/-- A push of Framer-B changes only its registers and WBB, moves its generation by one and adds one
result. -/
theorem pushB_frame (c : Byte) (s : State) :
    ∃ b w r, pushB c s = { s with b := b, wbb := w, results := r :: s.results }
      ∧ b.gen = s.b.gen + 1 := by
  by_cases h : startsSentence c (bumpGenB s)
  · obtain ⟨b, w, r, e, hg, -⟩ := EndsB.of_dispatchB_start h
    exact ⟨b, _, r, e, hg⟩
  · obtain ⟨b, w, r, e, hg, -⟩ := EndsB.of_dispatchB h
    exact ⟨b, _, r, e, hg⟩

/-- Settles O5, for each way a command completes. -/
theorem eachCommandReturnsOneResult : Obligations.EachCommandReturnsOneResult := by
  intro i s t h
  cases Completes.of_exec h with
  | plain _ _ ends =>
    obtain ⟨_, _, _, _, r, rfl, -⟩ := ends
    exact ⟨⟨r, rfl⟩, rfl, rfl, rfl, rfl⟩
  | pushA b =>
    obtain ⟨_, _, r, e, -⟩ := pushA_frame b s
    rw [e]
    exact ⟨⟨r, rfl⟩, rfl, rfl, rfl, rfl⟩
  | pushB c =>
    obtain ⟨_, _, r, e, -⟩ := pushB_frame c s
    rw [e]
    exact ⟨⟨r, rfl⟩, rfl, rfl, rfl, rfl⟩
  | resetA | resetB => exact ⟨⟨_, rfl⟩, rfl, rfl, rfl, rfl⟩

/-- A push or reset of Framer-A moves its generation by one, and every other command keeps its registers
and WBA. -/
theorem Completes.framerA {i : Instr} {s t : State} (h : Completes s i t) :
    (drivesA i → t.a.gen = s.a.gen + 1) ∧ (¬ drivesA i → t.a = s.a ∧ t.wba = s.wba) := by
  cases h with
  | plain notA _ ends =>
    obtain ⟨_, _, _, _, _, rfl, -⟩ := ends
    exact ⟨(absurd · notA), fun _ => ⟨rfl, rfl⟩⟩
  | pushA b =>
    obtain ⟨_, _, _, e, hg⟩ := pushA_frame b s
    rw [e]
    exact ⟨fun _ => hg, (absurd (.inl ⟨b, rfl⟩) ·)⟩
  | resetA => exact ⟨fun _ => rfl, (absurd (.inr rfl) ·)⟩
  | pushB c =>
    obtain ⟨_, _, _, e, -⟩ := pushB_frame c s
    rw [e]
    exact ⟨fun h => by simp [drivesA] at h, fun _ => ⟨rfl, rfl⟩⟩
  | resetB => exact ⟨fun h => by simp [drivesA] at h, fun _ => ⟨rfl, rfl⟩⟩

/-- A push or reset of Framer-B moves its generation by one, and every other command keeps its registers
and WBB. -/
theorem Completes.framerB {i : Instr} {s t : State} (h : Completes s i t) :
    (drivesB i → t.b.gen = s.b.gen + 1) ∧ (¬ drivesB i → t.b = s.b ∧ t.wbb = s.wbb) := by
  cases h with
  | plain _ notB ends =>
    obtain ⟨_, _, _, _, _, rfl, -⟩ := ends
    exact ⟨(absurd · notB), fun _ => ⟨rfl, rfl⟩⟩
  | pushB c =>
    obtain ⟨_, _, _, e, hg⟩ := pushB_frame c s
    rw [e]
    exact ⟨fun _ => hg, (absurd (.inl ⟨c, rfl⟩) ·)⟩
  | resetB => exact ⟨fun _ => rfl, (absurd (.inr rfl) ·)⟩
  | pushA b =>
    obtain ⟨_, _, _, e, -⟩ := pushA_frame b s
    rw [e]
    exact ⟨fun h => by simp [drivesB] at h, fun _ => ⟨rfl, rfl⟩⟩
  | resetA => exact ⟨fun h => by simp [drivesB] at h, fun _ => ⟨rfl, rfl⟩⟩

/-- Settles O52: each half is what the framer's own commands and the others do. -/
theorem onlyFramerCommandsMoveAFramer : Obligations.OnlyFramerCommandsMoveAFramer := by
  intro i s t h
  obtain ⟨movesA, keepsA⟩ := (Completes.of_exec h).framerA
  obtain ⟨movesB, keepsB⟩ := (Completes.of_exec h).framerB
  exact ⟨movesA, keepsA, movesB, keepsB⟩

end Sys2Proof.Machine
end

section
/-! PROOF. Each framer returns views of its own kind only (10_state.md R41, R42, R441). -/

namespace Sys2Proof.Machine

/-- `t` has no binary view among its results that `s` has not. -/
def NoNewViewA (s t : State) : Prop :=
  ∀ v, Result.viewA v ∈ t.results → Result.viewA v ∈ s.results

/-- `t` has no text view among its results that `s` has not. -/
def NoNewViewB (s t : State) : Prop :=
  ∀ v, Result.viewB v ∈ t.results → Result.viewB v ∈ s.results

theorem NoNewViewA.of_results {s t : State} {r : Result} (h : t.results = r :: s.results)
    (hr : ∀ v, r ≠ .viewA v) : NoNewViewA s t := by
  intro v hv
  rw [h] at hv
  exact (List.mem_cons.1 hv).resolve_left (Ne.symm (hr v))

theorem NoNewViewB.of_results {s t : State} {r : Result} (h : t.results = r :: s.results)
    (hr : ∀ v, r ≠ .viewB v) : NoNewViewB s t := by
  intro v hv
  rw [h] at hv
  exact (List.mem_cons.1 hv).resolve_left (Ne.symm (hr v))

/-! ### Framer-A -/

/-- The state after the append of a byte for which there is room (`State.appendA_room`). -/
def appendedA (s : State) (b : Byte) : State :=
  { s with wba := s.wba.write s.a.wr b, a := { s.a with wr := s.a.wr + 1 } }

theorem NoNewViewB.of_appendA {s : State} {b : Byte} {rest : State → State}
    (h : ∀ s', NoNewViewB s' (rest s')) : NoNewViewB s (s.appendA b rest) := by
  by_cases room : s.a.wr < s.cfg.bufCapA
  · rw [State.appendA_room b rest room]
    exact h (appendedA s b)
  · rw [State.appendA_full b rest (Nat.le_of_not_lt room)]
    exact .of_results rfl nofun

/-- Framer-A emits no text view. -/
theorem NoNewViewB.pushA (b : Byte) (s : State) : NoNewViewB s (pushA b s) := by
  suffices h : NoNewViewB (bumpGenA s) (dispatchA b (bumpGenA s)) from h
  generalize bumpGenA s = s
  unfold dispatchA
  split
  · unfold stepSeekSync
    split_ifs
    · exact .of_appendA fun _ => .of_results rfl nofun
    · exact .of_appendA fun _ => .of_results rfl nofun
    · exact .of_results rfl nofun
  all_goals refine .of_appendA fun s' => ?_
  · exact .of_results rfl nofun
  · split <;> exact .of_results rfl nofun
  · simp only; split <;> exact .of_results rfl nofun
  · split <;> exact .of_results rfl nofun
  · split
    · exact .of_results rfl nofun
    · simp only; split <;> exact .of_results rfl nofun
  · simp only; split <;> exact .of_results rfl nofun

/-! ### Framer-B -/

/-- The state after the append of a character for which there is room (`State.appendB_room`). -/
def appendedB (s : State) (c : Byte) : State :=
  { s with wbb := s.wbb.write s.b.wr c, b := { s.b with wr := s.b.wr + 1 } }

theorem NoNewViewA.of_appendB {s : State} {c : Byte} {rest : State → State}
    (h : ∀ s', NoNewViewA s' (rest s')) : NoNewViewA s (s.appendB c rest) := by
  by_cases room : s.b.wr < s.cfg.bufCapB
  · rw [State.appendB_room c rest room]
    exact h (appendedB s c)
  · rw [State.appendB_full c rest (Nat.le_of_not_lt room)]
    exact .of_results rfl nofun

theorem NoNewViewA.of_closeField {s : State} {rest : State → State}
    (h : ∀ s', NoNewViewA s' (rest s')) : NoNewViewA s (closeField s rest) := by
  rw [closeField_eq]
  split
  · exact .of_results rfl nofun
  · exact h (s.setB (closedB s))

/-- Framer-B emits no binary view. -/
theorem NoNewViewA.pushB (c : Byte) (s : State) : NoNewViewA s (pushB c s) := by
  suffices h : NoNewViewA (bumpGenB s) (dispatchB c (bumpGenB s)) from h
  generalize bumpGenB s = s
  unfold dispatchB
  split
  · unfold stepSeekStart
    split <;> exact .of_results rfl nofun
  · unfold stepFields
    split_ifs
    · exact .of_results rfl nofun
    · exact .of_closeField fun _ => .of_results rfl nofun
    · exact .of_closeField (s := s.setB _) fun _ => .of_appendB fun _ => .of_results rfl nofun
    · exact .of_appendB (s := s.setB _) fun _ => .of_results rfl nofun
  · unfold stepHex
    split <;> exact .of_results rfl nofun
  · unfold stepCRLF validateB
    split_ifs
    · exact .of_results rfl nofun
    · exact .of_results rfl nofun
    · split
      · exact .of_results rfl nofun
      · split <;> exact .of_results rfl nofun
    · exact .of_results rfl nofun

/-- A command of no framer returns no view. -/
theorem EndsPlain.noNewView {s t : State} (h : EndsPlain s t) : NoNewViewA s t ∧ NoNewViewB s t := by
  obtain ⟨_, _, _, _, r, rfl, noView, -⟩ := h
  exact ⟨.of_results rfl (by rintro v rfl; cases noView),
    .of_results rfl (by rintro v rfl; cases noView)⟩

end Sys2Proof.Machine
end

section
/-! PROOF. The part of the invariant about Framer-A, WBA and the binary views, kept by every push and reset
of the framer (44_binary_framer.md, 10_state.md R40, R41). -/

namespace Sys2Proof.Machine

/-- Framer-A's registers lie in their ranges, and WBA is in canonical form inside its space (R34, R70). -/
structure RangeA (s : State) : Prop where
  wr : s.a.wr ≤ s.cfg.bufCapA
  poff : s.a.poff ≤ s.cfg.bufCapA
  idx : s.a.idx < 256
  buffer : Buffer.wf s.cfg.bufCapA s.wba = true

/-- At most one binary view is live (R40). -/
def OneLiveA (s : State) : Prop :=
  ∀ v v', Result.viewA v ∈ s.results → Result.viewA v' ∈ s.results →
    v.gen = s.a.gen → v'.gen = s.a.gen → v = v'

/-- The part of `Legal` about Framer-A, WBA and the binary views (`legal_iff`). -/
structure LegalA (s : State) : Prop where
  range : RangeA s
  framer : FramerALegal s
  views : ViewsALegal s
  oneLive : OneLiveA s

/-- Nothing outside Framer-A, WBA and the views bears on `LegalA`. -/
theorem LegalA.of_frame {s t : State} (h : LegalA s) (hcfg : t.cfg = s.cfg) (ha : t.a = s.a)
    (hwba : t.wba = s.wba) (hinst : t.inst = s.inst)
    (hres : NoNewViewA s t) : LegalA t where
  range := by
    obtain ⟨hwr, hpoff, hidx, hbuf⟩ := h.range
    constructor <;> simpa only [hcfg, ha, hwba]
  framer := by simpa only [FramerALegal, storedA, ha, hwba] using h.framer
  views v hv := by simpa only [storedA, ha, hwba, hinst] using h.views v (hres v hv)
  oneLive v v' hv hv' := by simpa only [ha] using h.oneLive v v' (hres v hv) (hres v' hv')

/-! ### After the generation step (R40) -/

/-- Every binary view returned is of this life, and none is live any more: how things stand once a push
has moved the generation. -/
def PastViewsA (s : State) : Prop :=
  ∀ v, Result.viewA v ∈ s.results → v.origin = s.inst ∧ v.gen < s.a.gen

/-- Framer-A handles the byte of a push: its earlier views are dead, and what it has stored of the frame is
below the write index. -/
structure PushingA (s : State) : Prop where
  range : RangeA s
  past : PastViewsA s
  stored : storedA s

theorem LegalA.past_bump {s : State} (h : LegalA s) : PastViewsA (bumpGenA s) := by
  intro v hv
  obtain ⟨horigin, hgen, -⟩ := h.views v hv
  exact ⟨horigin, Nat.lt_succ_of_le hgen⟩

/-- A push that ends in no view: the dead views stay dead. -/
theorem LegalA.of_past {s t : State} (past : PastViewsA s) (range : RangeA t)
    (framer : FramerALegal t) (hinst : t.inst = s.inst) (hgen : t.a.gen = s.a.gen)
    (hres : NoNewViewA s t) : LegalA t where
  range := range
  framer := framer
  views v hv := by
    obtain ⟨horigin, hlt⟩ := past v (hres v hv)
    rw [hinst, hgen]
    exact ⟨horigin, hlt.le, fun he => absurd he hlt.ne⟩
  oneLive v _ hv _ he _ := by
    rw [hgen] at he
    exact absurd he (past v (hres v hv)).2.ne

/-- NONE with the registers `a`, which store what `s` stores. -/
theorem LegalA.of_noneA {s : State} {a : FramerA} (h : PushingA s) (hgen : a.gen = s.a.gen)
    (hwr : a.wr = s.a.wr) (hpoff : a.poff ≤ s.cfg.bufCapA) (hidx : a.idx < 256)
    (hpos : positionA a) : LegalA (noneA s a) :=
  .of_past h.past ⟨hwr ▸ h.range.wr, hpoff, hidx, h.range.buffer⟩
    ⟨hpos, fun _ i hi => h.stored i (hwr ▸ hi)⟩ rfl hgen (.of_results rfl nofun)

/-- An error (R420): the framer scans again, and keeps its ranges. -/
theorem LegalA.of_raise {s : State} (range : RangeA s) (past : PastViewsA s) (e : ErrorKind) :
    LegalA (s.raise (some .a) e) :=
  .of_past past ⟨range.wr, range.poff, by simp [State.raise_a], Buffer.wf_forget _ _⟩
    ⟨trivial, (absurd rfl ·)⟩ rfl rfl (.of_results rfl nofun)

/-- EmitA with the registers `a` (R283): the one live view is the one just built, and its slices lie in
the stored frame. -/
theorem LegalA.of_emitA {s : State} {a : FramerA} (h : PushingA s) (hgen : a.gen = s.a.gen)
    (hwr : a.wr = s.a.wr) (hpoff : a.poff ≤ s.cfg.bufCapA)
    (hpayload : a.poff + a.n.toNat ≤ a.wr)
    (hsig : isSigned a = true → a.poff + a.n.toNat + 2 + 13 ≤ a.wr) :
    LegalA (emitA (s.setA a)) := by
  have only : ∀ v, Result.viewA v ∈ (emitA (s.setA a)).results → v.gen = a.gen →
      v = viewOf s.inst a := by
    intro v hv he
    rw [emitA_eq, List.mem_cons] at hv
    rcases hv with hv | hv
    · exact Result.viewA.inj hv
    · exact absurd (he.trans hgen) (h.past v hv).2.ne
  refine ⟨⟨hwr ▸ h.range.wr, hpoff, Nat.zero_lt_succ _, h.range.buffer⟩,
    ⟨trivial, (absurd rfl ·)⟩, fun v hv => ?_,
    fun v v' hv hv' he he' => (only v hv he).trans (only v' hv' he').symm⟩
  rw [emitA_eq, List.mem_cons] at hv
  rcases hv with hv | hv
  · obtain rfl := Result.viewA.inj hv
    refine ⟨rfl, le_rfl, fun _ => ⟨rfl, fun i hi => h.stored i (hwr ▸ hi), hpayload, ?_⟩⟩
    cases hs : isSigned a
    · simp [viewOf, hs]
    · simpa [viewOf, hs, emitA_eq] using hsig hs
  · obtain ⟨horigin, hlt⟩ := h.past v hv
    rw [← hgen] at hlt
    exact ⟨horigin, hlt.le, fun he => absurd he hlt.ne⟩

/-! ### The append (R271) -/

theorem PushingA.append {s : State} (h : PushingA s) (b : Byte) (room : s.a.wr < s.cfg.bufCapA) :
    PushingA (appendedA s b) := by
  refine ⟨⟨room, h.range.poff, h.range.idx, Buffer.wf_write b h.range.buffer room⟩, h.past,
    fun i hi => ?_⟩
  simp only [appendedA, Buffer.read?_write]
  split
  · rfl
  · exact h.stored i (by simp only [appendedA] at hi; omega)

theorem LegalA.of_appendA {s : State} {b : Byte} {rest : State → State} (h : PushingA s)
    (hrest : PushingA (appendedA s b) → LegalA (rest (appendedA s b))) :
    LegalA (s.appendA b rest) := by
  by_cases room : s.a.wr < s.cfg.bufCapA
  · rw [State.appendA_room b rest room]
    exact hrest (h.append b room)
  · rw [State.appendA_full b rest (Nat.le_of_not_lt room)]
    exact .of_raise h.range h.past _

/-! ### The steps of a push (R272 to R279) -/

section
variable {s : State} (b : Byte)

theorem LegalA.startFrame (v : Ver) (range : RangeA s) (past : PastViewsA s) :
    LegalA (startFrame v b s) := by
  refine .of_appendA ⟨⟨Nat.zero_le _, range.poff, range.idx, Buffer.wf_forget _ _⟩, past, nofun⟩
    fun h => ?_
  exact .of_noneA h rfl rfl range.poff range.idx rfl

theorem LegalA.stepSeekSync (range : RangeA s) (past : PastViewsA s) (hs : s.a.state = .seekSync) :
    LegalA (stepSeekSync b s) := by
  unfold Machine.stepSeekSync
  split_ifs
  · exact .startFrame b .v2 range past
  · exact .startFrame b .v1 range past
  · refine .of_past past ⟨range.wr, range.poff, range.idx, range.buffer⟩
      ⟨?_, (absurd hs ·)⟩ rfl rfl (.of_results rfl nofun)
    simp only [State.returns_a, positionA, hs]

theorem LegalA.stepLength (h : PushingA s) (hwr : s.a.wr = 1) : LegalA (stepLength b s) := by
  refine .of_appendA h fun h' => .of_noneA h' rfl rfl h.range.poff (Nat.zero_lt_succ _) ?_
  cases hv : s.a.ver <;> simp [positionA, appendedA, hv, hwr, headerCount, headerLength]

theorem LegalA.stepFlags (h : PushingA s) (hs : s.a.state = .readV2Flags) (hver : s.a.ver = .v2)
    (hidx : s.a.idx < 2) (hwr : s.a.wr = 2 + s.a.idx) : LegalA (stepFlags b s) := by
  refine .of_appendA h fun h' => ?_
  split
  case isTrue h0 =>
    replace h0 : s.a.idx = 0 := h0
    exact .of_noneA h' rfl rfl h.range.poff (by simp)
      (by simp [positionA, appendedA, hs, hver, hwr, h0])
  case isFalse h0 =>
    replace h0 : s.a.idx ≠ 0 := h0
    refine .of_noneA h' rfl rfl h.range.poff (by simp) ?_
    simp [positionA, appendedA, hver, headerCount, headerLength]
    omega

theorem LegalA.stepHeader (h : PushingA s) (hs : s.a.state = .readCoreHeader)
    (hidx : s.a.idx < headerCount s.a.ver)
    (hwr : s.a.wr + headerCount s.a.ver = headerLength s.a.ver + s.a.idx) : LegalA (stepHeader b s) := by
  refine .of_appendA h fun h' => ?_
  obtain ⟨kstate, kver, kn, kidx, -, kwr, kpoff⟩ := storeHeader_keeps (appendedA s b).a b
  have kgen := storeHeader_gen (appendedA s b).a b
  have hle : s.a.wr + 1 ≤ s.cfg.bufCapA := h'.range.wr
  have hcount : headerCount s.a.ver ≤ 6 := by cases s.a.ver <;> simp [headerCount]
  generalize storeHeader (appendedA s b).a b = a at *
  simp only [appendedA] at kstate kver kn kidx kwr kpoff
  simp only [kidx, kver]
  split
  case isTrue hlast =>
    refine .of_noneA h' kgen kwr (kwr ▸ hle) (by simp) ?_
    by_cases hn : 0 < a.n.toNat <;> simp [positionA, hn, kwr] <;> omega
  case isFalse hmore =>
    refine .of_noneA h' kgen kwr (kpoff ▸ h.range.poff) (by simp; omega) ?_
    simp [positionA, kstate, hs, kwr]; omega

theorem LegalA.stepPayload (h : PushingA s) (hs : s.a.state = .readPayload)
    (hpoff : s.a.poff = headerLength s.a.ver) (hidx : s.a.idx < s.a.n.toNat)
    (hwr : s.a.wr = s.a.poff + s.a.idx) : LegalA (stepPayload b s) := by
  have hn := s.a.n.isLt
  refine .of_appendA h fun h' => ?_
  split
  case isTrue hlast =>
    replace hlast : s.a.idx + 1 = s.a.n.toNat := hlast
    refine .of_noneA h' rfl rfl h.range.poff (by simp) ?_
    simp [positionA, appendedA, hpoff]; omega
  case isFalse hmore =>
    replace hmore : s.a.idx + 1 ≠ s.a.n.toNat := hmore
    refine .of_noneA h' rfl rfl h.range.poff (by simp [appendedA]; omega) ?_
    simp [positionA, appendedA, hs, hpoff]; omega

theorem LegalA.stepChecksum (h : PushingA s) (hs : s.a.state = .readChecksum)
    (hpoff : s.a.poff = headerLength s.a.ver) (hidx : s.a.idx < 2)
    (hwr : s.a.wr = s.a.poff + s.a.n.toNat + s.a.idx) : LegalA (stepChecksum b s) := by
  refine .of_appendA h fun h' => ?_
  split
  case isTrue h0 =>
    replace h0 : s.a.idx = 0 := h0
    refine .of_noneA h' rfl rfl h.range.poff (by simp) ?_
    simp [positionA, appendedA, hs, hpoff]; omega
  case isFalse h0 =>
    replace h0 : s.a.idx ≠ 0 := h0
    simp only
    split
    case isTrue hsigned =>
      refine .of_noneA h' rfl rfl h.range.poff (by simp) ⟨hsigned, hpoff, by simp, ?_⟩
      simp [appendedA]; omega
    case isFalse hunsigned =>
      exact .of_emitA h' rfl rfl h.range.poff (by simp [appendedA]; omega) (absurd · hunsigned)

theorem LegalA.stepSignature (h : PushingA s) (hs : s.a.state = .readSignature)
    (hsigned : isSigned s.a = true) (hpoff : s.a.poff = headerLength s.a.ver) (hidx : s.a.idx < 13)
    (hwr : s.a.wr = s.a.poff + s.a.n.toNat + 2 + s.a.idx) : LegalA (stepSignature b s) := by
  refine .of_appendA h fun h' => ?_
  simp only
  split
  case isTrue hlast =>
    replace hlast : s.a.idx + 1 = 13 := hlast
    exact .of_emitA h' rfl rfl h.range.poff (by simp [appendedA]; omega)
      (fun _ => by simp [appendedA]; omega)
  case isFalse hmore =>
    replace hmore : s.a.idx + 1 ≠ 13 := hmore
    refine .of_noneA h' rfl rfl h.range.poff (by simp [appendedA]; omega) ?_
    simp only [positionA, appendedA, hs]
    exact ⟨hsigned, hpoff, by omega, by omega⟩

/-- The push after the generation step, by the framer's state. -/
theorem LegalA.dispatchA (range : RangeA s) (past : PastViewsA s) (framer : FramerALegal s) :
    LegalA (dispatchA b s) := by
  obtain ⟨pos, stored⟩ := framer
  unfold Machine.dispatchA
  unfold positionA at pos
  cases hs : s.a.state <;> simp only [hs] at pos ⊢
  case seekSync => exact .stepSeekSync b range past hs
  all_goals have h : PushingA s := ⟨range, past, stored (by simp [hs])⟩
  case readLength => exact .stepLength b h pos
  case readV2Flags =>
    obtain ⟨hver, hidx, hwr⟩ := pos
    exact .stepFlags b h hs hver hidx hwr
  case readCoreHeader =>
    obtain ⟨hidx, hwr⟩ := pos
    exact .stepHeader b h hs hidx hwr
  case readPayload =>
    obtain ⟨hpoff, hidx, hwr⟩ := pos
    exact .stepPayload b h hs hpoff hidx hwr
  case readChecksum =>
    obtain ⟨hpoff, hidx, hwr⟩ := pos
    exact .stepChecksum b h hs hpoff hidx hwr
  case readSignature =>
    obtain ⟨hsigned, hpoff, hidx, hwr⟩ := pos
    exact .stepSignature b h hs hsigned hpoff hidx hwr

end

theorem LegalA.pushA {s : State} (b : Byte) (h : LegalA s) : LegalA (pushA b s) :=
  .dispatchA b ⟨h.range.wr, h.range.poff, h.range.idx, h.range.buffer⟩ h.past_bump h.framer

/-- What a reset leaves unspecified in Framer-A lies in its range. -/
theorem RangeA.of_junkA {s : State} {i : BlockId} {d : Nat}
    (ha : s.a = { junkA i d s.cfg.bufCapA with gen := s.a.gen })
    (buffer : Buffer.wf s.cfg.bufCapA s.wba = true) : RangeA s where
  wr := by rw [ha]; exact Nat.zero_le _
  poff := by rw [ha]; exact Nat.le_of_lt_succ (Nat.mod_lt _ (Nat.succ_pos _))
  idx := by rw [ha]; exact Nat.mod_lt _ (by decide)
  buffer := buffer

theorem LegalA.resetA {s : State} (h : LegalA s) : LegalA (resetA s) :=
  .of_past h.past_bump (.of_junkA rfl (Buffer.wf_forget _ _)) ⟨trivial, (absurd rfl ·)⟩ rfl rfl
    (.of_results rfl nofun)

end Sys2Proof.Machine
end

section
/-! PROOF. The part of the invariant about Framer-B, WBB and the text views, kept by every push and reset of
the framer (45_text_framer.md, 10_state.md R40, R42). -/

namespace Sys2Proof.Machine

/-- Framer-B's registers lie in their ranges, and WBB is in canonical form inside its space (R36, R70). A
conjunction, like `InRange`: a change of registers it does not name keeps it by definition. -/
def RangeB (s : State) : Prop :=
  s.b.wr ≤ s.cfg.bufCapB ∧ s.b.fstart ≤ s.cfg.bufCapB ∧ s.b.idx < 2
    ∧ s.b.fcount ≤ s.cfg.fieldCap ∧ s.b.flist.length = s.cfg.fieldCap
    ∧ (s.b.talker = [] ∨ s.b.talker.length = 2) ∧ (s.b.sid = [] ∨ s.b.sid.length = 3)
    ∧ Buffer.wf s.cfg.bufCapB s.wbb = true

/-- At most one text view is live (R40). -/
def OneLiveB (s : State) : Prop :=
  ∀ v v', Result.viewB v ∈ s.results → Result.viewB v' ∈ s.results →
    v.gen = s.b.gen → v'.gen = s.b.gen → v = v'

/-- The part of `Legal` about Framer-B, WBB and the text views (`legal_iff`). -/
structure LegalB (s : State) : Prop where
  range : RangeB s
  framer : FramerBLegal s
  views : ViewsBLegal s
  oneLive : OneLiveB s

/-- Nothing outside Framer-B, WBB and the views bears on `LegalB`. -/
theorem LegalB.of_frame {s t : State} (h : LegalB s) (hcfg : t.cfg = s.cfg) (hb : t.b = s.b)
    (hwbb : t.wbb = s.wbb) (hinst : t.inst = s.inst)
    (hres : NoNewViewB s t) : LegalB t where
  range := by simpa only [RangeB, hcfg, hb, hwbb] using h.range
  framer := by
    simpa only [FramerBLegal, sentenceLegal, storedB, State.wbbRun, State.wbbByte, hb, hwbb, hinst]
      using h.framer
  views v hv := by simpa only [storedB, hb, hwbb, hinst] using h.views v (hres v hv)
  oneLive v v' hv hv' := by simpa only [hb] using h.oneLive v v' (hres v hv) (hres v' hv')

/-! ### After the generation step (R40) -/

/-- Every text view returned is of this life, and none is live any more: how things stand once a push has
moved the generation. -/
def PastViewsB (s : State) : Prop :=
  ∀ v, Result.viewB v ∈ s.results → v.origin = s.inst ∧ v.gen < s.b.gen

/-- The clauses of `sentenceLegal` but the running XOR, which a push folds before it appends (R314). -/
def TokensB (s : State) : Prop :=
  s.b.fstart ≤ s.b.wr
    ∧ (∀ sl, sl ∈ s.b.flist.take s.b.fcount → sl.off + sl.len ≤ s.b.wr)
    ∧ (s.b.hdr = false → s.b.fstart = 0 ∧ s.b.fcount = 0)
    ∧ (s.b.talker = [] ↔ s.b.sid = [])

/-- The running XOR is the XOR of the stored body (R324). -/
def FoldedB (s : State) : Prop := s.b.xor = xorFold (s.wbbRun ⟨0, s.b.wr⟩) 0x00

/-- Framer-B handles a character inside a sentence: its earlier views are dead, and its registers are those
of the body stored so far, the XOR aside. -/
structure PushingB (s : State) : Prop where
  range : RangeB s
  past : PastViewsB s
  tokens : TokensB s
  stored : storedB s

theorem sentenceLegal_iff (s : State) : sentenceLegal s ↔ TokensB s ∧ FoldedB s := by
  simp only [sentenceLegal, TokensB, FoldedB, and_assoc]

theorem LegalB.past_bump {s : State} (h : LegalB s) : PastViewsB (bumpGenB s) := by
  intro v hv
  obtain ⟨horigin, hgen, -⟩ := h.views v hv
  exact ⟨horigin, Nat.lt_succ_of_le hgen⟩

/-- A push that ends in no view: the dead views stay dead. -/
theorem LegalB.of_past {s t : State} (past : PastViewsB s) (range : RangeB t)
    (framer : FramerBLegal t) (hinst : t.inst = s.inst) (hgen : t.b.gen = s.b.gen)
    (hres : NoNewViewB s t) : LegalB t where
  range := range
  framer := framer
  views v hv := by
    obtain ⟨horigin, hlt⟩ := past v (hres v hv)
    rw [hinst, hgen]
    exact ⟨horigin, hlt.le, fun he => absurd he hlt.ne⟩
  oneLive v _ hv _ he _ := by
    rw [hgen] at he
    exact absurd he (past v (hres v hv)).2.ne

/-- NONE inside a sentence. -/
theorem LegalB.of_noMessage {s : State} (h : PushingB s) (folded : FoldedB s) :
    LegalB (s.returns .noMessage) :=
  .of_past h.past h.range (fun _ => ⟨(sentenceLegal_iff s).2 ⟨h.tokens, folded⟩, h.stored⟩) rfl rfl
    (.of_results rfl nofun)

/-- An error (R420): the framer scans again, and keeps its ranges. -/
theorem LegalB.of_raise {s : State} (range : RangeB s) (past : PastViewsB s) (e : ErrorKind) :
    LegalB (s.raise (some .b) e) := by
  obtain ⟨hwr, hstart, hidx, hfcount, hflist, htalker, hsid, -⟩ := range
  exact .of_past past
    ⟨hwr, hstart, hidx, hfcount, hflist, htalker, hsid, Buffer.wf_forget _ _⟩
    (absurd rfl ·) rfl rfl (.of_results rfl nofun)

/-- The view of a valid sentence (R322): it is the one live view, and its tokens lie in the stored
body. -/
theorem LegalB.of_emit {s : State} (h : PushingB s) :
    LegalB ((s.setB { s.b with state := .seekStart }).returns (.viewB (textViewOf s.inst s.b))) := by
  obtain ⟨-, -, -, hfcount, hflist, -⟩ := h.range
  obtain ⟨-, hinside, -⟩ := h.tokens
  refine ⟨h.range, (absurd rfl ·), fun v hv => ?_, fun v v' hv hv' he he' => ?_⟩
  · rw [State.returns_results, List.mem_cons] at hv
    rcases hv with hv | hv
    · obtain rfl := Result.viewB.inj hv
      refine ⟨rfl, le_rfl, fun _ => ⟨rfl, h.stored, ?_, hinside⟩⟩
      simp [textViewOf, hflist, hfcount]
    · obtain ⟨horigin, hlt⟩ := h.past v hv
      exact ⟨horigin, hlt.le, fun he => absurd he hlt.ne⟩
  · have only : ∀ w, Result.viewB w ∈ Result.viewB (textViewOf s.inst s.b) :: s.results →
        w.gen = s.b.gen → w = textViewOf s.inst s.b := by
      intro w hw hgen
      rcases List.mem_cons.1 hw with hw | hw
      · exact Result.viewB.inj hw
      · exact absurd hgen (h.past w hw).2.ne
    exact (only v hv he).trans (only v' hv' he').symm

/-! ### The parts of a push: registers, append, close (R311, R318) -/

section
variable {s : State}

/-- The step, the hex characters and the index bear on no token. -/
theorem PushingB.setPosition (h : PushingB s) (state : TextState) (hex : Byte × Byte) {idx : Nat}
    (hidx : idx < 2) : PushingB (s.setB { s.b with state := state, hex := hex, idx := idx }) := by
  obtain ⟨hwr, hstart, -, hrest⟩ := h.range
  exact ⟨⟨hwr, hstart, hidx, hrest⟩, h.past, h.tokens, h.stored⟩

theorem PushingB.setXor (h : PushingB s) (x : Byte) : PushingB (s.setB { s.b with xor := x }) :=
  ⟨h.range, h.past, h.tokens, h.stored⟩

/-- A field that starts at the write index of a sentence with a header (R316). -/
theorem PushingB.openField (h : PushingB s) (hdr : s.b.hdr = true) :
    PushingB (s.setB { s.b with fstart := s.b.wr }) := by
  obtain ⟨hwr, -, hrest⟩ := h.range
  obtain ⟨-, hinside, -, hids⟩ := h.tokens
  exact ⟨⟨hwr, hwr, hrest⟩, h.past, ⟨le_rfl, hinside, by simp [hdr], hids⟩, h.stored⟩

theorem appendedB_byte (s : State) (c : Byte) (i : Nat) :
    (appendedB s c).wbbByte i = if i = s.b.wr then c else s.wbbByte i := by
  simp only [State.wbbByte, appendedB, Buffer.read?_write, Buffer.write_epoch]
  split <;> rfl

/-- The append continues the stored body. -/
theorem appendedB_run (s : State) (c : Byte) :
    (appendedB s c).wbbRun ⟨0, s.b.wr + 1⟩ = s.wbbRun ⟨0, s.b.wr⟩ ++ [c] := by
  rw [State.wbbRun_succ]
  congr 1
  · refine List.map_congr_left fun i hi => ?_
    rw [appendedB_byte, if_neg (by simp at hi ⊢; omega)]
  · rw [appendedB_byte, if_pos (by simp)]

theorem PushingB.append (h : PushingB s) (c : Byte) (room : s.b.wr < s.cfg.bufCapB) :
    PushingB (appendedB s c) := by
  obtain ⟨-, hstart, hidx, hfcount, hflist, htalker, hsid, hbuf⟩ := h.range
  obtain ⟨hfstart, hinside, hrest⟩ := h.tokens
  refine ⟨⟨room, hstart, hidx, hfcount, hflist, htalker, hsid, Buffer.wf_write c hbuf room⟩, h.past,
    ⟨Nat.le_succ_of_le hfstart, fun sl hsl => Nat.le_succ_of_le (hinside sl hsl), hrest⟩,
    fun i hi => ?_⟩
  simp only [appendedB, Buffer.read?_write]
  split
  · rfl
  · exact h.stored i (by simp only [appendedB] at hi; omega)

/-- The append of the character the XOR has just been folded with. -/
theorem FoldedB.append {c : Byte} (h : s.b.xor = xorFold (s.wbbRun ⟨0, s.b.wr⟩) 0x00 ^^^ c) :
    FoldedB (appendedB s c) := by
  have hrun := appendedB_run s c
  unfold FoldedB
  rw [show (appendedB s c).b.wr = s.b.wr + 1 from rfl, hrun, xorFold_append]
  exact h

theorem LegalB.of_appendB {c : Byte} {rest : State → State} (h : PushingB s)
    (hrest : PushingB (appendedB s c) → LegalB (rest (appendedB s c))) :
    LegalB (s.appendB c rest) := by
  by_cases room : s.b.wr < s.cfg.bufCapB
  · rw [State.appendB_room c rest room]
    exact hrest (h.append c room)
  · rw [State.appendB_full c rest (Nat.le_of_not_lt room)]
    exact .of_raise h.range h.past _

theorem closedB_hdr (s : State) : (closedB s).hdr = true := by
  unfold closedB
  simp only
  split_ifs with hdr
  · exact hdr
  · exact hdr
  · rfl
  · rfl

/-- The entries stored once one more is: the ones before it, and itself. -/
theorem mem_take_set {l : List Slice} {n : Nat} {x y : Slice} (hn : n < l.length)
    (h : y ∈ (l.set n x).take (n + 1)) : y ∈ l.take n ∨ y = x := by
  rw [List.take_add_one, List.take_set_of_le le_rfl, List.getElem?_set_self hn] at h
  simpa using h

/-- CloseField keeps the registers of a sentence in progress: the entry it stores ends at the write
index (R318). -/
theorem PushingB.close (h : PushingB s) : PushingB (s.setB (closedB s)) := by
  obtain ⟨hwr, hstart, hidx, hfcount, hflist, htalker, hsid, hbuf⟩ := h.range
  obtain ⟨hfstart, hinside, -, hids⟩ := h.tokens
  unfold closedB
  simp only
  split_ifs with hs hroom hlen
  · refine ⟨⟨hwr, hstart, hidx, hroom, by simpa using hflist, htalker, hsid, hbuf⟩, h.past,
      ⟨hfstart, fun sl hsl => ?_, by simp [hs], hids⟩, h.stored⟩
    rcases mem_take_set (by omega) hsl with hsl | rfl
    · exact hinside sl hsl
    · simp; omega
  · exact h
  · exact ⟨⟨hwr, hstart, hidx, hfcount, hflist, .inr (by simp), .inr (by simp), hbuf⟩, h.past,
      ⟨hfstart, hinside, nofun, by simp [← List.length_eq_zero_iff]⟩, h.stored⟩
  · exact ⟨⟨hwr, hstart, hidx, hfcount, hflist, .inl rfl, .inl rfl, hbuf⟩, h.past,
      ⟨hfstart, hinside, nofun, Iff.rfl⟩, h.stored⟩

theorem LegalB.of_closeField {rest : State → State} (h : PushingB s)
    (hrest : PushingB (s.setB (closedB s)) → LegalB (rest (s.setB (closedB s)))) :
    LegalB (closeField s rest) := by
  rw [closeField_eq]
  split
  · exact .of_raise (s := s.setB { s.b with hdr := true }) h.range h.past _
  · exact hrest h.close

end

/-! ### The steps of a push (R312 to R322) -/

section
variable {s : State} (c : Byte)

theorem LegalB.stepSeekStart (range : RangeB s) (past : PastViewsB s)
    (hs : s.b.state = .seekStart) : LegalB (stepSeekStart c s) := by
  unfold Machine.stepSeekStart
  split
  · obtain ⟨-, -, hidx, -, hflist, -⟩ := range
    refine .of_noMessage ⟨⟨Nat.zero_le _, Nat.zero_le _, hidx, Nat.zero_le _, hflist, .inl rfl,
      .inl rfl, Buffer.wf_forget _ _⟩, past, ⟨le_rfl, nofun, fun _ => ⟨rfl, rfl⟩, Iff.rfl⟩, nofun⟩ rfl
  · exact .of_past past range (absurd hs ·) rfl rfl (.of_results rfl nofun)

theorem LegalB.stepStar (h : PushingB s) (folded : FoldedB s) : LegalB (stepStar s) := by
  refine .of_closeField h fun h' =>
    .of_noMessage (h'.setPosition .readChecksumHex _ (Nat.zero_lt_succ _)) ?_
  obtain ⟨-, hxor, hwr, -⟩ := closedB_keeps s
  simp only [FoldedB, State.setB_b, hxor, hwr]
  exact folded

theorem LegalB.stepComma (h : PushingB s)
    (hxor : s.b.xor = xorFold (s.wbbRun ⟨0, s.b.wr⟩) 0x00 ^^^ chr ',') : LegalB (stepComma s) := by
  refine .of_closeField h fun hclosed => .of_appendB hclosed fun h' =>
    .of_noMessage (h'.openField (closedB_hdr s)) ?_
  obtain ⟨-, kxor, kwr, -⟩ := closedB_keeps s
  refine FoldedB.append (s := s.setB (closedB s)) ?_
  simp only [State.setB_b, kxor, kwr]
  exact hxor

theorem LegalB.stepFields (h : PushingB s) (folded : FoldedB s) : LegalB (stepFields c s) := by
  have hxor : s.b.xor ^^^ c = xorFold (s.wbbRun ⟨0, s.b.wr⟩) 0x00 ^^^ c := by rw [folded]
  unfold Machine.stepFields
  split_ifs with hlf hstar hcomma
  · exact .of_raise h.range h.past _
  · exact .stepStar h folded
  · subst hcomma
    exact .stepComma (h.setXor _) hxor
  · exact .of_appendB (h.setXor _) fun h' => .of_noMessage h' (FoldedB.append hxor)

theorem LegalB.stepHex (h : PushingB s) (folded : FoldedB s) : LegalB (stepHex c s) := by
  unfold Machine.stepHex
  split
  · exact .of_noMessage (h.setPosition s.b.state _ (by decide : 1 < 2)) folded
  · exact .of_noMessage (h.setPosition .readCRLF _ (by decide : 0 < 2)) folded

theorem LegalB.validateB (h : PushingB s) : LegalB (validateB s) := by
  unfold Machine.validateB
  split
  · exact .of_raise h.range h.past _
  · split
    · exact .of_emit h
    · exact .of_raise h.range h.past _

theorem LegalB.stepCRLF (h : PushingB s) (folded : FoldedB s) : LegalB (stepCRLF c s) := by
  unfold Machine.stepCRLF
  split_ifs
  · exact .of_noMessage (h.setPosition s.b.state s.b.hex (by decide : 1 < 2)) folded
  · exact .of_raise h.range h.past _
  · exact .validateB h
  · exact .of_raise h.range h.past _

/-- The push after the generation step, by the framer's state. -/
theorem LegalB.dispatchB (range : RangeB s) (past : PastViewsB s) (framer : FramerBLegal s) :
    LegalB (dispatchB c s) := by
  unfold Machine.dispatchB
  by_cases hs : s.b.state = .seekStart
  · rw [hs]
    exact .stepSeekStart c range past hs
  · obtain ⟨hsentence, stored⟩ := framer hs
    obtain ⟨tokens, folded⟩ := (sentenceLegal_iff s).1 hsentence
    have h : PushingB s := ⟨range, past, tokens, stored⟩
    split
    · exact absurd ‹_› hs
    · exact .stepFields c h folded
    · exact .stepHex c h folded
    · exact .stepCRLF c h folded

end

theorem LegalB.pushB {s : State} (c : Byte) (h : LegalB s) : LegalB (pushB c s) :=
  .dispatchB c h.range h.past_bump h.framer

/-- What a reset leaves unspecified in Framer-B lies in its range. -/
theorem RangeB.of_junkB {s : State} {i : BlockId} {d : Nat}
    (hb : s.b = { junkB i d s.cfg.bufCapB s.cfg.fieldCap with gen := s.b.gen })
    (buffer : Buffer.wf s.cfg.bufCapB s.wbb = true) : RangeB s := by
  unfold RangeB
  rw [hb]
  refine ⟨Nat.zero_le _, Nat.le_of_lt_succ (Nat.mod_lt _ (Nat.succ_pos _)), Nat.mod_lt _ (by decide),
    Nat.le_of_lt_succ (Nat.mod_lt _ (Nat.succ_pos _)), by simp [junkB], ?_, ?_, buffer⟩
  · simp only [junkB]; split <;> simp
  · simp only [junkB]; split <;> simp

theorem LegalB.resetB {s : State} (h : LegalB s) : LegalB (resetB s) :=
  .of_past h.past_bump (.of_junkB rfl (Buffer.wf_forget _ _)) (absurd rfl ·) rfl rfl
    (.of_results rfl nofun)

end Sys2Proof.Machine
end

section
/-! PROOF. The invariant of the whole block (Safety.lean): it holds right after a reset, and every host
action keeps it. O48, O49, O53 and O60 rest on it. -/

namespace Sys2Proof.Machine

theorem inRange_iff (s : State) : InRange s ↔ RangeA s ∧ RangeB s := by
  constructor
  · rintro ⟨hwr, hpoff, hidx, bwr, bfstart, bidx, bfcount, bflist, btalker, bsid, hbufA, hbufB⟩
    exact ⟨⟨hwr, hpoff, hidx, hbufA⟩,
      ⟨bwr, bfstart, bidx, bfcount, bflist, btalker, bsid, hbufB⟩⟩
  · rintro ⟨⟨hwr, hpoff, hidx, hbufA⟩, bwr, bfstart, bidx, bfcount, bflist, btalker, bsid, hbufB⟩
    exact ⟨hwr, hpoff, hidx, bwr, bfstart, bidx, bfcount, bflist, btalker, bsid, hbufA, hbufB⟩

/-- The invariant is that of the configuration, of the OUT bytes and of each framer (R441). -/
theorem legal_iff (s : State) :
    Legal s ↔ Elaborated s ∧ Memory.wf s.out = true ∧ LegalA s ∧ LegalB s := by
  constructor
  · rintro ⟨elaborated, inRange, outWf, framerA, framerB, viewsA, viewsB, oneA, oneB⟩
    obtain ⟨rangeA, rangeB⟩ := (inRange_iff s).1 inRange
    exact ⟨elaborated, outWf, ⟨rangeA, framerA, viewsA, oneA⟩, ⟨rangeB, framerB, viewsB, oneB⟩⟩
  · rintro ⟨elaborated, outWf, ⟨rangeA, framerA, viewsA, oneA⟩, rangeB, framerB, viewsB, oneB⟩
    exact ⟨elaborated, (inRange_iff s).2 ⟨rangeA, rangeB⟩, outWf, framerA, framerB, viewsA, viewsB,
      oneA, oneB⟩

/-! ### Right after a reset (R46, R450, R453) -/

theorem Legal.of_isReset {s : State} (reset : IsReset s) (elaborated : Elaborated s)
    (outWf : Memory.wf s.out = true) : Legal s := by
  obtain ⟨-, -, hstateA, -, -, hstateB, -, -, hresults, inRange⟩ := reset
  obtain ⟨rangeA, rangeB⟩ := (inRange_iff s).1 inRange
  have noResult : ∀ r, r ∉ s.results := by simp [hresults]
  exact (legal_iff s).2 ⟨elaborated, outWf,
    ⟨rangeA, ⟨by simp [positionA, hstateA], absurd hstateA⟩, fun _ hv => absurd hv (noResult _),
      fun _ _ hv => absurd hv (noResult _)⟩,
    ⟨rangeB, absurd hstateB, fun _ hv => absurd hv (noResult _),
      fun _ _ hv => absurd hv (noResult _)⟩⟩

/-- Creation leaves a reset block, whatever stood before it. -/
theorem State.create_isReset (s : State) (cfg : Config) (crcx : List Byte) :
    IsReset (s.create cfg crcx) :=
  ⟨rfl, rfl, rfl, rfl, rfl, rfl, rfl, rfl, rfl,
    (inRange_iff _).2 ⟨.of_junkA rfl rfl, .of_junkB rfl rfl⟩⟩

theorem Legal.create {s : State} (h : Legal s) {cfg : Config} {crcx : List Byte}
    (elaborated : Elaborated (s.create cfg crcx)) : Legal (s.create cfg crcx) :=
  .of_isReset (s.create_isReset cfg crcx) elaborated h.outWf

/-- Settles O48: the reset state is one of those a reset leaves. -/
theorem resetIsLegal : Obligations.ResetIsLegal :=
  have reset : IsReset State.reset := by unfold IsReset InRange; decide
  ⟨reset, .of_isReset reset ⟨rfl, rfl⟩ rfl⟩

/-! ### Commands -/

/-- A command of no framer returns no view, so that each framer's part stays. -/
theorem Legal.of_plain {s t : State} (h : Legal s) (ends : EndsPlain s t) : Legal t := by
  obtain ⟨elaborated, outWf, legalA, legalB⟩ := (legal_iff s).1 h
  obtain ⟨noViewA, noViewB⟩ := ends.noNewView
  obtain ⟨_, _, _, _, _, rfl, -, hout⟩ := ends
  exact (legal_iff _).2 ⟨elaborated, hout outWf, legalA.of_frame rfl rfl rfl rfl noViewA,
    legalB.of_frame rfl rfl rfl rfl noViewB⟩

theorem Legal.pushA {s : State} (h : Legal s) (b : Byte) : Legal (pushA b s) := by
  obtain ⟨elaborated, outWf, legalA, legalB⟩ := (legal_iff s).1 h
  have legalA' := legalA.pushA b
  have noViewB := NoNewViewB.pushA b s
  obtain ⟨_, _, _, e, -⟩ := pushA_frame b s
  rw [e] at legalA' noViewB ⊢
  exact (legal_iff _).2 ⟨elaborated, outWf, legalA', legalB.of_frame rfl rfl rfl rfl noViewB⟩

theorem Legal.pushB {s : State} (h : Legal s) (c : Byte) : Legal (pushB c s) := by
  obtain ⟨elaborated, outWf, legalA, legalB⟩ := (legal_iff s).1 h
  have legalB' := legalB.pushB c
  have noViewA := NoNewViewA.pushB c s
  obtain ⟨_, _, _, e, -⟩ := pushB_frame c s
  rw [e] at legalB' noViewA ⊢
  exact (legal_iff _).2 ⟨elaborated, outWf, legalA.of_frame rfl rfl rfl rfl noViewA, legalB'⟩

theorem Legal.resetA {s : State} (h : Legal s) : Legal (resetA s) := by
  obtain ⟨elaborated, outWf, legalA, legalB⟩ := (legal_iff s).1 h
  exact (legal_iff _).2 ⟨elaborated, outWf, legalA.resetA,
    legalB.of_frame rfl rfl rfl rfl (.of_results rfl nofun)⟩

theorem Legal.resetB {s : State} (h : Legal s) : Legal (resetB s) := by
  obtain ⟨elaborated, outWf, legalA, legalB⟩ := (legal_iff s).1 h
  exact (legal_iff _).2 ⟨elaborated, outWf,
    legalA.of_frame rfl rfl rfl rfl (.of_results rfl nofun), legalB.resetB⟩

theorem Legal.of_exec {i : Instr} {s t : State} (h : Legal s) (he : exec i s = .next t) :
    Legal t := by
  cases Completes.of_exec he with
  | plain _ _ ends => exact h.of_plain ends
  | pushA b => exact h.pushA b
  | resetA => exact h.resetA
  | pushB c => exact h.pushB c
  | resetB => exact h.resetB

/-! ### The other host actions (R84, R450, R452) -/

theorem issueCommand_next {c : Command} {s t : State} (h : issueCommand c s = .next t) :
    ∃ i, decode c = .ok i ∧ exec i s = .next t := by
  unfold issueCommand at h
  split at h
  case h_1 i hi => exact ⟨i, hi, h⟩
  case h_2 => cases h

theorem elaborate_next {cfg : Config} {s t : State} (h : elaborate cfg s = .next t) :
    configOk cfg = true ∧ t = s.create cfg (crcxOf cfg) := by
  unfold elaborate at h
  split at h
  case isTrue ok => cases h; exact ⟨ok, rfl⟩
  case isFalse => cases h

theorem inFrameA_eq_false (s : State) : s.inFrameA = false ↔ s.a.state = .seekSync := by
  simp [State.inFrameA]

theorem inFrameB_eq_false (s : State) : s.inFrameB = false ↔ s.b.state = .seekStart := by
  simp [State.inFrameB]

/-- A host write to a working buffer stores its byte, in a framer out of frame without a live view. -/
theorem hostWriteBuffer_next {f : Framer} {index : Nat} {v : Byte} {s t : State}
    (h : hostWriteBuffer f index v s = .next t) :
    (s.a.state = .seekSync ∧ s.someViewLive .a = false ∧ index < s.cfg.bufCapA
        ∧ t = s.setWba (s.wba.write index v)) ∨
      (s.b.state = .seekStart ∧ s.someViewLive .b = false ∧ index < s.cfg.bufCapB
        ∧ t = s.setWbb (s.wbb.write index v)) := by
  unfold hostWriteBuffer at h
  cases f <;> simp only at h <;> split_ifs at h with duty hi <;> cases h <;>
    rw [Bool.not_eq_true, Bool.or_eq_false_iff] at duty <;> obtain ⟨idle, dead⟩ := duty
  · exact .inl ⟨(inFrameA_eq_false s).1 idle, dead, hi, rfl⟩
  · exact .inr ⟨(inFrameB_eq_false s).1 idle, dead, hi, rfl⟩

/-- The queue bears on no part of the invariant. -/
theorem Legal.setPending {s : State} (h : Legal s) (q : List HostAction) :
    Legal (s.setPending q) := by
  obtain ⟨elaborated, outWf, legalA, legalB⟩ := (legal_iff s).1 h
  exact (legal_iff _).2 ⟨elaborated, outWf, legalA.of_frame rfl rfl rfl rfl fun _ => id,
    legalB.of_frame rfl rfl rfl rfl fun _ => id⟩

theorem Legal.writeOut {s : State} (h : Legal s) (addr : Nat) (v : Byte) :
    Legal (s.setOut (Memory.write s.out addr v)) := by
  obtain ⟨elaborated, outWf, legalA, legalB⟩ := (legal_iff s).1 h
  exact (legal_iff _).2 ⟨elaborated, Memory.wf_write addr v outWf,
    legalA.of_frame rfl rfl rfl rfl fun _ => id, legalB.of_frame rfl rfl rfl rfl fun _ => id⟩

/-- No view of a framer is live when R84 finds none. -/
theorem gen_ne_of_noneLiveA {s : State} {v : BinView} (h : s.someViewLive .a = false)
    (hv : Result.viewA v ∈ s.results) : v.gen ≠ s.a.gen := fun he => by
  simp only [State.someViewLive, List.any_eq_false] at h
  exact h _ hv (by simp [isLiveViewA, he])

theorem gen_ne_of_noneLiveB {s : State} {v : TxtView} (h : s.someViewLive .b = false)
    (hv : Result.viewB v ∈ s.results) : v.gen ≠ s.b.gen := fun he => by
  simp only [State.someViewLive, List.any_eq_false] at h
  exact h _ hv (by simp [isLiveViewB, he])

/-- A host write is let through only while nothing rests on the bytes of WBA. -/
theorem LegalA.writeBuffer {s : State} (h : LegalA s) {index : Nat} (v : Byte)
    (idle : s.a.state = .seekSync) (dead : s.someViewLive .a = false)
    (hi : index < s.cfg.bufCapA) : LegalA (s.setWba (s.wba.write index v)) where
  range := ⟨h.range.wr, h.range.poff, h.range.idx, Buffer.wf_write v h.range.buffer hi⟩
  framer := ⟨h.framer.1, absurd idle⟩
  views w hw := by
    obtain ⟨horigin, hgen, -⟩ := h.views w hw
    exact ⟨horigin, hgen, fun he => absurd he (gen_ne_of_noneLiveA dead hw)⟩
  oneLive := h.oneLive

/-- A host write is let through only while nothing rests on the bytes of WBB. -/
theorem LegalB.writeBuffer {s : State} (h : LegalB s) {index : Nat} (v : Byte)
    (idle : s.b.state = .seekStart) (dead : s.someViewLive .b = false)
    (hi : index < s.cfg.bufCapB) : LegalB (s.setWbb (s.wbb.write index v)) where
  range := by
    obtain ⟨hwr, hstart, hidx, hfcount, hflist, htalker, hsid, hbuf⟩ := h.range
    exact ⟨hwr, hstart, hidx, hfcount, hflist, htalker, hsid, Buffer.wf_write v hbuf hi⟩
  framer := absurd idle
  views w hw := by
    obtain ⟨horigin, hgen, -⟩ := h.views w hw
    exact ⟨horigin, hgen, fun he => absurd he (gen_ne_of_noneLiveB dead hw)⟩
  oneLive := h.oneLive

theorem Legal.of_writeBuffer {s t : State} {f : Framer} {index : Nat} {v : Byte} (h : Legal s)
    (hw : hostWriteBuffer f index v s = .next t) : Legal t := by
  obtain ⟨elaborated, outWf, legalA, legalB⟩ := (legal_iff s).1 h
  rcases hostWriteBuffer_next hw with ⟨idle, dead, hi, rfl⟩ | ⟨idle, dead, hi, rfl⟩
  · exact (legal_iff _).2 ⟨elaborated, outWf, legalA.writeBuffer v idle dead hi,
      legalB.of_frame rfl rfl rfl rfl fun _ => id⟩
  · exact (legal_iff _).2 ⟨elaborated, outWf, legalA.of_frame rfl rfl rfl rfl fun _ => id,
      legalB.writeBuffer v idle dead hi⟩

theorem Legal.of_perform {act : HostAction} {s t : State} (h : Legal s)
    (hp : perform act s = .next t) : Legal t := by
  cases act with
  | command c =>
    obtain ⟨i, -, he⟩ := issueCommand_next hp
    exact h.of_exec he
  | writeBuffer f index v => exact h.of_writeBuffer hp
  | writeOut addr v => cases hp; exact h.writeOut addr v
  | writeTables => cases hp
  | reset => cases hp; exact h.create h.elaborated
  | elaborate cfg =>
    obtain ⟨ok, rfl⟩ := elaborate_next hp
    exact h.create ⟨ok, rfl⟩

/-- A step that completes performs the oldest host action, or changes nothing. -/
theorem step_next {s t : State} (h : step s = .next t) :
    t = s ∨ ∃ act rest, s.pending = act :: rest ∧ perform act (s.setPending rest) = .next t := by
  unfold step takeNext at h
  split at h
  · cases h; exact .inl rfl
  case h_2 act rest hq => exact .inr ⟨act, rest, hq, h⟩

/-- Settles O49, from what each host action keeps. -/
theorem stepKeepsTheBlockLegal : Obligations.StepKeepsTheBlockLegal := by
  intro s t h hstep
  rcases step_next hstep with rfl | ⟨act, rest, -, hp⟩
  · exact h
  · exact (h.setPending rest).of_perform hp

/-! ### Runs (R425, R453) -/

/-- A step of a run is a step that completes, or one that stops and leaves all but the queue. -/
theorem Run.advance_state (r : Run) :
    step r.state = .next r.advance.state ∨ r.advance.state = r.state.drop := by
  unfold Run.advance
  cases step r.state with
  | next s => exact .inl rfl
  | fault f => exact .inr rfl
  | refused m => exact .inr rfl

/-- What every step that completes keeps, and the loss of a host action too, holds of every state of a
run. -/
theorem Run.steps_invariant {P : State → Prop} (hstep : ∀ s t, P s → step s = .next t → P t)
    (hdrop : ∀ s, P s → P s.drop) (k : Nat) (r : Run) (h : P r.state) :
    P (Run.steps k r).state := by
  induction k generalizing r with
  | zero => exact h
  | succ k ih =>
    refine ih r.advance ?_
    rcases r.advance_state with hs | hd
    · exact hstep _ _ h hs
    · rw [hd]; exact hdrop _ h

/-- Settles O60: a run starts legal, and its steps keep it so. -/
theorem launchedBlocksAreLegal : Obligations.LaunchedBlocksAreLegal := by
  refine ⟨fun s => Legal.of_isReset, ?_⟩
  rintro _ ⟨-, -, s, k, reset, elaborated, outWf, rfl⟩
  exact Run.steps_invariant stepKeepsTheBlockLegal (fun _ h => h.setPending _) k (Run.start s)
    (.of_isReset reset elaborated outWf)

end Sys2Proof.Machine
end

section
/-! PROOF. CRC and XSUM are read and written by the accumulator commands only (10_state.md R32): every other
command answers the same on a state with other values there, and keeps them. -/

namespace Sys2Proof.Machine

/-- `s` with other values in the two accumulators. -/
def withAccumulators (c : Half) (x : Byte) (s : State) : State := { s with crc := c, xsum := x }

/-- `f` on the next state of an outcome; a stop is left as it is. -/
def mapNext (f : State → State) : Host.Outcome State Fault Refusal → Host.Outcome State Fault Refusal
  | .next s => .next (f s)
  | .fault r => .fault r
  | .refused r => .refused r

/-- The operation neither reads nor writes the accumulators: it commutes with any change of them. -/
def IgnoresAccumulators (f : State → State) : Prop :=
  ∀ c x s, f (withAccumulators c x s) = withAccumulators c x (f s)

/-! ### Framer-A -/

theorem IgnoresAccumulators.appendA {rest : State → State} (h : IgnoresAccumulators rest) (b : Byte) :
    IgnoresAccumulators (fun s => s.appendA b rest) := by
  intro c x s
  by_cases room : s.a.wr < s.cfg.bufCapA
  · simp only
    rw [State.appendA_room b rest room, State.appendA_room (s := withAccumulators c x s) b rest room]
    exact h c x (appendedA s b)
  · have full := Nat.le_of_not_lt room
    simp only
    rw [State.appendA_full b rest full, State.appendA_full (s := withAccumulators c x s) b rest full]
    rfl

theorem IgnoresAccumulators.dispatchA (b : Byte) : IgnoresAccumulators (dispatchA b) := by
  intro c x s
  have hstate : (withAccumulators c x s).a.state = s.a.state := rfl
  unfold Machine.dispatchA
  rw [hstate]
  cases s.a.state
  case seekSync =>
    simp only [stepSeekSync]
    split_ifs
    · exact appendA (rest := fun s => noneA s { s.a with state := .readLength }) (fun _ _ _ => rfl) b c x
        ((s.setWba s.wba.forget).setA { s.a with ver := .v2, wr := 0 })
    · exact appendA (rest := fun s => noneA s { s.a with state := .readLength }) (fun _ _ _ => rfl) b c x
        ((s.setWba s.wba.forget).setA { s.a with ver := .v1, wr := 0 })
    · rfl
  case readLength => exact appendA (fun _ _ _ => rfl) b c x s
  all_goals
    refine appendA (fun c x s => ?_) b c x s
    simp only [apply_ite (withAccumulators c x)]
    rfl

theorem IgnoresAccumulators.pushA (b : Byte) : IgnoresAccumulators (pushA b) :=
  fun c x s => dispatchA b c x (bumpGenA s)

/-! ### Framer-B -/

theorem IgnoresAccumulators.appendB {rest : State → State} (h : IgnoresAccumulators rest) (b : Byte) :
    IgnoresAccumulators (fun s => s.appendB b rest) := by
  intro c x s
  by_cases room : s.b.wr < s.cfg.bufCapB
  · simp only
    rw [State.appendB_room b rest room, State.appendB_room (s := withAccumulators c x s) b rest room]
    exact h c x (appendedB s b)
  · have full := Nat.le_of_not_lt room
    simp only
    rw [State.appendB_full b rest full, State.appendB_full (s := withAccumulators c x s) b rest full]
    rfl

theorem IgnoresAccumulators.closeField {rest : State → State} (h : IgnoresAccumulators rest) :
    IgnoresAccumulators (fun s => closeField s rest) := by
  intro c x s
  simp only [closeField_eq, apply_ite (withAccumulators c x)]
  rw [← h]
  rfl

theorem IgnoresAccumulators.stepFields (ch : Byte) : IgnoresAccumulators (stepFields ch) := by
  intro c x s
  unfold Machine.stepFields
  split_ifs
  · rfl
  · exact closeField (fun _ _ _ => rfl) c x s
  · exact closeField (appendB (fun _ _ _ => rfl) _) c x (s.setB _)
  · exact appendB (fun _ _ _ => rfl) ch c x (s.setB _)

theorem IgnoresAccumulators.validateB : IgnoresAccumulators validateB := by
  intro c x s
  unfold Machine.validateB
  rw [show (withAccumulators c x s).b = s.b from rfl]
  cases hexByte s.b.hex.1 s.b.hex.2 with
  | none => rfl
  | some v =>
    simp only [apply_ite (withAccumulators c x)]
    rfl

theorem IgnoresAccumulators.dispatchB (ch : Byte) : IgnoresAccumulators (dispatchB ch) := by
  intro c x s
  unfold Machine.dispatchB
  rw [show (withAccumulators c x s).b.state = s.b.state from rfl]
  cases s.b.state
  case seekStart => simp only [stepSeekStart, apply_ite (withAccumulators c x)]; rfl
  case readFields => exact stepFields ch c x s
  case readChecksumHex => simp only [stepHex, apply_ite (withAccumulators c x)]; rfl
  case readCRLF =>
    simp only [stepCRLF, apply_ite (withAccumulators c x)]
    rw [← validateB]
    rfl

theorem IgnoresAccumulators.pushB (ch : Byte) : IgnoresAccumulators (pushB ch) :=
  fun c x s => dispatchB ch c x (bumpGenB s)

/-! ### Commands -/

/-- The commands of the accumulators (R31). -/
def accumulates : Instr → Bool
  | .crcInit | .crcLoad _ | .crcAcc _ | .crcAccBuf _ | .crcAccStr _ | .xorInit | .xorAcc _ => true
  | _ => false

section
variable (c : Half) (x : Byte) (s : State)

@[simp] theorem withAccumulators_cfg : (withAccumulators c x s).cfg = s.cfg := rfl

@[simp] theorem withAccumulators_binMsg? (d : Nat) :
    (withAccumulators c x s).binMsg? d = s.binMsg? d := rfl

@[simp] theorem withAccumulators_txtMsg? (d : Nat) :
    (withAccumulators c x s).txtMsg? d = s.txtMsg? d := rfl

@[simp] theorem withAccumulators_viewPayload (v : BinView) :
    (withAccumulators c x s).viewPayload v = s.viewPayload v := rfl

@[simp] theorem withAccumulators_viewBLive (v : TxtView) :
    (withAccumulators c x s).viewBLive v = s.viewBLive v := rfl

@[simp] theorem withAccumulators_tokenBytes (tok : Tok) :
    (withAccumulators c x s).tokenBytes tok = s.tokenBytes tok := by
  cases tok with
  | run => rfl
  | held t => cases t <;> rfl

end

/-- A command of no accumulator commutes with any change of them, whatever its outcome. -/
theorem exec_withAccumulators {i : Instr} (h : accumulates i = false) (c : Half) (x : Byte) (s : State) :
    exec i (withAccumulators c x s) = mapNext (withAccumulators c x) (exec i s) := by
  cases i
  case crcInit | crcLoad | crcAcc | crcAccBuf | crcAccStr | xorInit | xorAcc => cases h
  case fraPush b => exact congrArg Host.Outcome.next (IgnoresAccumulators.pushA b c x s)
  case frbPush b => exact congrArg Host.Outcome.next (IgnoresAccumulators.pushB b c x s)
  case fraReset | frbReset | xorRun | hexEnc => rfl
  all_goals simp only [exec]
  case crcExtra d =>
    unfold execCrcExtra
    simp only [withAccumulators_binMsg?]
    cases s.binMsg? d <;> rfl
  case hexDec c0 c1 => unfold execHexDec; cases hexByte c0 c1 <;> rfl
  case binEnc ptype count v =>
    unfold execBinEnc
    cases primOfTag ptype with
    | none => rfl
    | some p => simp only [apply_ite (mapNext _)]; rfl
  case binDec ptype count bs => unfold execBinDec; cases primOfTag ptype <;> rfl
  case txtFmt fd v =>
    unfold execTxtFmt
    simp only [apply_ite (mapNext _)]
    cases fmtField fd v <;> rfl
  case txtParse kind tok =>
    unfold execTxtParse
    simp only [withAccumulators_tokenBytes]
    cases s.tokenBytes tok with
    | error f => rfl
    | ok bs => simp only; split <;> rfl
  case sera d rec sys comp seq out =>
    unfold execSera
    simp only [withAccumulators_binMsg?]
    cases s.binMsg? d with
    | none => rfl
    | some m => simp only [apply_ite (mapNext _)]; rfl
  case desera d view =>
    unfold execDesera
    simp only [withAccumulators_binMsg?, withAccumulators_viewPayload]
    cases s.binMsg? d with
    | none => rfl
    | some m =>
      cases s.viewPayload view with
      | error f => rfl
      | ok r => simp only [apply_ite (mapNext _)]; rfl
  case serb d talker rec out =>
    unfold execSerb
    simp only [withAccumulators_txtMsg?]
    cases s.txtMsg? d with
    | none => rfl
    | some m =>
      simp only [apply_ite (mapNext _)]
      cases fmtFields m.fields rec <;> rfl
  case bindb d view =>
    unfold execBindb
    simp only [withAccumulators_txtMsg?, withAccumulators_viewBLive]
    cases s.txtMsg? d with
    | none => rfl
    | some m => simp only [apply_ite (mapNext _)]; rfl

/-- Settles O50: a state is itself with its own accumulators put in, so that a command which commutes with
that keeps them. -/
theorem otherUnitsIgnoreCrcAndXsum : Obligations.OtherUnitsIgnoreCrcAndXsum := by
  intro i s c x hxorAcc hxorInit hcrcInit hcrcLoad hcrcAcc hcrcAccBuf hcrcAccStr
  have hi : accumulates i = false := by
    cases i
    case xorAcc b => exact absurd rfl (hxorAcc b)
    case xorInit => exact absurd rfl hxorInit
    case crcInit => exact absurd rfl hcrcInit
    case crcLoad v => exact absurd rfl (hcrcLoad v)
    case crcAcc b => exact absurd rfl (hcrcAcc b)
    case crcAccBuf r => exact absurd rfl (hcrcAccBuf r)
    case crcAccStr r => exact absurd rfl (hcrcAccStr r)
    all_goals rfl
  have commutes := exec_withAccumulators hi
  refine ⟨fun t ht => ?_, fun f hf => ?_, fun r hr => ?_⟩
  · have self : t = withAccumulators s.crc s.xsum t := by
      have h := commutes s.crc s.xsum s
      rw [show withAccumulators s.crc s.xsum s = s from rfl, ht] at h
      exact Host.Outcome.next.inj h
    have h := commutes c x s
    rw [ht] at h
    exact ⟨(congrArg State.crc self :), (congrArg State.xsum self :), h⟩
  · have h := commutes c x s
    rwa [hf] at h
  · have h := commutes c x s
    rwa [hr] at h

end Sys2Proof.Machine
end

section
/-! PROOF. The life of a view: a push or reset of its framer ends it (10_state.md R40), and so does a new life
of the block (70_reset_and_hazards.md R450). -/

namespace Sys2Proof.Machine

/-! ### What a view that is not live stops -/

theorem execDesera_staleView {s : State} {d : Nat} {v : BinView} (hd : d < s.cfg.binMsgs.length)
    (dead : s.viewALive v = false) : exec (.desera d v) s = .fault .staleView := by
  simp [exec, execDesera, State.binMsg?, State.viewPayload, hd, dead]

theorem execBindb_staleView {s : State} {d : Nat} {v : TxtView} (hd : d < s.cfg.txtMsgs.length)
    (dead : s.viewBLive v = false) : exec (.bindb d v) s = .fault .staleView := by
  simp [exec, execBindb, State.txtMsg?, hd, dead]

theorem execTxtParse_staleView {s : State} {kind : TxtKind} {t : LazyTok}
    (dead : s.tokenLive t = false) : exec (.txtParse kind (.held t)) s = .fault .staleView := by
  cases t with
  | empty => cases dead
  | slice sl g o => simp [exec, execTxtParse, State.tokenBytes, dead]

theorem viewALive_of_gen_ne {s : State} {v : BinView} (h : v.gen ≠ s.a.gen) :
    s.viewALive v = false := by
  simp [State.viewALive, h]

theorem viewALive_of_origin_ne {s : State} {v : BinView} (h : v.origin ≠ s.inst) :
    s.viewALive v = false := by
  simp [State.viewALive, h]

theorem viewBLive_of_origin_ne {s : State} {v : TxtView} (h : v.origin ≠ s.inst) :
    s.viewBLive v = false := by
  simp [State.viewBLive, h]

theorem tokenLive_of_origin_ne {s : State} {sl : Slice} {g : Nat} {o : BlockId} (h : o ≠ s.inst) :
    s.tokenLive (.slice sl g o) = false := by
  simp [State.tokenLive, h]

/-- A view that was returned is live while its generation and its origin are the present ones, whatever
else has been returned. -/
theorem viewALive_congr {s t : State} {v : BinView} (hgen : t.a.gen = s.a.gen)
    (hinst : t.inst = s.inst) (hs : Result.viewA v ∈ s.results) (ht : Result.viewA v ∈ t.results) :
    t.viewALive v = s.viewALive v := by
  simp [State.viewALive, hgen, hinst, hs, ht]

/-- Settles O53: the framer's own commands move its generation past every view's, and the other ones move
neither the generation nor the life. -/
theorem viewsDieAtTheNextPush : Obligations.ViewsDieAtTheNextPush := by
  intro s t v d i h hv he
  obtain ⟨moves, keeps⟩ := (Completes.of_exec he).framerA
  obtain ⟨⟨r, hres⟩, -, -, hinst, -⟩ := eachCommandReturnsOneResult i s t he
  obtain ⟨-, hgen, -⟩ := h.viewsA v hv
  refine ⟨fun driven hd => ?_, fun driven => ?_⟩
  · have dead : t.viewALive v = false := viewALive_of_gen_ne (by rw [moves driven]; omega)
    exact ⟨dead, execDesera_staleView hd dead⟩
  · exact viewALive_congr (by rw [(keeps driven).1]) hinst hv (by simp [hres, hv])

/-! ### Lives (R450) -/

/-- Whatever a host action does, the block's life does not go back. -/
theorem perform_life {act : HostAction} {s t : State} (h : perform act s = .next t) :
    s.inst.life ≤ t.inst.life := by
  cases act with
  | command c =>
    obtain ⟨i, -, he⟩ := issueCommand_next h
    obtain ⟨-, -, -, hinst, -⟩ := eachCommandReturnsOneResult i s t he
    rw [hinst]
  | writeBuffer f index v =>
    rcases hostWriteBuffer_next h with ⟨-, -, -, rfl⟩ | ⟨-, -, -, rfl⟩ <;> exact le_rfl
  | writeOut addr v => cases h; exact le_rfl
  | writeTables => cases h
  | reset => cases h; exact Nat.le_succ _
  | elaborate cfg =>
    obtain ⟨-, rfl⟩ := elaborate_next h
    exact Nat.le_succ _

theorem step_life {s t : State} (h : step s = .next t) : s.inst.life ≤ t.inst.life := by
  rcases step_next h with rfl | ⟨act, rest, -, hp⟩
  · exact le_rfl
  · exact perform_life (s := s.setPending rest) hp

/-- A reset and an elaboration start the next life. -/
theorem perform_newLife {s t : State}
    (h : perform .reset s = .next t ∨ ∃ c, perform (.elaborate c) s = .next t) :
    t.inst.life = s.inst.life + 1 := by
  rcases h with h | ⟨c, h⟩
  · cases h; rfl
  · obtain ⟨-, rfl⟩ := elaborate_next h
    rfl

/-- After a new life begins, no step of a run brings the old one back. -/
theorem inst_ne_of_newLife {s t : State} (k : Nat)
    (h : perform .reset s = .next t ∨ ∃ c, perform (.elaborate c) s = .next t) :
    s.inst ≠ (Run.steps k (Run.start t)).state.inst := by
  have later : s.inst.life < (Run.steps k (Run.start t)).state.inst.life :=
    Run.steps_invariant (P := fun u => s.inst.life < u.inst.life)
      (fun _ _ hu hstep => hu.trans_le (step_life hstep)) (fun _ hu => hu) k (Run.start t)
      (by rw [Run.start, perform_newLife h]; exact Nat.lt_succ_self _)
  exact fun e => later.ne (congrArg BlockId.life e)

/-- Settles O59: a returned view carries the life it was returned in, which is over. -/
theorem viewsOfEarlierLivesAreDead : Obligations.ViewsOfEarlierLivesAreDead := by
  intro s t k d h hnew u
  have newLife : s.inst ≠ u.inst := inst_ne_of_newLife k hnew
  refine ⟨fun v hv => ?_, fun v hv => ?_⟩
  · have horigin : v.origin ≠ u.inst := (h.viewsA v hv).1 ▸ newLife
    have dead := viewALive_of_origin_ne horigin
    exact ⟨dead, fun hd => execDesera_staleView hd dead⟩
  · have horigin : v.origin ≠ u.inst := (h.viewsB v hv).1 ▸ newLife
    have dead := viewBLive_of_origin_ne horigin
    exact ⟨dead, fun hd => execBindb_staleView hd dead,
      fun _ _ _ => execTxtParse_staleView (tokenLive_of_origin_ne horigin)⟩

end Sys2Proof.Machine
end

section
/-! PROOF. BIN.DEC against the little-endian sums of O14 (42_binary_field_codec.md R202, R204). -/

namespace Sys2Proof.Machine

/-- The little-endian number of the `n` bytes of `buf` from `off` on (R75); a byte beyond the buffer counts
as zero (R77). -/
def numberAt (buf : Bytes) (off n : Nat) : Nat :=
  ((List.range n).map (fun i => (buf.getD (off + i) 0x00).toNat * 256 ^ i)).sum

theorem leNat_slice {buf : Bytes} {off n : Nat} (h : off + n ≤ buf.length) :
    leNat ((buf.drop off).take n) = numberAt buf off n := by
  have hlen : ((buf.drop off).take n).length = n := by
    rw [List.length_take, List.length_drop]; omega
  rw [leNat_eq_sum, hlen, numberAt]
  congr 1
  refine List.map_congr_left fun i hi => ?_
  have hi : i < n := List.mem_range.1 hi
  simp [List.getD, hi]

/-- Two's complement reads a pattern less 2 to the width when the sign bit is set (R202). -/
theorem bitsValue_eq (p : PrimType) (bits : Nat) : bitsValue p bits
    = if primSigned p = true ∧ 2 ^ (8 * primSize p - 1) ≤ bits
      then (bits : Int) - (2 : Int) ^ (8 * primSize p) else (bits : Int) := by
  simp [bitsValue]

/-- The value of an element is that of the number its bytes spell. -/
theorem value_slice (p : PrimType) {buf : Bytes} {off : Nat} (h : off + primSize p ≤ buf.length) :
    value p ((buf.drop off).take (primSize p)) = bitsValue p (numberAt buf off (primSize p)) := by
  rw [value, leNat_slice h]

/-- A field's value, element by element, from the numbers in its zero-filled buffer. -/
theorem fieldValue_eq (p : PrimType) (count : Nat) (bs : Bytes) :
    fieldValue p count bs
      = (let buf := zeroFill (fieldSizeOf p count) bs
         let val := fun off => bitsValue p (numberAt buf off (primSize p))
         if count = 0 then .scalar (val 0)
         else .array ((List.range count).map (fun j => val (j * primSize p)))) := by
  have hlen := zeroFill_length (fieldSizeOf p count) bs
  unfold fieldValue
  simp only
  generalize zeroFill (fieldSizeOf p count) bs = buf at hlen ⊢
  unfold fieldSizeOf elemCount at hlen
  split
  case isTrue h0 =>
    rw [if_pos h0, Nat.mul_one] at hlen
    have whole : (buf.drop 0).take (primSize p) = buf := by
      rw [List.drop_zero, ← hlen, List.take_length]
    rw [← value_slice p (by omega), whole]
  case isFalse h0 =>
    rw [if_neg h0] at hlen
    rw [elements_eq_map]
    congr 1
    refine List.map_congr_left fun j hj => value_slice p ?_
    calc j * primSize p + primSize p = primSize p * (j + 1) := by ring
      _ ≤ primSize p * count := Nat.mul_le_mul_left _ (List.mem_range.1 hj)
      _ = buf.length := hlen.symm

/-- Settles O14: the field's value over the zero-filled buffer, each value the number its bytes spell. -/
theorem binDecZeroFills : Obligations.BinDecZeroFills := by
  intro s tag count p bs hp size buf num val
  have hbuf : zeroFill (fieldSizeOf p count) bs = buf := zeroFill_eq_map _ _
  have hval : ∀ off, bitsValue p (numberAt buf off (primSize p)) = val off :=
    fun _ => bitsValue_eq p _
  have decoded : exec (.binDec tag count bs) s
      = .next (s.returns (.binVal (fieldValue p count bs))) := by
    simp only [exec, execBinDec, hp]
  rw [decoded, fieldValue_eq, hbuf]
  simp only [hval]
  rfl

end Sys2Proof.Machine
end

section
/-! PROOF. A push of Framer-A: the scan for a marker (44_binary_framer.md R273), and what a push leaves in
WBA (R71, R272, R420). -/

namespace Sys2Proof.Machine

/-! ### The buffer after a push -/

theorem storeAt_epoch (w : Buffer) (v : Byte) (o : Option Nat) : (storeAt w v o).epoch = w.epoch := by
  cases o <;> rfl

theorem read?_storeAt_same (w : Buffer) (v : Byte) (i : Nat) :
    (storeAt w v (some i)).read? i = some v := by
  rw [storeAt, Buffer.read?_write, if_pos rfl]

theorem read?_storeAt_other (w : Buffer) (v : Byte) {o : Option Nat} {i : Nat} (h : o ≠ some i) :
    (storeAt w v o).read? i = w.read? i := by
  cases o with
  | none => rfl
  | some j => rw [storeAt, Buffer.read?_write, if_neg fun e => h (congrArg some e.symm)]

theorem bufferFor.eq_of_no_error {r : Result} {o : Option Nat} {w₀ w : Buffer}
    (h : bufferFor r o w₀ w) (hr : ∀ e, r ≠ .error e) : w = w₀ := by
  rcases h with ⟨hw, -⟩ | ⟨-, -, e, he⟩
  · exact hw
  · exact absurd he (hr e)

theorem bufferFor.forget_of_error {r : Result} {o : Option Nat} {w₀ w : Buffer}
    (h : bufferFor r o w₀ w) (hr : ∃ e, r = .error e) : w = w₀.forget ∧ o = none := by
  obtain ⟨e, he⟩ := hr
  rcases h with ⟨-, hno⟩ | ⟨hw, ho, -⟩
  · exact absurd he (hno e)
  · exact ⟨hw, ho⟩

/-- Nothing `w₀` held is in `w`: a later epoch, with no byte stored. -/
def Unspecified (w₀ w : Buffer) : Prop := w₀.epoch < w.epoch ∧ ∀ i, w.read? i = none

/-- A push that has forgotten the buffer leaves it unspecified, with or without an error. -/
theorem bufferFor.unspecified_of_start {r : Result} {o : Option Nat} {w₀ w : Buffer}
    (h : bufferFor r o w₀.forget w) : Unspecified w₀ w := by
  rcases h with ⟨rfl, -⟩ | ⟨rfl, -, -⟩
  · exact ⟨Nat.lt_succ_self _, Buffer.read?_forget _⟩
  · exact ⟨Nat.lt_add_of_pos_right Nat.two_pos, Buffer.read?_forget _⟩

theorem bufferFor.unspecified_of_error {r : Result} {o : Option Nat} {w₀ w : Buffer}
    (h : bufferFor r o w₀ w) (hr : ∃ e, r = .error e) : Unspecified w₀ w := by
  obtain ⟨rfl, -⟩ := h.forget_of_error hr
  exact ⟨Nat.lt_succ_self _, Buffer.read?_forget _⟩

/-- Storing a byte makes no other byte of an unspecified buffer known. -/
theorem Unspecified.storeAt {w₀ w : Buffer} (h : Unspecified w₀ w) (v : Byte) (o : Option Nat) :
    w₀.epoch < (storeAt w v o).epoch ∧ ∀ i, o ≠ some i → (storeAt w v o).read? i = none := by
  obtain ⟨later, empty⟩ := h
  exact ⟨by rwa [storeAt_epoch], fun i hi => by rw [read?_storeAt_other w v hi, empty]⟩

/-- What a byte of WBA reads as depends on the block, the epoch and the stored byte only. -/
theorem State.wbaByte_congr {s t : State} {i : Nat} (hinst : t.inst = s.inst)
    (hepoch : t.wba.epoch = s.wba.epoch) (hread : t.wba.read? i = s.wba.read? i) :
    t.wbaByte i = s.wbaByte i := by
  rw [State.wbaByte, State.wbaByte, hinst, hepoch, hread]

/-! ### O31: what a push leaves in WBA -/

/-- The buffer under the byte a push stores: the one before it, as the result leaves it, or an unspecified
one if a frame starts. -/
theorem pushA_wba (b : Byte) (s : State) : ∃ a w r,
    pushA b s
        = { s with a := a, wba := storeAt w b (storedAtA b s), results := r :: s.results }
      ∧ a.gen = s.a.gen + 1
      ∧ (¬ startsFrame b s → bufferFor r (storedAtA b s) s.wba w)
      ∧ (startsFrame b s → Unspecified s.wba w) := by
  by_cases start : startsFrame b s
  · obtain ⟨a, w, r, e, hg, hw⟩ := EndsA.of_dispatchA_start (s := bumpGenA s) start
    exact ⟨a, w, r, e, hg, absurd start, fun _ => hw.unspecified_of_start⟩
  · obtain ⟨a, w, r, e, hg, hw⟩ := EndsA.of_dispatchA (s := bumpGenA s) start
    exact ⟨a, w, r, e, hg, fun _ => hw, (absurd · start)⟩

/-- Settles O31: the stored byte reads back, and the others are those of the buffer under it, kept or
unspecified. -/
theorem fraPushFrame : Obligations.FraPushFrame := by
  intro b s
  obtain ⟨a, w, r, e, hg, within, starting⟩ := pushA_wba b s
  refine ⟨a, _, r, congrArg Host.Outcome.next e, hg, fun j hj => ?_, fun start noError i hi => ?_,
    fun h => ?_⟩
  · rw [hj, read?_storeAt_same]
  · obtain rfl := (within start).eq_of_no_error noError
    exact State.wbaByte_congr rfl (storeAt_epoch _ _ _) (read?_storeAt_other _ _ hi)
  · have unspecified : Unspecified s.wba w := by
      by_cases start : startsFrame b s
      · exact starting start
      · exact (within start).unspecified_of_error (h.resolve_left start)
    exact unspecified.storeAt b _

/-! ### O25: the scan -/

theorem pushA_seekSync {s : State} (b : Byte) (h : s.a.state = .seekSync) :
    pushA b s = stepSeekSync b (bumpGenA s) := by
  have h' : (bumpGenA s).a.state = .seekSync := h
  rw [pushA, dispatchA, h']

theorem stepSeekSync_other {b : Byte} (s : State) (h1 : b ≠ 0xFD) (h2 : b ≠ 0xFE) :
    stepSeekSync b s = s.returns .noMessage := by
  rw [stepSeekSync, if_neg h1, if_neg h2]

theorem stepSeekSync_marker {b : Byte} (s : State) (h : b = 0xFD ∨ b = 0xFE) :
    stepSeekSync b s = startFrame (if b = 0xFD then .v2 else .v1) b s := by
  rw [stepSeekSync]
  split
  · rfl
  case isFalse hv2 => rw [if_pos (h.resolve_left hv2)]

/-- With room, the marker is byte 0 of a buffer that holds nothing else (R273). -/
theorem startFrame_room (v : Ver) (b : Byte) {s : State} (h : 0 < s.cfg.bufCapA) :
    startFrame v b s = { s with
      a := { s.a with ver := v, wr := 1, state := .readLength },
      wba := s.wba.forget.write 0 b, results := .noMessage :: s.results } :=
  State.appendA_room (s := (s.setWba s.wba.forget).setA { s.a with ver := v, wr := 0 }) b _ h

/-- With no buffer, the marker overruns (R280). -/
theorem startFrame_noBuffer (v : Ver) (b : Byte) {s : State} (h : s.cfg.bufCapA = 0) :
    startFrame v b s = { s with
      a := { s.a with ver := v, wr := 0, state := .seekSync, idx := 0 },
      wba := s.wba.forget.forget, results := .error .bufferOverrun :: s.results } :=
  State.appendA_full (s := (s.setWba s.wba.forget).setA { s.a with ver := v, wr := 0 }) b _ h.le

/-- Settles O25, for each kind of byte. -/
theorem fraPushScansForAMarker : Obligations.FraPushScansForAMarker := by
  intro b s h
  have scan : exec (.fraPush b) s = .next (stepSeekSync b (bumpGenA s)) :=
    congrArg Host.Outcome.next (pushA_seekSync b h)
  refine ⟨fun h1 h2 => ?_, fun marker room => ?_, fun marker noBuffer => ?_⟩
  · rw [scan, stepSeekSync_other _ h1 h2]; rfl
  · rw [scan, stepSeekSync_marker _ marker, startFrame_room _ b (s := bumpGenA s) room]; rfl
  · rw [scan, stepSeekSync_marker _ marker, startFrame_noBuffer _ b (s := bumpGenA s) noBuffer, ← h]
    rfl

end Sys2Proof.Machine
end

section
/-! PROOF. A push of Framer-B: the scan for a start character (45_text_framer.md R312), and what a push
leaves in WBB (R72, R313, R420). -/

namespace Sys2Proof.Machine

/-- What a byte of WBB reads as depends on the block, the epoch and the stored byte only. -/
theorem State.wbbByte_congr {s t : State} {i : Nat} (hinst : t.inst = s.inst)
    (hepoch : t.wbb.epoch = s.wbb.epoch) (hread : t.wbb.read? i = s.wbb.read? i) :
    t.wbbByte i = s.wbbByte i := by
  rw [State.wbbByte, State.wbbByte, hinst, hepoch, hread]

/-! ### O37: what a push leaves in WBB -/

/-- A start character is not stored (R312). -/
theorem storedAtB_of_startsSentence {c : Byte} {s : State} (h : startsSentence c s) :
    storedAtB c s = none := by
  rw [storedAtB, h.1]

/-- The buffer under the character a push stores: the one before it, as the result leaves it, or an
unspecified one if a sentence starts. -/
theorem pushB_wbb (c : Byte) (s : State) : ∃ b w r,
    pushB c s
        = { s with b := b, wbb := storeAt w c (storedAtB c s), results := r :: s.results }
      ∧ b.gen = s.b.gen + 1
      ∧ (¬ startsSentence c s → bufferFor r (storedAtB c s) s.wbb w)
      ∧ (startsSentence c s → Unspecified s.wbb w) := by
  by_cases start : startsSentence c s
  · obtain ⟨b, w, r, e, hg, hw⟩ := EndsB.of_dispatchB_start (s := bumpGenB s) start
    exact ⟨b, w, r, e, hg, absurd start, fun _ => hw.unspecified_of_start⟩
  · obtain ⟨b, w, r, e, hg, hw⟩ := EndsB.of_dispatchB (s := bumpGenB s) start
    exact ⟨b, w, r, e, hg, fun _ => hw, (absurd · start)⟩

/-- Settles O37: as O31, and where the buffer becomes unspecified nothing is stored. -/
theorem frbPushFrame : Obligations.FrbPushFrame := by
  intro c s
  obtain ⟨b, w, r, e, hg, within, starting⟩ := pushB_wbb c s
  refine ⟨b, _, r, congrArg Host.Outcome.next e, hg, fun j hj => ?_, fun start noError i hi => ?_,
    fun h => ?_⟩
  · rw [hj, read?_storeAt_same]
  · obtain rfl := (within start).eq_of_no_error noError
    exact State.wbbByte_congr rfl (storeAt_epoch _ _ _) (read?_storeAt_other _ _ hi)
  · by_cases start : startsSentence c s
    · rw [storedAtB_of_startsSentence start]
      exact starting start
    · have error := h.resolve_left start
      rw [((within start).forget_of_error error).2]
      exact (within start).unspecified_of_error error

/-! ### O33: the scan -/

theorem pushB_seekStart {s : State} (c : Byte) (h : s.b.state = .seekStart) :
    pushB c s = stepSeekStart c (bumpGenB s) := by
  have h' : (bumpGenB s).b.state = .seekStart := h
  rw [pushB, dispatchB, h']

theorem stepSeekStart_other {c : Byte} (s : State) (h1 : c ≠ 0x24) (h2 : c ≠ 0x21) :
    stepSeekStart c s = s.returns .noMessage :=
  if_neg (not_or.2 ⟨h1, h2⟩)

theorem stepSeekStart_start {c : Byte} (s : State) (h : c = 0x24 ∨ c = 0x21) :
    stepSeekStart c s = { s with
      b := { s.b with xor := 0x00, wr := 0, fstart := 0, hdr := false, talker := [], sid := [],
                      fcount := 0, state := .readFields },
      wbb := s.wbb.forget, results := .noMessage :: s.results } :=
  if_pos h

/-- Settles O33, for each kind of character. -/
theorem frbPushScansForAStart : Obligations.FrbPushScansForAStart := by
  intro c s h
  have scan : exec (.frbPush c) s = .next (stepSeekStart c (bumpGenB s)) :=
    congrArg Host.Outcome.next (pushB_seekStart c h)
  refine ⟨fun h1 h2 => ?_, fun start => ?_⟩
  · rw [scan, stepSeekStart_other _ h1 h2]; rfl
  · rw [scan, stepSeekStart_start _ start]; rfl

end Sys2Proof.Machine
end

section
/-! PROOF. Where SERA stops (46_binary_serdes.md R351, R417), and what a failed one leaves of the OUT bytes
(20_memory.md R73). -/

namespace Sys2Proof.Machine

/-- A failed SERA touches no OUT byte outside its buffer (R73). -/
theorem State.outByte_scribbleOut_outside (s : State) {base len i : Nat}
    (h : ¬ (base ≤ i ∧ i < base + len)) :
    State.outByte { s with out := (s.scribbleOut base len).out } i = s.outByte i := by
  have short : Config.freeNat s.inst s.draws % (len + 1) ≤ len :=
    Nat.le_of_lt_succ (Nat.mod_lt _ (Nat.succ_pos len))
  refine (State.outByte_writeRun s base _ i).trans (if_neg ?_)
  rw [List.length_map, List.length_range]
  omega

section
variable {s : State} {d : Nat} {m : BinMsg} {rec : List (Option BinVal)} {sys comp seq : Byte}

theorem execSera_badDescriptor {out : OutBuf} (h : s.cfg.binMsgs.length ≤ d) :
    execSera d rec sys comp seq out s = .fault .badDescriptor := by
  have missing : s.binMsg? d = none := List.getElem?_eq_none h
  simp only [execSera, missing]

theorem execSera_badOperand {out : OutBuf} (hm : s.cfg.binMsgs[d]? = some m)
    (hrec : binRecordFits m.fields rec = false) :
    execSera d rec sys comp seq out s = .refused .badOperand := by
  have found : s.binMsg? d = some m := hm
  simp [execSera, found, hrec]

theorem execSera_bufferOverrun {base len : Nat} (hm : s.cfg.binMsgs[d]? = some m)
    (hrec : binRecordFits m.fields rec = true) (hlen : len < 280) :
    execSera d rec sys comp seq (.own base len) s
      = .next ((s.scribbleOut base len).raise none .bufferOverrun) := by
  have found : s.binMsg? d = some m := hm
  simp [execSera, found, hrec, outOverlaps, outLen, outBase, seraMinBuf, hlen]

end

/-- Settles O42, check by check. -/
theorem seraFailsInOrder : Obligations.SeraFailsInOrder := by
  intro s d rec sys comp seq base len
  refine ⟨execSera_badDescriptor, fun m => execSera_badOperand, fun m hm hrec hlen => ?_⟩
  exact ⟨(s.scribbleOut base len).out, _, execSera_bufferOverrun hm hrec hlen,
    fun i => s.outByte_scribbleOut_outside⟩

end Sys2Proof.Machine
end

section
/-! PROOF. The duties of the host (20_memory.md R84, 70_reset_and_hazards.md R461), the queue (R82, R436) and
the partial resets of the framers (R270, R310). -/

namespace Sys2Proof.Machine

/-! ### O58: host writes and OUT buffers -/

theorem someViewLive_a_iff (s : State) :
    s.someViewLive .a = true ↔ ∃ w, Result.viewA w ∈ s.results ∧ w.gen = s.a.gen := by
  constructor
  · intro h
    obtain ⟨r, hr, live⟩ := List.any_eq_true.1 h
    cases r
    case viewA w => exact ⟨w, hr, of_decide_eq_true live⟩
    all_goals cases live
  · rintro ⟨w, hw, hgen⟩
    by_contra dead
    exact gen_ne_of_noneLiveA (Bool.not_eq_true _ ▸ dead) hw hgen

theorem someViewLive_b_iff (s : State) :
    s.someViewLive .b = true ↔ ∃ w, Result.viewB w ∈ s.results ∧ w.gen = s.b.gen := by
  constructor
  · intro h
    obtain ⟨r, hr, live⟩ := List.any_eq_true.1 h
    cases r
    case viewB w => exact ⟨w, hr, of_decide_eq_true live⟩
    all_goals cases live
  · rintro ⟨w, hw, hgen⟩
    by_contra dead
    exact gen_ne_of_noneLiveB (Bool.not_eq_true _ ▸ dead) hw hgen

/-- When a host write of WBA would break the first duty of R84. -/
theorem dutyA_iff (s : State) : (s.inFrameA || s.someViewLive .a) = true
    ↔ s.a.state ≠ .seekSync ∨ ∃ w, Result.viewA w ∈ s.results ∧ w.gen = s.a.gen := by
  rw [Bool.or_eq_true, someViewLive_a_iff, State.inFrameA, decide_eq_true_iff]

/-- When a host write of WBB would break the first duty of R84. -/
theorem dutyB_iff (s : State) : (s.inFrameB || s.someViewLive .b) = true
    ↔ s.b.state ≠ .seekStart ∨ ∃ w, Result.viewB w ∈ s.results ∧ w.gen = s.b.gen := by
  rw [Bool.or_eq_true, someViewLive_b_iff, State.inFrameB, decide_eq_true_iff]

/-- An OUT buffer with a byte over a working buffer breaks the second duty of R84. -/
theorem outOverlaps_overBuffer (f : Framer) {len : Nat} (h : 0 < len) :
    outOverlaps (.overBuffer f len) = true := bne_iff_ne.2 h.ne'

theorem execSera_overlap_ne_next {s t : State} {d : Nat} {rec : List (Option BinVal)}
    {sys comp seq : Byte} {out : OutBuf} (h : outOverlaps out = true) :
    execSera d rec sys comp seq out s ≠ .next t := by
  unfold execSera
  split
  · nofun
  · rw [if_pos h]
    split <;> nofun

theorem execSerb_overlap_ne_next {s t : State} {d : Nat} {talker : Bytes}
    {rec : List (Option TxtVal)} {out : OutBuf} (h : outOverlaps out = true) :
    execSerb d talker rec out s ≠ .next t := by
  unfold execSerb
  split
  · nofun
  · rw [if_pos h]
    split <;> nofun

/-- Settles O58: the test of a host write is the duty, and the overlap test comes before any result. -/
theorem hostDutiesAreEnforced : Obligations.HostDutiesAreEnforced := by
  intro s i v liveA liveB
  refine ⟨fun duty => if_pos ((dutyA_iff s).2 duty), fun idle dead hi => ?_,
    fun duty => if_pos ((dutyB_iff s).2 duty), fun idle dead hi => ?_, rfl,
    fun d rec sys comp seq f len t hlen => execSera_overlap_ne_next (outOverlaps_overBuffer f hlen),
    fun d talker rec f len t hlen => execSerb_overlap_ne_next (outOverlaps_overBuffer f hlen)⟩
  · have kept : ¬ (s.inFrameA || s.someViewLive .a) = true :=
      fun h => ((dutyA_iff s).1 h).elim (absurd idle) dead
    exact (if_neg kept).trans (if_pos hi)
  · have kept : ¬ (s.inFrameB || s.someViewLive .b) = true :=
      fun h => ((dutyB_iff s).1 h).elim (absurd idle) dead
    exact (if_neg kept).trans (if_pos hi)

/-! ### O4: the queue -/

theorem step_of_pending_nil {s : State} (h : s.pending = []) : step s = .next s := by
  rw [step, takeNext, h]

theorem step_of_pending_cons {s : State} {act : HostAction} {rest : List HostAction}
    (h : s.pending = act :: rest) : step s = perform act (s.setPending rest) := by
  rw [step, takeNext, h]

theorem perform_command {c : Command} {i : Instr} (h : decode c = .ok i) (s : State) :
    perform (.command c) s = exec i s := by
  rw [perform, issueCommand, h]

/-- Settles O4: the oldest host action is performed, and a command that decodes is executed. -/
theorem stepRunsTheDecodedCommand : Obligations.StepRunsTheDecodedCommand := by
  refine fun s => ⟨fun c rest i hq hd => ?_, step_of_pending_nil⟩
  rw [step_of_pending_cons hq, perform_command hd]
  rfl

/-! ### O24: the partial resets -/

/-- Settles O24: `resetA` and `resetB` are the states the two commands end in. -/
theorem framerResetsScanAgain : Obligations.FramerResetsScanAgain :=
  fun s => ⟨⟨(resetA s).a, (resetA s).draws, execFraReset_eq s, rfl, rfl, rfl⟩,
    ⟨(resetB s).b, (resetB s).draws, execFrbReset_eq s, rfl, rfl, rfl⟩⟩

end Sys2Proof.Machine
end

section
/-! PROOF. The command encoding (30_encoding.md R100 to R102): a code byte is its two fields, so that the
table of `decode`, read by field, and that of `encode`, written by byte, are one table. -/

namespace Sys2Proof.Machine

/-- A code byte is its unit and op fields (R100). -/
theorem code_eq_of_fields {code : Byte} {u o : Nat} (hu : codeUnit code = u) (ho : codeOp code = o) :
    code = BitVec.ofNat 8 (16 * u + o) := by
  have fields : ∀ c : Byte, c = BitVec.ofNat 8 (16 * codeUnit c + codeOp c) := by decide +kernel
  rw [← hu, ← ho]
  exact fields code

theorem decode_encode (i : Instr) : decode (encode i) = .ok i := by
  cases i <;> simp [encode, decode, codeUnit, codeOp]

theorem encode_of_decode {c : Command} {i : Instr} (h : decode c = .ok i) : encode i = c := by
  obtain ⟨code, ops⟩ := c
  unfold decode at h
  split at h
  case h_24 => cases h
  all_goals
    obtain rfl := code_eq_of_fields ‹codeUnit code = _› ‹codeOp code = _›
    split at h <;> cases h
    obtain rfl : ops = _ := ‹_›
    rfl

theorem decode_of_reserved {c : Command} (h : c.code ∉ definedCodes) :
    decode c = .error (.illegalCommand c.code) := by
  obtain ⟨code, ops⟩ := c
  unfold decode
  split
  case h_24 => rfl
  all_goals
    obtain rfl := code_eq_of_fields ‹codeUnit code = _› ‹codeOp code = _›
    exact absurd (by simp [definedCodes]) h

/-- Settles O2: `encode` inverts `decode` on both sides. -/
theorem decodeAndEncodeAgree : Obligations.DecodeAndEncodeAgree :=
  ⟨decode_encode, fun _ _ => encode_of_decode⟩

/-- Settles O3: a reserved code does not decode, and what does not decode is refused. -/
theorem reservedCodesAreRefused : Obligations.ReservedCodesAreRefused := by
  intro c s h
  rw [perform, issueCommand, decode_of_reserved h]
  rfl

/-- Settles O1: each word is the code its command is issued with. -/
theorem tableWordsDecode : Obligations.TableWordsDecode :=
  ⟨decode_encode (.crcAcc 0x41), decode_encode (.hexDec 0x34 0x37),
    decode_encode (.binDec 5 0 [0x34, 0x12]), decode_encode (.txtParse .uint8 (.run [0x38])),
    decode_encode (.fraPush 0xFD), decode_encode (.frbPush 0x24),
    decode_encode (.sera 3 [none] 1 2 7 (.own 0 280)),
    decode_encode (.serb 0 [0x48, 0x45] [none] (.own 0 64))⟩

end Sys2Proof.Machine
end

section
/-! PROOF. The frame SERA writes (46_binary_serdes.md R350 to R354): the sizes of a payload image and of its
trim, and the OUT bytes after the write. -/

namespace Sys2Proof.Machine

/-! ### The payload image (R200, R350) -/

theorem entryImage_length {f : BinField} {x : Option BinVal} (h : binEntryFits f x = true) :
    (entryImage f x).length = fieldSize f := by
  cases x with
  | none => exact List.length_replicate
  | some v =>
    simp only [binEntryFits] at h
    simp only [entryImage, fieldSize]
    cases hp : primOfTag f.ptype with
    | none => simp [hp] at h
    | some p => exact fieldImage_length (by simpa [hp] using h)

/-- The image of a matching record has the payload size of its descriptor. -/
theorem payloadImage_length {fs : List BinField} {rec : List (Option BinVal)}
    (h : binRecordFits fs rec = true) : (payloadImage fs rec).length = fieldsSize fs := by
  induction fs generalizing rec with
  | nil => rfl
  | cons f fs ih =>
    cases rec with
    | nil => cases h
    | cons x xs =>
      obtain ⟨hx, hxs⟩ := Bool.and_eq_true_iff.1 h
      rw [payloadImage, List.length_append, entryImage_length hx, ih hxs, fieldsSize]

/-- A non-empty payload keeps at least one byte (R352). -/
theorem trimPayload_length_pos {p : Bytes} (h : 0 < p.length) : 0 < (trimPayload p).length := by
  obtain ⟨-, -, hpos, -⟩ := trimLen_spec p le_rfl
  rw [trimPayload_length]
  exact hpos h

/-! ### Elaborated descriptors (R157, R201) -/

section
variable {s : State} {d : Nat} {m : BinMsg}

theorem Elaborated.crcxAt (h : Elaborated s) (hm : s.cfg.binMsgs[d]? = some m) :
    s.crcxAt d = crcExtra s.cfg.arrayLenInCrcExtra m := by
  rw [State.crcxAt, h.2, crcxOf, List.getD, List.getElem?_map, hm]
  rfl

theorem Elaborated.payloadSize (h : Elaborated s) (hm : s.cfg.binMsgs[d]? = some m) :
    1 ≤ fieldsSize m.fields ∧ fieldsSize m.fields ≤ 255 := by
  obtain ⟨binOk, -⟩ := Bool.and_eq_true_iff.1 h.1
  have ok : binMsgOk m = true := List.all_eq_true.1 binOk m (List.mem_of_getElem? hm)
  simp only [binMsgOk, Bool.and_eq_true, decide_eq_true_eq] at ok
  obtain ⟨⟨⟨⟨⟨-, least⟩, greatest⟩, -⟩, -⟩, -⟩ := ok
  exact ⟨least, greatest⟩

/-- SERA of a matching record completes when the buffer is long enough (R351). -/
theorem execSera_completes {rec : List (Option BinVal)} {sys comp seq : Byte} {base len : Nat}
    (hm : s.cfg.binMsgs[d]? = some m) (hrec : binRecordFits m.fields rec = true) (hlen : 280 ≤ len) :
    execSera d rec sys comp seq (.own base len) s
      = (let frame := seraFrame m (s.crcxAt d) (payloadImage m.fields rec) sys comp seq
         .next ((s.setOut (Memory.writeRun s.out base frame)).returns (.count frame.length))) := by
  have found : s.binMsg? d = some m := hm
  have long : ¬ len < seraMinBuf := Nat.not_lt.2 hlen
  simp [execSera, found, hrec, outOverlaps, outLen, outBase, long]

end

/-! ### The frame (R120, R353) -/

theorem seraFrame_length (m : BinMsg) (extra : Byte) (image : Bytes) (sys comp seq : Byte) :
    (seraFrame m extra image sys comp seq).length = 12 + (trimPayload image).length := by
  simp [seraFrame, seraHeader, crcBytes]
  omega

/-- Settles O40: the frame is written over the OUT bytes, and its payload is the trim of an image of 1 to
255 bytes. -/
theorem seraWritesTheFrame : Obligations.SeraWritesTheFrame := by
  intro s d m rec sys comp seq base len elaborated hm hrec hlen p n hdr crc
  let frame := seraFrame m (s.crcxAt d) (payloadImage m.fields rec) sys comp seq
  have hlength : frame.length = 12 + n := seraFrame_length ..
  have hframe : frame = [0xFD] ++ hdr ++ p ++ [crc.extractLsb' 0 8, crc.extractLsb' 8 8] := by
    simp only [frame, elaborated.crcxAt hm]
    rfl
  obtain ⟨least, greatest⟩ := elaborated.payloadSize hm
  have himage := payloadImage_length hrec
  have hpos : 0 < n := trimPayload_length_pos (by omega)
  have hle : n ≤ 255 := (trimPayload_length_le _).trans (by omega)
  refine ⟨Memory.writeRun s.out base frame, ?_, by omega, by omega, ?_, fun i outside => ?_⟩
  · rw [← hlength]
    exact execSera_completes hm hrec hlen
  · rw [← hlength, ← hframe]
    exact s.outRun_writeRun base frame
  · rw [s.outByte_writeRun base frame i, if_neg (hlength ▸ outside)]

end Sys2Proof.Machine
end

section
/-! PROOF. Bytes pushed into Framer-A in frame (44_binary_framer.md R271 to R283): what they do to the
registers does not depend on the buffer's capacity, so that the rest of a frame is read as registers first
(`EndsFrame`), and then either fits the buffer or overruns it. -/

namespace Sys2Proof.Machine

/-! ### The registers of a push with room -/

/-- Framer-A's registers after a byte for which there is room, in frame (R274 to R279; `pushA_room`). Out of
frame nothing is read, so that a frame once ended stays ended. -/
def readA (a₀ : FramerA) (b : Byte) : FramerA :=
  let a := { a₀ with gen := a₀.gen + 1, wr := a₀.wr + 1 }
  match a.state with
  | .seekSync => a₀
  | .readLength =>
    { a with
      n := b, incompat := 0, compat := 0, idx := 0,
      state := match a.ver with
        | .v2 => .readV2Flags
        | .v1 => .readCoreHeader }
  | .readV2Flags =>
    if a.idx = 0 then { a with incompat := b, idx := 1 }
    else { a with compat := b, idx := 0, state := .readCoreHeader }
  | .readCoreHeader =>
    let a := storeHeader a b
    if a.idx + 1 = headerCount a.ver then
      { a with
        poff := a.wr, idx := 0,
        state := if 0 < a.n.toNat then .readPayload else .readChecksum }
    else { a with idx := a.idx + 1 }
  | .readPayload =>
    if a.idx + 1 = a.n.toNat then { a with idx := 0, state := .readChecksum }
    else { a with idx := a.idx + 1 }
  | .readChecksum =>
    if a.idx = 0 then { a with ck := b.setWidth 16, idx := 1 }
    else
      let a := { a with ck := (a.ck &&& 0x00FF) ||| (b.setWidth 16 <<< 8), idx := 0 }
      if isSigned a then { a with state := .readSignature } else { a with state := .seekSync }
  | .readSignature =>
    if a.idx + 1 = 13 then { a with idx := 0, state := .seekSync }
    else { a with idx := a.idx + 1 }

/-- What a push with room returns, from the registers it leaves: NONE in frame, the view at its end. -/
def resultA (i : BlockId) (a : FramerA) : Result :=
  if a.state = .seekSync then .viewA (viewOf i a) else .noMessage

/-- The push of `s` ends with the registers `a`. -/
def endA (s : State) (a : FramerA) : State :=
  { s with a := a, results := resultA s.inst a :: s.results }

theorem noneA_eq_endA (s : State) {a : FramerA} (h : a.state ≠ .seekSync) : noneA s a = endA s a := by
  rw [endA, resultA, if_neg h, noneA_eq]

theorem emitA_eq_endA (s : State) (a : FramerA) :
    emitA (s.setA a) = endA s { a with state := .seekSync, idx := 0 } := rfl

/-- A push in frame with room stores its byte at the write index, and does to the registers what `readA`
says (R271 to R279, R283). -/
theorem pushA_room {s : State} (b : Byte) (inFrame : s.a.state ≠ .seekSync)
    (room : s.a.wr < s.cfg.bufCapA) : pushA b s = endA (appendedA s b) (readA s.a b) := by
  unfold pushA dispatchA
  rcases s with ⟨_, _, _, _, ⟨state, _⟩, _⟩
  cases state
  case seekSync => exact absurd rfl inFrame
  all_goals
    dsimp only [bumpGenA, State.setA]
    refine (State.appendA_room b _ ?_).trans ?_
    · exact room
    simp only [readA, apply_ite (endA _)]
  case readLength => exact noneA_eq_endA _ (by dsimp only [bumpGenA]; split <;> nofun)
  case readV2Flags => exact if_congr Iff.rfl (noneA_eq_endA _ nofun) (noneA_eq_endA _ nofun)
  case readCoreHeader =>
    refine if_congr Iff.rfl (noneA_eq_endA _ (by dsimp only; split <;> nofun)) (noneA_eq_endA _ ?_)
    exact (storeHeader_keeps _ b).1.trans_ne nofun
  case readPayload => exact if_congr Iff.rfl (noneA_eq_endA _ nofun) (noneA_eq_endA _ nofun)
  case readChecksum =>
    exact if_congr Iff.rfl (noneA_eq_endA _ nofun)
      (if_congr Iff.rfl (noneA_eq_endA _ nofun) (emitA_eq_endA _ _))
  case readSignature =>
    exact if_congr Iff.rfl (emitA_eq_endA _ _) (noneA_eq_endA _ nofun)

/-- A push in frame without room overruns (R280, R420). -/
theorem pushA_full {s : State} (b : Byte) (inFrame : s.a.state ≠ .seekSync)
    (full : s.cfg.bufCapA ≤ s.a.wr) :
    pushA b s = (bumpGenA s).raise (some .a) .bufferOverrun := by
  have hstate : (bumpGenA s).a.state = s.a.state := rfl
  unfold pushA dispatchA
  rw [hstate]
  cases hs : s.a.state
  case seekSync => exact absurd hs inFrame
  all_goals exact State.appendA_full (s := bumpGenA s) b _ full

/-! ### Runs of bytes -/

theorem foldl_readA_seekSync {a : FramerA} (h : a.state = .seekSync) (bs : Bytes) :
    bs.foldl readA a = a := by
  induction bs with
  | nil => rfl
  | cons b bs ih => rw [List.foldl_cons, show readA a b = a by simp only [readA, h], ih]

/-- A run that ends in frame has been in frame from its start. -/
theorem inFrame_of_foldl_readA {a : FramerA} {bs : Bytes}
    (h : (bs.foldl readA a).state ≠ .seekSync) : a.state ≠ .seekSync :=
  fun idle => h (by rw [foldl_readA_seekSync idle, idle])

/-- A byte read in frame moves the write index by one. -/
theorem readA_wr {a : FramerA} (b : Byte) (h : a.state ≠ .seekSync) : (readA a b).wr = a.wr + 1 := by
  unfold readA
  dsimp only
  split
  case h_1 idle => exact absurd idle h
  case h_2 => rfl
  case h_4 =>
    obtain ⟨-, -, -, -, -, kwr, -⟩ :=
      storeHeader_keeps { a with gen := a.gen + 1, wr := a.wr + 1 } b
    split <;> exact kwr
  all_goals split_ifs <;> rfl

theorem foldl_readA_wr {a : FramerA} {bs : Bytes} (h : (bs.foldl readA a).state ≠ .seekSync) :
    (bs.foldl readA a).wr = a.wr + bs.length := by
  induction bs generalizing a with
  | nil => rfl
  | cons b bs ih =>
    have before : a.state ≠ .seekSync := inFrame_of_foldl_readA h
    rw [List.foldl_cons, ih h, readA_wr b before, List.length_cons]
    omega

/-- The buffer with a run of bytes stored from the index `i` on. -/
def Buffer.writeRun (w : Buffer) (i : Nat) (bs : Bytes) : Buffer :=
  { w with bytes := Memory.writeRun w.bytes i bs }

theorem Memory.writeRun_append (m : Memory) (i : Nat) (bs : Bytes) (b : Byte) :
    Memory.writeRun m i (bs ++ [b]) = Memory.write (Memory.writeRun m i bs) (i + bs.length) b := by
  induction bs generalizing m i with
  | nil => rfl
  | cons c bs ih =>
    rw [List.cons_append, Memory.writeRun, ih, Memory.writeRun, List.length_cons,
      Nat.add_right_comm i 1, Nat.add_assoc]

theorem Buffer.writeRun_append (w : Buffer) (i : Nat) (bs : Bytes) (b : Byte) :
    w.writeRun i (bs ++ [b]) = (w.writeRun i bs).write (i + bs.length) b :=
  congrArg (Buffer.mk · w.epoch) (Memory.writeRun_append w.bytes i bs b)

theorem feedA_append (bs : Bytes) (b : Byte) (s : State) :
    feedA (bs ++ [b]) s = pushA b (feedA bs s) := List.foldl_append

/-- `s` after bytes in frame for which there is room: they are stored, and each returns NONE. -/
def readingA (s : State) (bs : Bytes) : State :=
  { s with
    a := bs.foldl readA s.a, wba := s.wba.writeRun s.a.wr bs,
    results := List.replicate bs.length .noMessage ++ s.results }

/-- The push after such bytes. -/
theorem pushA_readingA {s : State} {bs : Bytes} (b : Byte)
    (inFrame : (bs.foldl readA s.a).state ≠ .seekSync) (room : s.a.wr + bs.length < s.cfg.bufCapA) :
    pushA b (readingA s bs) = { s with
      a := (bs ++ [b]).foldl readA s.a, wba := s.wba.writeRun s.a.wr (bs ++ [b]),
      results := resultA s.inst ((bs ++ [b]).foldl readA s.a)
        :: (List.replicate bs.length .noMessage ++ s.results) } := by
  have hwr : (readingA s bs).a.wr = s.a.wr + bs.length := foldl_readA_wr inFrame
  rw [pushA_room b inFrame (hwr.trans_lt room), appendedA, hwr, List.foldl_append,
    Buffer.writeRun_append]
  rfl

/-- Pushed bytes that leave the framer in frame are stored where there is room. -/
theorem feedA_inFrame {s : State} {bs : Bytes} (inFrame : (bs.foldl readA s.a).state ≠ .seekSync)
    (room : s.a.wr + bs.length ≤ s.cfg.bufCapA) : feedA bs s = readingA s bs := by
  induction bs using List.reverseRecOn with
  | nil => rfl
  | append_singleton bs b ih =>
    rw [List.length_append, List.length_singleton] at room
    have before : (bs.foldl readA s.a).state ≠ .seekSync :=
      inFrame_of_foldl_readA (bs := [b]) (by rwa [← List.foldl_append])
    rw [feedA_append, ih before (by omega), pushA_readingA b before (by omega), resultA, if_neg inFrame,
      readingA, List.length_append, List.length_singleton, List.replicate_succ]
    rfl

/-! ### The end of a frame -/

/-- The last byte of `bs`, and none before it, ends the frame that stands at the registers `a`, and leaves
the registers `a'`. -/
def EndsFrame (a : FramerA) (bs : Bytes) (a' : FramerA) : Prop :=
  ∃ init last, bs = init ++ [last] ∧ (init.foldl readA a).state ≠ .seekSync
    ∧ bs.foldl readA a = a' ∧ a'.state = .seekSync

/-- Bytes read before the rest of a frame. -/
theorem EndsFrame.append {a a' : FramerA} {bs cs : Bytes}
    (h : EndsFrame (bs.foldl readA a) cs a') : EndsFrame a (bs ++ cs) a' := by
  obtain ⟨init, last, rfl, inFrame, ends, out⟩ := h
  exact ⟨bs ++ init, last, (List.append_assoc ..).symm, by rwa [List.foldl_append],
    by rwa [List.foldl_append], out⟩

/-- The rest of a frame fits: its last byte returns the view of the registers, and those before it NONE. -/
theorem EndsFrame.feedA_fits {s : State} {bs : Bytes} {a : FramerA} (h : EndsFrame s.a bs a)
    (room : s.a.wr + bs.length ≤ s.cfg.bufCapA) :
    feedA bs s = { s with
      a := a, wba := s.wba.writeRun s.a.wr bs,
      results := .viewA (viewOf s.inst a)
        :: (List.replicate (bs.length - 1) .noMessage ++ s.results) } := by
  obtain ⟨init, last, rfl, inFrame, rfl, out⟩ := h
  rw [List.length_append, List.length_singleton] at room ⊢
  rw [feedA_append, feedA_inFrame inFrame (by omega), pushA_readingA last inFrame (by omega), resultA,
    if_pos out, Nat.add_sub_cancel]

/-- The rest of a frame does not fit: the first byte without room overruns, and those before it return
NONE. -/
theorem EndsFrame.feedA_overruns {s : State} {bs : Bytes} {a : FramerA} (h : EndsFrame s.a bs a)
    {k : Nat} (hk : s.a.wr + k = s.cfg.bufCapA) (short : k < bs.length) :
    (feedA (bs.take (k + 1)) s).results
        = .error .bufferOverrun :: (List.replicate k .noMessage ++ s.results)
      ∧ (feedA (bs.take (k + 1)) s).a.state = .seekSync := by
  obtain ⟨init, last, rfl, inFrame, -, -⟩ := h
  rw [List.length_append, List.length_singleton] at short
  have hlen : (init.take k).length = k := List.length_take_of_le (by omega)
  have inFrame' : ((init.take k).foldl readA s.a).state ≠ .seekSync :=
    inFrame_of_foldl_readA (bs := init.drop k)
      (by rwa [← List.foldl_append, List.take_append_drop])
  have full : s.cfg.bufCapA ≤ (readingA s (init.take k)).a.wr := by
    have hwr : (readingA s (init.take k)).a.wr = _ := foldl_readA_wr inFrame'
    omega
  rw [List.take_succ_eq_append_getElem (by simp; omega), List.take_append_of_le_length (by omega),
    feedA_append, feedA_inFrame inFrame' (by omega), pushA_full _ inFrame' full, State.raise_a]
  refine ⟨?_, rfl⟩
  show _ :: (List.replicate (init.take k).length _ ++ s.results) = _
  rw [hlen]

end Sys2Proof.Machine
end

section
/-! PROOF. One whole frame pushed into Framer-A (30_encoding.md R120 to R123, 44_binary_framer.md R273 to
R283): Framer-A's registers run through its parts, and the frame ends in its view or in one overrun. -/

namespace Sys2Proof.Machine

/-! ### Payload, checksum and signature (R277 to R279) -/

/-- Framer-A's registers `n` bytes later, at the start of another step. -/
def laterA (a : FramerA) (n : Nat) (state : SyncState) : FramerA :=
  { a with state := state, idx := 0, wr := a.wr + n, gen := a.gen + n }

/-- Framer-A's registers one byte later, in the same step. -/
def nextA (a : FramerA) : FramerA :=
  { a with idx := a.idx + 1, wr := a.wr + 1, gen := a.gen + 1 }

theorem laterA_nextA (a : FramerA) (n : Nat) (state : SyncState) :
    laterA (nextA a) n state = laterA a (n + 1) state := by
  simp only [laterA, nextA, Nat.add_assoc, Nat.add_comm 1]

theorem laterA_zero {a : FramerA} {state : SyncState} (hs : a.state = state) (hidx : a.idx = 0) :
    laterA a 0 state = a := by
  cases a
  simp_all [laterA]

theorem laterA_laterA (a : FramerA) (n k : Nat) (state state' : SyncState) :
    laterA (laterA a n state) k state' = laterA a (n + k) state' := by
  simp only [laterA, Nat.add_assoc]

/-- The payload bytes still to come lead to the checksum (R277). -/
theorem foldl_readA_payload {a : FramerA} {p : Bytes} (hs : a.state = .readPayload) (hne : p ≠ [])
    (hlen : a.idx + p.length = a.n.toNat) : p.foldl readA a = laterA a p.length .readChecksum := by
  induction p generalizing a with
  | nil => exact absurd rfl hne
  | cons b p ih =>
    rw [List.length_cons] at hlen
    rw [List.foldl_cons]
    cases p with
    | nil =>
      have hidx : a.idx + 1 = a.n.toNat := hlen
      simp [readA, hs, hidx, laterA]
    | cons c p =>
      rw [List.length_cons] at hlen
      have hread : readA a b = nextA a := by
        simp only [readA, hs]
        exact (if_neg (by omega)).trans (by rw [nextA, hs])
      rw [hread, List.length_cons, ← laterA_nextA]
      exact ih (a := nextA a) hs (List.cons_ne_nil c p)
        (by simp only [nextA, List.length_cons]; omega)

/-- The signature bytes still to come end the frame (R279). -/
theorem endsFrame_signature {a : FramerA} {sig : Bytes} (hs : a.state = .readSignature)
    (hne : sig ≠ []) (hlen : a.idx + sig.length = 13) :
    EndsFrame a sig (laterA a sig.length .seekSync) := by
  induction sig generalizing a with
  | nil => exact absurd rfl hne
  | cons b sig ih =>
    rw [List.length_cons] at hlen
    cases sig with
    | nil =>
      have hidx : a.idx + 1 = 13 := hlen
      exact ⟨[], b, rfl, by simp [hs], by simp [readA, hs, hidx, laterA], rfl⟩
    | cons c sig =>
      rw [List.length_cons] at hlen
      have hread : readA a b = nextA a := by
        simp only [readA, hs]
        exact (if_neg (by omega)).trans (by rw [nextA, hs])
      refine EndsFrame.append (bs := [b]) ?_
      rw [List.foldl_cons, hread, List.length_cons, ← laterA_nextA]
      exact ih (a := nextA a) hs (List.cons_ne_nil c sig)
        (by simp only [nextA, List.length_cons]; omega)

/-- The received checksum, low byte first (R278). -/
theorem half_of_bytes (lo hi : Byte) :
    (lo.setWidth 16 &&& 255#16) ||| (hi.setWidth 16 <<< 8) = (hi ++ lo : BitVec (8 + 8)) := by
  apply BitVec.eq_of_getLsbD_eq
  intro i hi
  rw [BitVec.getLsbD_append]
  interval_cases i <;> simp

/-- The message id of a v2 frame, low byte first (R276). -/
theorem msgid_of_bytes (b0 b1 b2 : Byte) :
    (((b0.setWidth 24 &&& 16711935#24) ||| (b1.setWidth 24 <<< 8)) &&& 65535#24)
      ||| (b2.setWidth 24 <<< 16) = (b2 ++ b1 ++ b0 : BitVec (8 + 8 + 8)) := by
  apply BitVec.eq_of_getLsbD_eq
  intro i hi
  rw [BitVec.getLsbD_append, BitVec.getLsbD_append]
  interval_cases i <;> simp

/-- After the two checksum bytes a signed frame goes on with its signature, and any other is at its end
(R278). -/
theorem foldl_readA_checksum {a : FramerA} (c0 c1 : Byte) (hs : a.state = .readChecksum)
    (hidx : a.idx = 0) : [c0, c1].foldl readA a
      = laterA { a with ck := (c1 ++ c0 : BitVec (8 + 8)) } 2
          (if isSigned a then .readSignature else .seekSync) := by
  cases signed : isSigned a <;>
    simpa [readA, hs, hidx, isSigned, laterA, half_of_bytes] using signed

/-- The checksum, and in a signed frame the signature, end the frame. -/
theorem endsFrame_checksum {a : FramerA} {c0 c1 : Byte} {sig : Bytes} (hs : a.state = .readChecksum)
    (hidx : a.idx = 0) (hsig : sig.length = if isSigned a then 13 else 0) :
    EndsFrame a (c0 :: c1 :: sig)
      (laterA { a with ck := (c1 ++ c0 : BitVec (8 + 8)) } (2 + sig.length) .seekSync) := by
  have hread := foldl_readA_checksum c0 c1 hs hidx
  cases signed : isSigned a
  · rw [signed, if_neg Bool.false_ne_true] at hread hsig
    obtain rfl := List.eq_nil_of_length_eq_zero hsig
    refine ⟨[c0], c1, rfl, ?_, hread, rfl⟩
    simp [readA, hs, hidx]
  · rw [signed, if_pos rfl] at hread hsig
    refine EndsFrame.append (bs := [c0, c1]) ?_
    rw [hread, ← laterA_laterA _ _ _ .readSignature]
    exact endsFrame_signature rfl (by rintro rfl; cases hsig) (by rw [hsig]; rfl)

/-- What follows the header: the payload, the checksum, and in a signed frame the signature. -/
theorem endsFrame_body {a : FramerA} {p : Bytes} {c0 c1 : Byte} {sig : Bytes}
    (hs : a.state = if 0 < a.n.toNat then .readPayload else .readChecksum) (hidx : a.idx = 0)
    (hp : p.length = a.n.toNat) (hsig : sig.length = if isSigned a then 13 else 0) :
    EndsFrame a (p ++ c0 :: c1 :: sig)
      (laterA { a with ck := (c1 ++ c0 : BitVec (8 + 8)) } (p.length + (2 + sig.length)) .seekSync) := by
  have hread : p.foldl readA a = laterA a p.length .readChecksum := by
    cases p with
    | nil =>
      rw [← hp, if_neg (by simp)] at hs
      exact (laterA_zero hs hidx).symm
    | cons b p =>
      rw [← hp, if_pos (by simp)] at hs
      exact foldl_readA_payload hs (List.cons_ne_nil b p) (by rw [hidx, hp, Nat.zero_add])
  refine EndsFrame.append ?_
  rw [hread, ← laterA_laterA _ _ _ .readChecksum]
  exact endsFrame_checksum (a := laterA a p.length .readChecksum) rfl rfl hsig

/-! ### Whole frames (R120, R122) -/

/-- The bytes of a list from an index on, one by one. -/
theorem slice_eq_map {f : Bytes} {off n : Nat} (h : off + n ≤ f.length) :
    (f.drop off).take n = (List.range n).map (fun i => f.getD (off + i) 0) := by
  apply List.ext_getElem?
  intro i
  by_cases hi : i < n
  · have hf : off + i < f.length := by omega
    simp [hi, hf]
  · simp [hi]

/-- The registers hold the header of frame `f`, and the framer stands after it. -/
structure HoldsHeader (f : Bytes) (a : FramerA) : Prop where
  state : a.state = if 0 < a.n.toNat then .readPayload else .readChecksum
  idx : a.idx = 0
  wr : a.wr = headerLength (frameVer f)
  poff : a.poff = headerLength (frameVer f)
  ver : a.ver = frameVer f
  n : a.n = f.getD 1 0
  v2 : frameVer f = .v2 → a.incompat = f.getD 2 0 ∧ a.compat = f.getD 3 0 ∧ a.seq = f.getD 4 0
    ∧ a.sys = f.getD 5 0 ∧ a.comp = f.getD 6 0 ∧ a.msgid = f.getD 9 0 ++ f.getD 8 0 ++ f.getD 7 0
  v1 : frameVer f = .v1 → a.incompat = 0 ∧ a.compat = 0 ∧ a.seq = f.getD 2 0
    ∧ a.sys = f.getD 3 0 ∧ a.comp = f.getD 4 0 ∧ a.msgid = (f.getD 5 0).setWidth 24

/-- The header of a v1 frame after its marker (R122, R274, R276). -/
theorem foldl_readA_headerV1 {a : FramerA} (f : Bytes) (hs : a.state = .readLength)
    (hver : a.ver = .v1) :
    [f.getD 1 0, f.getD 2 0, f.getD 3 0, f.getD 4 0, f.getD 5 0].foldl readA a = { a with
      n := f.getD 1 0, incompat := 0, compat := 0, seq := f.getD 2 0, sys := f.getD 3 0,
      comp := f.getD 4 0, msgid := (f.getD 5 0).setWidth 24, idx := 0, wr := a.wr + 5,
      poff := a.wr + 5, gen := a.gen + 5,
      state := if 0 < (f.getD 1 0).toNat then .readPayload else .readChecksum } := by
  simp [readA, storeHeader, hs, hver, headerCount]

/-- The header of a v2 frame after its marker (R120, R274 to R276). -/
theorem foldl_readA_headerV2 {a : FramerA} (f : Bytes) (hs : a.state = .readLength)
    (hver : a.ver = .v2) :
    [f.getD 1 0, f.getD 2 0, f.getD 3 0, f.getD 4 0, f.getD 5 0, f.getD 6 0, f.getD 7 0, f.getD 8 0,
      f.getD 9 0].foldl readA a = { a with
      n := f.getD 1 0, incompat := f.getD 2 0, compat := f.getD 3 0, seq := f.getD 4 0,
      sys := f.getD 5 0, comp := f.getD 6 0,
      msgid := (f.getD 9 0 ++ f.getD 8 0 ++ f.getD 7 0 : BitVec (8 + 8 + 8)), idx := 0,
      wr := a.wr + 9, poff := a.wr + 9, gen := a.gen + 9,
      state := if 0 < (f.getD 1 0).toNat then .readPayload else .readChecksum } := by
  simp [readA, storeHeader, hs, hver, headerCount, msgid_of_bytes]

/-- The bytes between the marker and the payload are the header, in both versions. -/
theorem HoldsHeader.of_foldl_readA {f : Bytes} {a : FramerA} (hs : a.state = .readLength)
    (hver : a.ver = frameVer f) (hwr : a.wr = 1) (hlen : headerLength (frameVer f) ≤ f.length) :
    HoldsHeader f (((f.drop 1).take (headerLength (frameVer f) - 1)).foldl readA a) := by
  cases hv : frameVer f <;> rw [hv] at hver hlen
  case v1 =>
    have bytes : (f.drop 1).take 5 = _ := slice_eq_map (by simpa [headerLength] using hlen)
    have hread := (congrArg (List.foldl readA a) bytes).trans (foldl_readA_headerV1 f hs hver)
    simp only [headerLength, hread]
    refine ⟨rfl, rfl, ?_, ?_, hver.trans hv.symm, rfl, ?_, ?_⟩ <;> simp [hwr, hv, headerLength]
  case v2 =>
    have bytes : (f.drop 1).take 9 = _ := slice_eq_map (by simpa [headerLength] using hlen)
    have hread := (congrArg (List.foldl readA a) bytes).trans (foldl_readA_headerV2 f hs hver)
    simp only [headerLength, hread]
    refine ⟨rfl, rfl, ?_, ?_, hver.trans hv.symm, rfl, ?_, ?_⟩ <;> simp [hwr, hv, headerLength]

/-- The length of a frame's signature (R121). -/
def signatureLength (f : Bytes) : Nat :=
  if frameVer f = .v2 ∧ (f.getD 2 0).getLsbD 0 = true then 13 else 0

theorem HoldsHeader.signed {f : Bytes} {a : FramerA} (h : HoldsHeader f a) :
    (if isSigned a then 13 else 0) = signatureLength f := by
  cases hv : frameVer f
  · simp [Machine.isSigned, signatureLength, h.ver, hv]
  · obtain ⟨hincompat, -⟩ := h.v2 hv
    simp [Machine.isSigned, signatureLength, h.ver, hv, hincompat]

/-- A frame begins with a marker, and its first bytes give its length (R120, R122, R123). -/
theorem isFrame_spec {f : Bytes} (h : isFrame f = true) :
    (∃ m, f = m :: f.drop 1 ∧ (m = 0xFD ∨ m = 0xFE))
      ∧ f.length = headerLength (frameVer f) + (f.getD 1 0).toNat + 2 + signatureLength f := by
  replace h : frameLength f = some f.length := beq_iff_eq.1 h
  unfold frameLength at h
  split at h
  case h_2 => cases h
  case h_1 m n rest =>
    split_ifs at h with v2 v1
    · subst v2
      cases rest with
      | nil => cases h
      | cons incompat rest =>
        refine ⟨⟨_, rfl, .inl rfl⟩, ?_⟩
        simpa [headerLength, frameVer, signatureLength] using (Option.some.inj h).symm
    · subst v1
      refine ⟨⟨_, rfl, .inr rfl⟩, ?_⟩
      simpa [headerLength, frameVer, signatureLength] using (Option.some.inj h).symm

/-- A frame after its marker: header, payload, checksum, signature (R120, R122). -/
theorem frame_parts {f : Bytes} {h n : Nat} (h0 : 0 < h) (hlen : h + n + 2 ≤ f.length) :
    f.drop 1 = (f.drop 1).take (h - 1) ++ ((f.drop h).take n
      ++ f.getD (h + n) 0 :: f.getD (h + n + 1) 0 :: f.drop (h + n + 2)) := by
  have checksum : f.drop (h + n)
      = f.getD (h + n) 0 :: f.getD (h + n + 1) 0 :: f.drop (h + n + 2) := by
    rw [List.drop_eq_getElem_cons (by omega), List.drop_eq_getElem_cons (by omega),
      List.getD_eq_getElem _ _ (by omega), List.getD_eq_getElem _ _ (by omega)]
  have body : f.drop h = (f.drop 1).drop (h - 1) := by
    rw [List.drop_drop, Nat.add_sub_cancel' h0]
  rw [← checksum, ← List.drop_drop, List.take_append_drop, body, List.take_append_drop]

/-- Framer-A's registers run through a frame: from those after its marker to those that hold its header and
its checksum. -/
theorem endsFrame_of_isFrame {f : Bytes} {a : FramerA} (frame : isFrame f = true)
    (hs : a.state = .readLength) (hver : a.ver = frameVer f) (hwr : a.wr = 1) :
    let c := headerLength (frameVer f) + (f.getD 1 0).toNat
    ∃ a₁ k, HoldsHeader f a₁ ∧ a₁.wr + k = f.length
      ∧ EndsFrame a (f.drop 1)
          (laterA { a₁ with ck := (f.getD (c + 1) 0 ++ f.getD c 0 : BitVec (8 + 8)) } k .seekSync) := by
  intro c
  obtain ⟨-, hlen⟩ := isFrame_spec frame
  have header := HoldsHeader.of_foldl_readA hs hver hwr (by omega)
  have positive : 0 < headerLength (frameVer f) := by cases frameVer f <;> simp [headerLength]
  have payload : (framePayload f).length = (f.getD 1 0).toNat := by
    rw [framePayload, List.length_take_of_le]
    rw [List.length_drop]
    omega
  have signature : (f.drop (c + 2)).length = signatureLength f := by
    rw [List.length_drop]
    omega
  have ends := EndsFrame.append (endsFrame_body (c0 := f.getD c 0) (c1 := f.getD (c + 1) 0)
    header.state header.idx (by rw [payload, header.n]) (by rw [signature, header.signed]))
  rw [framePayload, ← frame_parts positive (by omega)] at ends
  refine ⟨_, _, header, ?_, ends⟩
  rw [← framePayload, header.wr, payload, signature]
  omega

/-! ### From the marker on (R103, R273) -/

theorem execAll_expandFeedA (bs : Bytes) (s : State) :
    execAll (expandFeedA bs) s = .next (feedA bs s) := by
  induction bs generalizing s with
  | nil => rfl
  | cons b bs ih => exact ih (pushA b s)

/-- The state after the marker of a frame, with room for it (R273). -/
def startedA (m : Byte) (s : State) : State :=
  { s with
    a := { s.a with
      gen := s.a.gen + 1, ver := if m = 0xFD then .v2 else .v1, wr := 1, state := .readLength },
    wba := s.wba.forget.write 0 m, results := .noMessage :: s.results }

theorem pushA_marker {m : Byte} {s : State} (idle : s.a.state = .seekSync) (hm : m = 0xFD ∨ m = 0xFE)
    (room : 0 < s.cfg.bufCapA) : pushA m s = startedA m s := by
  rw [pushA_seekSync m idle, stepSeekSync_marker _ hm, startFrame_room _ m (s := bumpGenA s) room]
  rfl

theorem pushA_marker_noBuffer {m : Byte} {s : State} (idle : s.a.state = .seekSync)
    (hm : m = 0xFD ∨ m = 0xFE) (noBuffer : s.cfg.bufCapA = 0) :
    (pushA m s).results = .error .bufferOverrun :: s.results ∧ (pushA m s).a.state = .seekSync := by
  rw [pushA_seekSync m idle, stepSeekSync_marker _ hm,
    startFrame_noBuffer _ m (s := bumpGenA s) noBuffer]
  exact ⟨rfl, rfl⟩

/-- A run of WBA inside bytes stored from index 0 on. -/
theorem wbaRun_of_writeRun {s : State} {w : Buffer} {bs : Bytes} (hw : s.wba = w.writeRun 0 bs)
    {off len : Nat} (h : off + len ≤ bs.length) : s.wbaRun ⟨off, len⟩ = (bs.drop off).take len := by
  rw [slice_eq_map h]
  refine List.map_congr_left fun i hi => ?_
  have hi : i < len := List.mem_range.1 hi
  have hi : off + i < bs.length := by omega
  have hread : s.wba.read? (off + i) = bs[off + i]? := by
    rw [hw]
    refine (Memory.read?_writeRun bs w.bytes 0 (off + i)).trans ?_
    rw [if_pos (by omega), Nat.sub_zero]
  rw [State.wbaByte, hread, List.getD, List.getElem?_eq_getElem hi]
  rfl

theorem feedA_marker {f : Bytes} {m : Byte} {s : State} (hf : f = m :: f.drop 1)
    (hm : m = 0xFD ∨ m = 0xFE) (idle : s.a.state = .seekSync) (room : 0 < s.cfg.bufCapA) :
    feedA f s = feedA (f.drop 1) (startedA m s) := by
  conv_lhs => rw [hf]
  rw [feedA, List.foldl_cons, pushA_marker idle hm room]
  rfl

theorem replicate_append_cons {α : Type} (n : Nat) (x : α) (l : List α) :
    List.replicate n x ++ x :: l = List.replicate (n + 1) x ++ l := by
  rw [List.replicate_succ', List.append_assoc]
  rfl

/-- The marker gives the version (R120, R122). -/
theorem startedA_ver {f : Bytes} {m : Byte} {s : State} (hf : f = m :: f.drop 1) :
    (startedA m s).a.ver = frameVer f := by
  rw [hf]
  simp [startedA, frameVer]

/-- A frame that fits ends in the view of the registers that hold its header and its checksum. -/
theorem feedA_frame {f : Bytes} {s : State} (frame : isFrame f = true) (idle : s.a.state = .seekSync)
    (fits : f.length ≤ s.cfg.bufCapA) :
    let c := headerLength (frameVer f) + (f.getD 1 0).toNat
    ∃ a₁ k, HoldsHeader f a₁ ∧ a₁.wr + k = f.length ∧
      let a := laterA { a₁ with ck := (f.getD (c + 1) 0 ++ f.getD c 0 : BitVec (8 + 8)) } k .seekSync
      feedA f s = { s with
        a := a, wba := s.wba.forget.writeRun 0 f,
        results := .viewA (viewOf s.inst a)
          :: (List.replicate (f.length - 1) .noMessage ++ s.results) } := by
  intro c
  obtain ⟨⟨m, hf, hm⟩, hlen⟩ := isFrame_spec frame
  obtain ⟨a, k, header, hwr, ends⟩ :=
    endsFrame_of_isFrame (a := (startedA m s).a) frame rfl (startedA_ver hf) rfl
  have hrest : (f.drop 1).length = f.length - 1 := List.length_drop
  refine ⟨a, k, header, hwr, ?_⟩
  rw [feedA_marker hf hm idle (by omega), ends.feedA_fits (by simp [startedA]; omega), hrest]
  have hbuf : (startedA m s).wba.writeRun 1 (f.drop 1) = s.wba.forget.writeRun 0 f := by
    rw [hf]
    rfl
  have hresults : List.replicate (f.length - 1 - 1) .noMessage ++ (startedA m s).results
      = List.replicate (f.length - 1) .noMessage ++ s.results := by
    refine (replicate_append_cons _ _ _).trans ?_
    rw [Nat.sub_add_cancel (by omega)]
  rw [show (startedA m s).a.wr = 1 from rfl, hbuf, hresults]
  rfl

/-- A frame that does not fit overruns at the byte of index BUF_CAP_A. -/
theorem feedA_frame_overruns {f : Bytes} {s : State} (frame : isFrame f = true)
    (idle : s.a.state = .seekSync) (short : s.cfg.bufCapA < f.length) :
    let t := feedA (f.take (s.cfg.bufCapA + 1)) s
    t.results = .error .bufferOverrun :: (List.replicate s.cfg.bufCapA .noMessage ++ s.results)
      ∧ t.a.state = .seekSync := by
  obtain ⟨⟨m, hf, hm⟩, hlen⟩ := isFrame_spec frame
  rw [hf, List.take_succ_cons]
  cases hcap : s.cfg.bufCapA with
  | zero => exact pushA_marker_noBuffer idle hm hcap
  | succ cap =>
    obtain ⟨a, k, -, -, ends⟩ :=
      endsFrame_of_isFrame (a := (startedA m s).a) frame rfl (startedA_ver hf) rfl
    obtain ⟨hresults, hstate⟩ := ends.feedA_overruns (s := startedA m s) (k := cap)
      (by rw [Nat.add_comm]; exact hcap.symm) (by rw [List.length_drop]; omega)
    rw [feedA, List.foldl_cons, pushA_marker idle hm (by omega)]
    refine ⟨hresults.trans ?_, hstate⟩
    exact congrArg _ (replicate_append_cons ..)

/-- Settles O32: the registers run through the frame, so that it fits and ends in the view they hold, or
overruns at the first byte without room. -/
theorem aFrameGivesItsViewOrOverruns : Obligations.AFrameGivesItsViewOrOverruns := by
  intro f s frame idle h n
  refine ⟨fun fits => ?_, fun short => ?_⟩
  · obtain ⟨a₁, k, header, hwr, fed⟩ := feedA_frame frame idle fits
    obtain ⟨-, hlen⟩ := isFrame_spec frame
    replace hlen : f.length = h + n + 2 + signatureLength f := hlen
    have hn : a₁.n.toNat = n := congrArg _ header.n
    have run : ∀ {off len}, off + len ≤ f.length →
        (feedA f s).wbaRun ⟨off, len⟩ = (f.drop off).take len :=
      wbaRun_of_writeRun (congrArg State.wba fed)
    have payload : (⟨a₁.poff, a₁.n.toNat⟩ : Slice) = ⟨h, n⟩ := by rw [header.poff, hn]
    refine ⟨_, _, execAll_expandFeedA f s, congrArg State.results fed, ?_,
      congrArg (fun t => t.a.state) fed, (congrArg (fun t => t.a.wr) fed).trans hwr, ?_,
      header.ver, payload, ?_, rfl, header.v2, header.v1, ?_⟩
    · rw [fed]
      simp [State.viewALive, viewOf]
    · rw [run (by omega), List.drop_zero, List.take_length]
    · exact (congrArg _ payload).trans (run (by omega))
    · have hsig := header.signed
      show (feedA f s).wbaRun (if isSigned a₁ then ⟨a₁.poff + a₁.n.toNat + 2, 13⟩ else ⟨0, 0⟩) = _
      cases signed : isSigned a₁
      · rw [signed, if_neg Bool.false_ne_true] at hsig
        rw [if_neg Bool.false_ne_true, List.drop_eq_nil_of_le (as := f) (by omega)]
        exact run (Nat.zero_le _)
      · rw [signed, if_pos rfl] at hsig
        rw [if_pos rfl, header.poff, hn, run (by omega), List.take_of_length_le]
        rw [List.length_drop]
        omega
  · obtain ⟨hresults, hstate⟩ := feedA_frame_overruns frame idle short
    exact ⟨_, execAll_expandFeedA _ s, hresults, hstate⟩

end Sys2Proof.Machine
end

section
/-! PROOF. The CRC-16 step and its bit-serial form (40_crc16.md R150, R158): shifting is linear over XOR, so
the two forms agree on every state once they agree on its high byte alone and on its low byte alone. -/

namespace Sys2Proof.Machine

theorem crcBit_xor (x y : Half) : crcBit (x ^^^ y) = crcBit x ^^^ crcBit y := by
  have poly (p q : Bool) : (if (p ^^ q) = true then 0x8408 else 0 : Half)
      = (if p = true then 0x8408 else 0) ^^^ (if q = true then 0x8408 else 0) := by
    cases p <;> cases q <;> rfl
  unfold crcBit
  rw [BitVec.ushiftRight_xor_distrib, BitVec.getLsbD_xor, poly]
  ac_rfl

theorem crcStepSerial_xor (b : Byte) (x y : Half) :
    crcStepSerial b (x ^^^ y) = crcStepSerial 0 x ^^^ crcStepSerial b y := by
  simp [crcStepSerial, BitVec.xor_assoc, crcBit_xor]

/-- A bit of the high byte is shifted down and never out. -/
theorem crcStepSerial_highByte :
    ∀ h : Byte, crcStepSerial 0 (h.setWidth 16 <<< 8) = h.setWidth 16 := by decide +kernel

/-- The byte enters by XOR with the low byte. -/
theorem crcStepSerial_lowByte (b l : Byte) :
    crcStepSerial b (l.setWidth 16) = crcStepSerial (b ^^^ l) 0 := by
  simp [crcStepSerial, BitVec.setWidth_xor, BitVec.xor_comm]

theorem crcStepSerial_zero : ∀ b : Byte, crcStepSerial b 0 = crcStep b 0 := by decide +kernel

theorem crcStep_eq_xor_highByte (b : Byte) (crc : Half) :
    crcStep b crc = (crc >>> 8) ^^^ crcStep (b ^^^ crc.setWidth 8) 0 := by
  simp [crcStep, BitVec.xor_assoc]

theorem setWidth_highByte (c : Half) : ((c >>> 8).setWidth 8).setWidth 16 = c >>> 8 := by
  bv_omega

/-- A word is its two bytes, put back in place. -/
theorem half_eq_xor_bytes (c : Half) :
    c = ((c >>> 8).setWidth 8).setWidth 16 <<< 8 ^^^ (c.setWidth 8).setWidth 16 := by
  rw [setWidth_highByte]
  ext i hi
  by_cases low : i < 8
  · simp [low, hi]
  · rw [Nat.not_lt] at low
    simp [hi, Nat.not_lt.2 low, Nat.add_sub_cancel' low]

theorem crcStep_eq_crcStepSerial (b : Byte) (crc : Half) : crcStep b crc = crcStepSerial b crc := by
  let high : Byte := (crc >>> 8).setWidth 8
  let low : Byte := crc.setWidth 8
  symm
  calc crcStepSerial b crc
      = crcStepSerial b (high.setWidth 16 <<< 8 ^^^ low.setWidth 16) := by
        rw [← half_eq_xor_bytes crc]
    _ = crcStepSerial 0 (high.setWidth 16 <<< 8) ^^^ crcStepSerial (b ^^^ low) 0 := by
        rw [crcStepSerial_xor, crcStepSerial_lowByte]
    _ = (crc >>> 8) ^^^ crcStep (b ^^^ low) 0 := by
        rw [crcStepSerial_highByte, setWidth_highByte, crcStepSerial_zero]
    _ = crcStep b crc := (crcStep_eq_xor_highByte b crc).symm

/-- Settles O7: the eight shifts are the bit-serial form. -/
theorem crcStepIsTheBitSerialForm : Obligations.CrcStepIsTheBitSerialForm :=
  crcStep_eq_crcStepSerial

/-- Settles O6: each command stores its value in `CRC` and returns it. -/
theorem crcCommandsWriteAndReturnCrc : Obligations.CrcCommandsWriteAndReturnCrc :=
  fun _ _ _ _ => ⟨rfl, rfl, rfl, rfl, rfl⟩

end Sys2Proof.Machine
end

section
/-! PROOF. CRC_EXTRA (40_crc16.md R156, R157): the field-by-field fold is one fold over the descriptor's
text, and CRC.EXTRA reads its value from CRCX. -/

namespace Sys2Proof.Machine

/-- What one field adds to the text CRC_EXTRA folds (`crcField_eq`): R156's words, then D4's length byte. -/
def crcFieldText (arrayLen : Bool) (f : BinField) : Bytes :=
  typeName f.ptype ++ [0x20] ++ f.fname ++ [0x20]
    ++ (if arrayLen = true ∧ 0 < f.count then [BitVec.ofNat 8 (f.count % 256)] else [])

theorem crcField_eq (arrayLen : Bool) (c : Half) (f : BinField) :
    crcField arrayLen c f = crcFold (crcFieldText arrayLen f) c := by
  have lengthByte : BitVec.ofNat 8 (f.count % 256) = BitVec.ofNat 8 f.count :=
    BitVec.eq_of_toNat_eq (by simp)
  unfold crcField crcFieldText
  rw [lengthByte, crcFold_append _ (ite _ _ _)]
  by_cases h : arrayLen = true ∧ 0 < f.count
  · rw [if_pos h, if_pos (by simpa using h)]
    rfl
  · rw [if_neg h, if_neg (by simpa using h)]
    rfl

theorem foldl_crcField (arrayLen : Bool) (fs : List BinField) (c : Half) :
    fs.foldl (crcField arrayLen) c = crcFold (fs.map (crcFieldText arrayLen)).flatten c := by
  induction fs generalizing c with
  | nil => rfl
  | cons f fs ih =>
    rw [List.foldl_cons, ih, crcField_eq, List.map_cons, List.flatten_cons, crcFold_append]

/-- Settles O9: the folds over the name and over each field are one fold over their concatenation. -/
theorem crcExtraFoldsNameAndFields : Obligations.CrcExtraFoldsNameAndFields := by
  intro arrayLen m lengthByte text
  have fold : m.fields.foldl (crcField arrayLen) (crcFold (m.name ++ [chr ' ']) crcInitValue)
      = crcFold text 0xFFFF := by
    rw [foldl_crcField, ← crcFold_append]
    rfl
  rw [crcExtra, fold]
  rw [BitVec.setWidth_ushiftRight_eq_extractLsb, BitVec.setWidth_eq_extractLsb' (by decide)]

/-- Settles O8: CRCX of an elaborated block holds the constant of each descriptor in range. -/
theorem crcExtraReturnsTheConstant : Obligations.CrcExtraReturnsTheConstant := by
  intro s d elaborated
  refine ⟨fun m hm => ?_, fun h => ?_⟩
  · have found : s.binMsg? d = some m := hm
    rw [← elaborated.crcxAt hm]
    simp [exec, execCrcExtra, found, State.returns]
  · have missing : s.binMsg? d = none := List.getElem?_eq_none h
    simp [exec, execCrcExtra, missing]

end Sys2Proof.Machine
end

section
/-! PROOF. The XOR checksum and the hex pair codec (41_xor_checksum.md R181 to R185): XSUM holds the running
XOR, and the digit functions agree with R127's tables. -/

namespace Sys2Proof.Machine

/-- HEX.DEC of two characters that make a byte returns it (R185). -/
theorem exec_hexDec_of_some {c0 c1 v : Byte} (h : hexByte c0 c1 = some v) (s : State) :
    exec (.hexDec c0 c1) s = .next (s.returns (.byte v)) := by
  simp [exec, execHexDec, h]

/-- HEX.DEC of two characters that make no byte reports the error and leaves every register (R185). -/
theorem exec_hexDec_of_none {c0 c1 : Byte} (h : hexByte c0 c1 = none) (s : State) :
    exec (.hexDec c0 c1) s = .next (s.returns (.error .invalidChecksumChar)) := by
  simp only [exec, execHexDec, h]
  rfl

/-- Settles O11: both nibbles of a byte are below 16, so HEX.ENC's digits are the table's entries; HEX.DEC
has a byte exactly when both characters stand in a table. -/
theorem hexPairCodec : Obligations.HexPairCodec := by
  intro s v c0 c1
  refine ⟨?encodes, fun h l h0 h1 => ?decodes, fun misspelt => ?rejects⟩
  case encodes =>
    have high : v.toNat / 16 < 16 := by omega
    have low : v.toNat % 16 < 16 := by omega
    exact ⟨_, _, hexDigit_eq _ high, hexDigit_eq _ low, rfl⟩
  case decodes => exact exec_hexDec_of_some (hexByte_of_spells h0 h1) s
  case rejects => exact exec_hexDec_of_none (hexByte_eq_none misspelt) s

/-- Settles O10: the first two store their value in `XSUM` and return it, the third only returns its fold. -/
theorem xorCommandsFold : Obligations.XorCommandsFold :=
  fun _ _ _ => ⟨rfl, rfl, rfl⟩

end Sys2Proof.Machine
end

section
/-! PROOF. BIN.ENC and BIN.DEC of a field (42_binary_field_codec.md R202 to R205): what each answers for a
tag and an operand, and that a field's value reads back from its image. -/

namespace Sys2Proof.Machine

theorem primOfTag_eq_none {tag : Nat} (h : 10 < tag) : primOfTag tag = none := by
  unfold primOfTag
  split
  case h_12 => rfl
  all_goals omega

section
variable {tag count : Nat} {p : PrimType} {x : BinVal}

theorem exec_binEnc_of_fits (hp : primOfTag tag = some p) (hx : valFits p count x = true) (s : State) :
    exec (.binEnc tag count x) s = .next (s.returns (.bytes (fieldImage p x))) := by
  simp only [exec, execBinEnc, hp, hx, if_true]

theorem exec_binEnc_of_misfits (hp : primOfTag tag = some p) (hx : valFits p count x = false)
    (s : State) : exec (.binEnc tag count x) s = .refused .badOperand := by
  simp [exec, execBinEnc, hp, hx]

theorem exec_binEnc_of_badTag (h : primOfTag tag = none) (s : State) :
    exec (.binEnc tag count x) s = .fault .badDescriptor := by
  simp only [exec, execBinEnc, h]

theorem exec_binDec_of_tag (hp : primOfTag tag = some p) (bs : Bytes) (s : State) :
    exec (.binDec tag count bs) s = .next (s.returns (.binVal (fieldValue p count bs))) := by
  simp only [exec, execBinDec, hp]

theorem exec_binDec_of_badTag (h : primOfTag tag = none) (bs : Bytes) (s : State) :
    exec (.binDec tag count bs) s = .fault .badDescriptor := by
  simp only [exec, execBinDec, h]

theorem valFits_scalar_iff {v : Int} :
    valFits p count (.scalar v) = true ↔ count = 0 ∧ primAdmits p v = true := by
  simp [valFits]

theorem valFits_array_iff {vs : List Int} : valFits p count (.array vs) = true
    ↔ count ≠ 0 ∧ vs.length = count ∧ vs.all (primAdmits p) = true := by
  simp [valFits, and_assoc]

/-- A field's value reads back from its image (R205): the image fills the value buffer, and each element
from its own bytes. -/
theorem fieldValue_fieldImage (hx : valFits p count x = true) :
    fieldValue p count (fieldImage p x) = x := by
  have buffer : zeroFill (fieldSizeOf p count) (fieldImage p x) = fieldImage p x := by
    rw [← fieldImage_length hx, zeroFill_self]
  unfold fieldValue
  simp only [buffer]
  cases x with
  | scalar v =>
    obtain ⟨scalar, admitted⟩ := valFits_scalar_iff.1 hx
    rw [if_pos scalar, fieldImage, value_image admitted]
  | array vs =>
    obtain ⟨array, rfl, admitted⟩ := valFits_array_iff.1 hx
    rw [if_neg array, fieldImage, elements_images admitted]

end

/-- Byte `i` of an image is the pattern's digit `i` to base 256 (R202). -/
theorem image_eq_map (p : PrimType) (v : Int) : image p v
    = (List.range (primSize p)).map (fun i => BitVec.ofNat 8 (valueBits p v / 256 ^ i)) := by
  unfold image leBytes
  refine List.map_congr_left fun i _ => ?_
  rw [Nat.shiftRight_eq_div_pow, pow_mul, show 2 ^ 8 = 256 from rfl]

/-- Settles O12: the image has the size of the value buffer, and the value reads back from it. -/
theorem binaryFieldRoundTrip : Obligations.BinaryFieldRoundTrip := by
  intro s tag count p x hp hx
  refine ⟨fieldImage p x, fieldImage_length hx, exec_binEnc_of_fits hp hx s, ?_⟩
  rw [exec_binDec_of_tag hp, fieldValue_fieldImage hx]
  rfl

/-- Settles O13: `image_eq_map` for every element, and BIN.ENC's two tests. -/
theorem binEncIsLittleEndian : Obligations.BinEncIsLittleEndian := by
  refine ⟨fun s tag count x bs htag => ?badTag, ?_⟩
  case badTag =>
    have noType := primOfTag_eq_none htag
    exact ⟨exec_binEnc_of_badTag noType s, exec_binDec_of_badTag noType bs s⟩
  intro s tag p hp bits img
  have himg : image p = img := funext (image_eq_map p)
  refine ⟨fun v fits => ?_, fun count vs fits => ?_, fun count x => (exec_binEnc_of_misfits hp · s)⟩
  · rw [exec_binEnc_of_fits hp fits, fieldImage, himg]
    rfl
  · rw [exec_binEnc_of_fits hp fits, fieldImage, himg]
    rfl

end Sys2Proof.Machine
end

section
/-! PROOF. The sizes the spec lists by tag are the model's (30_encoding.md R110, R200), and the payload image
is its entries' images in order (46_binary_serdes.md R350). -/

namespace Sys2Proof.Machine

theorem elemSize_eq_tagSize (f : BinField) : elemSize f = tagSize f.ptype := by
  unfold elemSize
  generalize f.ptype = tag
  by_cases h : tag ≤ 10
  · interval_cases tag <;> rfl
  · rw [primOfTag_eq_none (by omega), tagSize, List.getD_eq_default _ _ (by simp; omega)]

theorem fieldSize_eq_fieldBytes (f : BinField) : fieldSize f = fieldBytes f := by
  have size : fieldSize f = elemSize f * elemCount f.count := by
    cases hp : primOfTag f.ptype with
    | none => simp only [fieldSize, elemSize, hp, Nat.zero_mul]
    | some p => simp only [fieldSize, elemSize, hp, fieldSizeOf]
  have count : elemCount f.count = if 0 < f.count then f.count else 1 := by
    unfold elemCount
    split_ifs <;> omega
  rw [size, count, elemSize_eq_tagSize, fieldBytes]

theorem fieldsSize_eq_sum (fs : List BinField) : fieldsSize fs = (fs.map fieldBytes).sum := by
  induction fs with
  | nil => rfl
  | cons f fs ih => rw [fieldsSize, ih, fieldSize_eq_fieldBytes, List.map_cons, List.sum_cons]

theorem payloadImage_eq_flatten (fs : List BinField) (rec : List (Option BinVal)) :
    payloadImage fs rec = (List.zipWith entryImage fs rec).flatten := by
  induction fs generalizing rec with
  | nil => rfl
  | cons f fs ih =>
    cases rec with
    | nil => rfl
    | cons x xs => rw [payloadImage, ih, List.zipWith_cons_cons, List.flatten_cons]

/-- In a matching record each entry's image has its field's size. -/
theorem map_length_entryImages {fs : List BinField} {rec : List (Option BinVal)}
    (h : binRecordFits fs rec = true) :
    (List.zipWith entryImage fs rec).map List.length = fs.map fieldBytes := by
  induction fs generalizing rec with
  | nil => rfl
  | cons f fs ih =>
    cases rec with
    | nil => cases h
    | cons x xs =>
      obtain ⟨hx, hxs⟩ := Bool.and_eq_true_iff.1 h
      rw [List.zipWith_cons_cons, List.map_cons, List.map_cons, entryImage_length hx, ih hxs,
        fieldSize_eq_fieldBytes]

/-- A present entry that fits is a value of its field's type. -/
theorem exists_type_of_binEntryFits {f : BinField} {x : BinVal} (h : binEntryFits f (some x) = true) :
    ∃ p, primOfTag f.ptype = some p ∧ valFits p f.count x = true := by
  simp only [binEntryFits] at h
  cases hp : primOfTag f.ptype with
  | none => simp [hp] at h
  | some p => exact ⟨p, rfl, by simpa [hp] using h⟩

/-- Settles O41: the image is the concatenation of the entries' images, each of its field's size. -/
theorem payloadImageHasThePayloadSize : Obligations.PayloadImageHasThePayloadSize := by
  refine ⟨fun m rec fits => ⟨payloadImage_eq_flatten _ _, ?size, map_length_entryImages fits⟩,
    fun f => ?absent, fun s f x fits => ?present⟩
  case size => rw [payloadImage_length fits, fieldsSize_eq_sum]
  case absent => rw [entryImage, fieldSize_eq_fieldBytes]
  case present =>
    obtain ⟨p, hp, hx⟩ := exists_type_of_binEntryFits fits
    have himage : entryImage f (some x) = fieldImage p x := by simp only [entryImage, hp]
    rw [exec_binEnc_of_fits hp hx, himage]
    rfl

end Sys2Proof.Machine
end

section
/-! PROOF. Elaboration (70_reset_and_hazards.md R452): the descriptor checks are those the spec lists (R201,
R231), and what they let through is created anew. -/

namespace Sys2Proof.Machine

/-! ### Binary descriptors (R201) -/

theorem primOfTag_isSome_iff (tag : Nat) : (primOfTag tag).isSome = true ↔ tag ≤ 10 := by
  by_cases h : tag ≤ 10
  · interval_cases tag <;> decide
  · simp [h, primOfTag_eq_none (Nat.lt_of_not_le h)]

theorem sizesFall_iff_isChain : ∀ fs : List BinField, sizesFall fs = true
    ↔ (fs.map (fun f => tagSize f.ptype)).IsChain (fun x y => y ≤ x)
  | [] => by simp [sizesFall]
  | [_] => by simp [sizesFall]
  | f :: g :: fs => by
    have rest := sizesFall_iff_isChain (g :: fs)
    rw [List.map_cons] at rest
    simp only [sizesFall, Bool.and_eq_true, decide_eq_true_eq, elemSize_eq_tagSize, rest, List.map_cons,
      List.isChain_cons_cons]

/-- The block compares neighbours, and `≤` is transitive, so it compares every two (R201 (d)). -/
theorem sizesFall_iff_pairwise (fs : List BinField) : sizesFall fs = true
    ↔ (fs.map (fun f => tagSize f.ptype)).Pairwise (fun x y => y ≤ x) := by
  rw [sizesFall_iff_isChain, List.isChain_iff_pairwise]

theorem asciiName_iff (n : Bytes) : asciiName n = true ↔ NameOk n := by
  simp [asciiName, NameOk, isAscii]

theorem binMsgOk_iff (m : BinMsg) : binMsgOk m = true ↔ BinMsgOk m := by
  simp only [binMsgOk, BinMsgOk, Bool.and_eq_true, List.all_eq_true, primOfTag_isSome_iff, bne_iff_ne,
    decide_eq_true_eq, payloadSize, fieldsSize_eq_sum, sizesFall_iff_pairwise, asciiName_iff, and_assoc]

/-! ### Text descriptors (R231) -/

theorem not_isDelimiter_iff (c : Byte) :
    (!isDelimiter c) = true ↔ c ∉ ([0x2C, 0x2A, 0x0A, 0x24, 0x21] : Bytes) := by
  simp [isDelimiter, chr, and_assoc]

theorem txtMsgOk_iff (c : Config) (m : TxtMsg) :
    txtMsgOk c.precMax c.widthMax m = true ↔ TxtMsgOk c m := by
  simp only [txtMsgOk, TxtMsgOk, Bool.and_eq_true, beq_iff_eq, List.all_eq_true,
    not_isDelimiter_iff, decide_eq_true_eq, and_assoc]

theorem configOk_iff (c : Config) : configOk c = true
    ↔ (∀ m ∈ c.binMsgs, BinMsgOk m) ∧ ∀ m ∈ c.txtMsgs, TxtMsgOk c m := by
  simp only [configOk, Bool.and_eq_true, List.all_eq_true, binMsgOk_iff, txtMsgOk_iff]

/-! ### The two host actions (R450, R452) -/

theorem perform_elaborate_of_ok {c : Config} (ok : configOk c = true) (s : State) :
    perform (.elaborate c) s = .next (s.create c (crcxOf c)) := if_pos ok

theorem perform_elaborate_of_bad {c : Config} (bad : ¬ configOk c = true) (s : State) :
    perform (.elaborate c) s = .refused .badConfiguration := if_neg bad

/-- Settles O56: `configOk` is the spec's checks, and a block is created in a reset state. -/
theorem elaborationChecksAndResets : Obligations.ElaborationChecksAndResets := by
  intro s c
  refine ⟨fun bad => perform_elaborate_of_bad (fun ok => ?_) s, fun binOk txtOk => ?_,
    fun elaborated => ⟨_, rfl, rfl, elaborated, s.create_isReset _ _⟩⟩
  · obtain ⟨binOk, txtOk⟩ := (configOk_iff c).1 ok
    rcases bad with ⟨m, hm, bad⟩ | ⟨m, hm, bad⟩
    · exact bad (binOk m hm)
    · exact bad (txtOk m hm)
  · have ok := (configOk_iff c).2 ⟨binOk, txtOk⟩
    exact ⟨_, perform_elaborate_of_ok ok s, rfl, ⟨ok, rfl⟩, s.create_isReset _ _⟩

end Sys2Proof.Machine
end

section
/-! PROOF. TXT.FMT and TXT.PARSE of values that are no floats (43_text_field_codec.md R233, R234, R236 to R242,
R245): what the two commands answer, and that an integer's rendering is a token that spells the integer. -/

namespace Sys2Proof.Machine

/-! ### What the two commands answer (R233, R240) -/

section
variable {s : State} {fd : TxtField} {x : Option TxtVal} {k : TxtKind} {bs : Bytes}

/-- TXT.FMT of a descriptor within its limits returns the rendering. -/
theorem exec_txtFmt_of_ok (hprec : fd.prec ≤ s.cfg.precMax) (hwidth : fd.width ≤ s.cfg.widthMax)
    (h : fmtField fd x = .ok bs) : exec (.txtFmt fd x) s = .next (s.returns (.bytes bs)) := by
  simp [exec, execTxtFmt, txtFieldInRange, hprec, hwidth, h]

/-- TXT.FMT of a descriptor within its limits passes a refusal of the rendering up. -/
theorem exec_txtFmt_of_error {r : Refusal} (hprec : fd.prec ≤ s.cfg.precMax)
    (hwidth : fd.width ≤ s.cfg.widthMax) (h : fmtField fd x = .error r) :
    exec (.txtFmt fd x) s = .refused r := by
  simp [exec, execTxtFmt, txtFieldInRange, hprec, hwidth, h]

theorem fmtField_of_admits {v : TxtVal} (h : kindAdmits fd.kind v = true) :
    fmtField fd (some v) = fmtValue fd.prec fd.width v := if_pos h

/-- TXT.PARSE of a byte string returns the parsed value or the error result. -/
theorem exec_txtParse_of_ok {r : Result} (h : parseToken k bs = .ok r) :
    exec (.txtParse k (.run bs)) s = .next (s.returns r) := by
  simp only [exec, execTxtParse, State.tokenBytes, h]
  cases r <;> rfl

/-- TXT.PARSE of a byte string passes a refusal of the parser up. -/
theorem exec_txtParse_of_error {r : Refusal} (h : parseToken k bs = .error r) :
    exec (.txtParse k (.run bs)) s = .refused r := by
  simp only [exec, execTxtParse, State.tokenBytes, h]

end

/-! ### O16: values that are their own text -/

/-- Settles O16: no rounding, padding or grammar touches these values. -/
theorem absentCharAndStringText : Obligations.AbsentCharAndStringText := by
  intro s fd k c str hprec hwidth
  refine ⟨exec_txtFmt_of_ok hprec hwidth rfl, rfl, fun char => ?_, fun string => ?_, rfl, rfl⟩
  · have admitted : kindAdmits fd.kind (.chr c) = true := decide_eq_true char
    exact exec_txtFmt_of_ok hprec hwidth (fmtField_of_admits admitted)
  · have admitted : kindAdmits fd.kind (.str str) = true := decide_eq_true string
    exact exec_txtFmt_of_ok hprec hwidth (fmtField_of_admits admitted)

/-! ### O15: the rendering of an integer (R236) -/

theorem pad_eq (bs : Bytes) (w : Nat) : pad bs w = List.replicate (w - bs.length) 0x30 ++ bs := rfl

theorem signText_eq (p : Prop) [Decidable p] :
    signText (decide p) = if p then [0x2D] else [] := by
  simp only [signText, decide_eq_true_eq]
  rfl

theorem fmtInt_eq (v : Int) (w : Nat) : fmtInt v w
    = (if v < 0 then [0x2D] else []) ++ pad (numeral v.natAbs) w := by
  rw [fmtInt, signText_eq, dec_eq_numeral]

theorem exec_txtFmt_int {s : State} {fd : TxtField} {v : Int} (hprec : fd.prec ≤ s.cfg.precMax)
    (hwidth : fd.width ≤ s.cfg.widthMax) (admitted : kindAdmits fd.kind (.int v) = true) :
    exec (.txtFmt fd (some (.int v))) s = .next (s.returns (.bytes (fmtInt v fd.width))) :=
  exec_txtFmt_of_ok hprec hwidth (fmtField_of_admits admitted)

/-- Settles O15: the model's digits are core Lean's numeral. -/
theorem txtFmtRendersIntegers : Obligations.TxtFmtRendersIntegers := by
  intro s fd v hprec hwidth admitted
  rw [List.append_assoc, ← pad_eq, ← fmtInt_eq]
  exact exec_txtFmt_int hprec hwidth admitted

/-! ### O18: the integer of a token (R241) -/

theorem parseToken_int {k : TxtKind} {lo hi : Int} {bs : Bytes} (hk : kindRange k = some (lo, hi))
    (hbs : bs ≠ []) : parseToken k bs = .ok (parseIntToken k bs) := by
  cases bs with
  | nil => exact absurd rfl hbs
  | cons c rest =>
    cases k
    case float32 | float64 | char | string => cases hk
    all_goals rfl

/-- The integer parser gives the integer of a token of the grammar that is in the kind's range. -/
theorem parseIntToken_eq {k : TxtKind} {lo hi : Int} (hk : kindRange k = some (lo, hi)) (bs : Bytes) :
    parseIntToken k bs
      = if isIntToken (decide (lo < 0)) bs = true ∧ lo ≤ tokenInt bs ∧ tokenInt bs ≤ hi
        then .txtVal (some (.int (tokenInt bs))) else .error .parseError := by
  rw [parseIntToken, kindSigned_eq hk, parseInt_eq]
  by_cases token : isIntToken (decide (lo < 0)) bs = true
  · simp only [token, if_true, kindHolds_eq _ hk, decide_eq_true_eq, true_and]
  · simp only [token, Bool.false_eq_true, if_false, false_and]

/-- Settles O18: the parser's two tests are the grammar and the range. -/
theorem txtParseReadsIntegers : Obligations.TxtParseReadsIntegers := by
  intro s k lo hi bs hk hbs
  rw [← parseIntToken_eq hk]
  exact exec_txtParse_of_ok (parseToken_int hk hbs)

/-! ### O19: parsing a rendering (R245) -/

theorem digitsValue_zeros_append (n : Nat) (bs : Bytes) :
    digitsValue (List.replicate n 0x30 ++ bs) = digitsValue bs := by
  induction n with
  | zero => rfl
  | succ n ih => exact ih

/-- A padded numeral still is a non-empty string of digits that spells its number. -/
theorem pad_numeral_spec (n w : Nat) : (pad (numeral n) w).all isDigit = true
    ∧ digitsValue (pad (numeral n) w) = n ∧ pad (numeral n) w ≠ [] := by
  obtain ⟨digits, spells, nonempty⟩ := numeral_spec n
  have zero : isDigit 0x30 = true := rfl
  rw [pad_eq]
  refine ⟨?_, (digitsValue_zeros_append _ _).trans spells, by simp [nonempty]⟩
  rw [List.all_append, digits, List.all_replicate, zero]
  simp

/-- A string of digits does not begin with a sign. -/
theorem head?_ne_minus {bs : Bytes} (h : bs.all isDigit = true) : bs.head? ≠ some 0x2D := by
  intro minus
  have digit := List.all_eq_true.1 h _ (List.mem_of_mem_head? minus)
  cases digit

/-- The rendering of an integer is a token of every kind that admits its sign, and spells the integer. -/
theorem fmtInt_isIntToken {signed : Bool} {v : Int} (h : v < 0 → signed = true) (w : Nat) :
    isIntToken signed (fmtInt v w) = true ∧ tokenInt (fmtInt v w) = v := by
  obtain ⟨digits, spells, nonempty⟩ := pad_numeral_spec v.natAbs w
  rw [fmtInt_eq, isIntToken, tokenInt]
  by_cases negative : v < 0
  · simp only [if_pos negative, h negative, List.cons_append, List.nil_append, List.head?_cons, if_true,
      List.tail_cons, digits, spells, bne_iff_ne.2 nonempty, Bool.and_self, true_and]
    omega
  · simp only [if_neg negative, List.nil_append, if_neg (head?_ne_minus digits), digits, spells,
      bne_iff_ne.2 nonempty, Bool.and_self, true_and]
    omega

/-- Settles O19: the rendering spells the integer, which is in the kind's range. -/
theorem integerTextRoundTrip : Obligations.IntegerTextRoundTrip := by
  intro s fd v hprec hwidth admitted
  refine ⟨fmtInt v fd.width, exec_txtFmt_int hprec hwidth admitted, ?_⟩
  cases hk : kindRange fd.kind with
  | none => simp [kindAdmits, kindHolds, hk] at admitted
  | some range =>
    obtain ⟨lo, hi⟩ := range
    obtain ⟨least, greatest⟩ : lo ≤ v ∧ v ≤ hi := by
      simpa [kindAdmits, kindHolds_eq v hk] using admitted
    have signed : v < 0 → decide (lo < 0) = true := fun negative => decide_eq_true (by omega)
    obtain ⟨token, spells⟩ := fmtInt_isIntToken signed fd.width
    have nonempty : fmtInt v fd.width ≠ [] := by
      intro empty
      rw [empty] at token
      simp [isIntToken] at token
    apply exec_txtParse_of_ok
    rw [parseToken_int hk nonempty, parseIntToken_eq hk, token, spells]
    simp [least, greatest]

end Sys2Proof.Machine
end

section
/-! PROOF. TXT.FMT of floats (43_text_field_codec.md R232, R235): the magnitude is rounded over the rationals
and rendered in the fixed form. -/

namespace Sys2Proof.Machine

/-! ### Rounding to a natural (R232, R243) -/

/-- `n` is `x` rounded to a natural: no further than half a unit off, a tie having gone to the even one. -/
def RoundsTo (n : Nat) (x : ℚ) : Prop :=
  |(n : ℚ) - x| ≤ 1 / 2 ∧ (|(n : ℚ) - x| = 1 / 2 → n % 2 = 0)

theorem RoundsTo.self (n : Nat) : RoundsTo n n := by
  simp [RoundsTo]

/-- No natural is nearer; one as near makes it a tie. -/
theorem RoundsTo.nearest {n : Nat} {x : ℚ} (h : RoundsTo n x) (k : Nat) :
    |(n : ℚ) - x| ≤ |(k : ℚ) - x| ∧ (|(n : ℚ) - x| = |(k : ℚ) - x| → k ≠ n → n % 2 = 0) := by
  obtain ⟨near, tie⟩ := h
  by_cases same : k = n
  · rw [same]
    exact ⟨le_rfl, fun _ other => absurd rfl other⟩
  · have apart : (1 : ℚ) ≤ |(k : ℚ) - n| := by
      exact_mod_cast Int.one_le_abs (sub_ne_zero.2 (Int.ofNat_inj.not.2 same))
    have between := abs_sub_le (k : ℚ) x n
    rw [abs_sub_comm x n] at between
    exact ⟨by linarith, fun equal _ => tie (by linarith)⟩

/-- A tie below an even natural goes up to it. -/
theorem RoundsTo.lt_iff {n k : Nat} {x : ℚ} (h : RoundsTo n x) (even : k % 2 = 0) :
    n < k ↔ x < k - 1 / 2 := by
  obtain ⟨near, tie⟩ := h
  obtain ⟨lower, upper⟩ := abs_le.1 near
  constructor
  · intro hlt
    have hle : (n : ℚ) + 1 ≤ k := by exact_mod_cast hlt
    by_contra hx
    have half : |(n : ℚ) - x| = 1 / 2 := by
      rw [abs_sub_comm, abs_of_nonneg (by linarith)]
      linarith
    have next : (n : ℚ) + 1 = k := by linarith
    have next' : n + 1 = k := by exact_mod_cast next
    have := tie half
    omega
  · intro hx
    have hlt : (n : ℚ) < k := by linarith
    exact_mod_cast hlt

/-- The model's rounding of a fraction is the rounding over the rationals. -/
theorem roundHalfEven_roundsTo (num : Nat) {den : Nat} (h : 0 < den) :
    RoundsTo (roundHalfEven num den) (num / den) := by
  obtain ⟨above, below, tie⟩ := roundHalfEven_spec num h
  generalize roundHalfEven num den = n at above below tie
  have positive : (0 : ℚ) < den := by exact_mod_cast h
  obtain ⟨x, hx⟩ : ∃ x : ℚ, (num : ℚ) / den = x := ⟨_, rfl⟩
  have hnum : (num : ℚ) = x * den := by rw [← hx, div_mul_cancel₀ _ positive.ne']
  have above' : (2 * x) * den ≤ (2 * n + 1) * den := by
    rw [mul_assoc, ← hnum]
    exact_mod_cast above
  have below' : (2 * n) * (den : ℚ) ≤ (2 * x + 1) * den := by
    rw [add_mul, mul_assoc 2 x, ← hnum, one_mul]
    exact_mod_cast below
  have hle := le_of_mul_le_mul_right above' positive
  have hge := le_of_mul_le_mul_right below' positive
  rw [hx, RoundsTo, abs_le]
  refine ⟨⟨by linarith, by linarith⟩, fun half => tie ?_⟩
  rcases (abs_eq (by norm_num)).1 half with e | e
  · right
    have : (2 * n) * (den : ℚ) = 2 * num + den := by
      rw [hnum, show (n : ℚ) = x + 1 / 2 by linarith]
      ring
    exact_mod_cast this
  · left
    have : (2 * num : ℚ) = (2 * n + 1) * den := by
      rw [hnum, show x = n + 1 / 2 by linarith]
      ring
    exact_mod_cast this

/-! ### The scaled magnitude (R232 Fixed) -/

theorem two_zpow_of_nonneg {e : Int} (h : 0 ≤ e) : (2 : ℚ) ^ e = 2 ^ e.toNat := by
  rw [← zpow_natCast, Int.toNat_of_nonneg h]

theorem two_zpow_of_neg {e : Int} (h : e < 0) : (2 : ℚ) ^ e = (2 ^ (-e).toNat)⁻¹ := by
  rw [← two_zpow_of_nonneg (by omega), zpow_neg, inv_inv]

/-- The digits of the fixed form are the magnitude scaled by the power of ten, rounded. -/
theorem fixedScaled_roundsTo (f : FloatFormat) (bits prec : Nat) :
    RoundsTo (fixedScaled f bits prec) (floatMagnitude f bits * 10 ^ prec) := by
  rw [fixedScaled, floatMagnitude]
  by_cases h : 0 ≤ floatPow f bits
  · rw [if_pos h, two_zpow_of_nonneg h]
    exact_mod_cast RoundsTo.self _
  · rw [if_neg h, two_zpow_of_neg (not_le.1 h), mul_right_comm, ← div_eq_mul_inv]
    exact_mod_cast roundHalfEven_roundsTo _ (Nat.two_pow_pos _)

/-! ### The fixed form (R232 Fixed) -/

/-- The digits after the point: none without a precision, otherwise exactly as many as it says. -/
def fractionText (n prec : Nat) : Bytes :=
  if prec = 0 then [] else pad (numeral (n % 10 ^ prec)) prec

theorem fixedText_eq (n prec : Nat) : fixedText n prec
    = numeral (n / 10 ^ prec) ++ (if prec = 0 then [] else [0x2E]) ++ fractionText n prec := by
  rw [fixedText, fractionText, dec_eq_numeral, dec_eq_numeral, dec_eq_numeral]
  by_cases h : prec = 0
  · simp [h]
  · simp only [if_neg h]
    rfl

theorem numeral_length_le {n k : Nat} (hk : 0 < k) (h : n < 10 ^ k) : (numeral n).length ≤ k := by
  rw [numeral, chars, List.length_map]
  exact (Nat.length_toDigits_le_iff (by norm_num) hk).2 h

theorem fractionText_spec (n prec : Nat) : (fractionText n prec).length = prec
    ∧ (fractionText n prec).all isDigit = true
    ∧ digitsValue (fractionText n prec) = n % 10 ^ prec := by
  rw [fractionText]
  by_cases h : prec = 0
  · simp [h, digitsValue, Nat.mod_one]
  · obtain ⟨digits, spells, -⟩ := pad_numeral_spec (n % 10 ^ prec) prec
    have fits := numeral_length_le (Nat.pos_of_ne_zero h) (Nat.mod_lt n (Nat.pow_pos (by norm_num)))
    rw [if_neg h, pad_length, max_eq_left fits]
    exact ⟨rfl, digits, spells⟩

/-! ### O17: the rendering of a float (R235) -/

theorem floatSign_eq_testBit (f : FloatFormat) (bits : Nat) :
    floatSign f bits = bits.testBit (f.mbits + f.ebits) := by
  rw [floatSign, Nat.testBit_eq_decide_div_mod_eq, beq_eq_decide]

theorem fmtFloat_of_finite {f : FloatFormat} {bits : Nat} (h : floatExp f bits ≠ 2 ^ f.ebits - 1)
    (prec width : Nat) : fmtFloat f bits prec width
      = .ok ((if bits.testBit (f.mbits + f.ebits) then [0x2D] else [])
          ++ pad (fixedText (fixedScaled f bits prec) prec) width) := by
  rw [fmtFloat, floatFinite, if_pos (bne_iff_ne.2 h), floatSign_eq_testBit]
  rfl

theorem fmtFloat_of_not_finite {f : FloatFormat} {bits : Nat} (h : floatExp f bits = 2 ^ f.ebits - 1)
    (prec width : Nat) : fmtFloat f bits prec width = .error .nonFiniteFormat := by
  rw [fmtFloat, floatFinite, h, bne_self_eq_false, if_neg Bool.false_ne_true]

/-- Settles O17: the scaled magnitude is rounded, and its digits are split at the point. -/
theorem txtFmtRoundsFloats : Obligations.TxtFmtRoundsFloats := by
  intro s fd f bits x hprec hwidth admitted hx
  have rendering : fmtField fd (some x) = fmtFloat f bits fd.prec fd.width := by
    rw [fmtField_of_admits admitted]
    rcases hx with ⟨rfl, w, rfl, rfl⟩ | ⟨rfl, w, rfl, rfl⟩ <;> rfl
  refine ⟨fun finite => ?_, fun special => ?_⟩
  · obtain ⟨nearest, tie⟩ := fixedScaled_roundsTo f bits fd.prec
    obtain ⟨length, digits, spells⟩ := fractionText_spec (fixedScaled f bits fd.prec) fd.prec
    refine ⟨_, _, nearest, tie, length, digits, spells, ?_⟩
    rw [List.append_assoc, ← pad_eq, ← fixedText_eq]
    exact exec_txtFmt_of_ok hprec hwidth (rendering.trans (fmtFloat_of_finite finite _ _))
  · exact exec_txtFmt_of_error hprec hwidth (rendering.trans (fmtFloat_of_not_finite special _ _))

end Sys2Proof.Machine
end

section
/-! PROOF. The grammar of a float token (43_text_field_codec.md R243): the parser's cuts put together are the
token, and the parts the grammar names are where the parser cuts. -/

namespace Sys2Proof.Machine

/-! ### The sign -/

theorem takeMinus_spec (bs : Bytes) :
    bs = (if (takeMinus bs).1 then [0x2D] else []) ++ (takeMinus bs).2 := by
  cases bs with
  | nil => rfl
  | cons c rest =>
    rw [takeMinus]
    split
    case isTrue minus =>
      subst minus
      rfl
    case isFalse => rfl

theorem takeMinus_other {bs : Bytes} (h : bs.head? ≠ some 0x2D) : takeMinus bs = (false, bs) := by
  cases bs with
  | nil => rfl
  | cons c rest => exact if_neg fun minus => h (congrArg some minus)

/-- The parser reads a sign where the grammar puts one. -/
theorem takeMinus_append {body : Bytes} (h : body.head? ≠ some 0x2D) (neg : Bool) :
    takeMinus ((if neg then [0x2D] else []) ++ body) = (neg, body) := by
  cases neg
  · exact takeMinus_other h
  · rfl

/-! ### The mantissa -/

theorem spanDigits_digit {c : Byte} (h : isDigit c = true) (bs : Bytes) :
    spanDigits (c :: bs) = (c :: (spanDigits bs).1, (spanDigits bs).2) := by
  simp only [spanDigits, digitVal_eq, h, if_true]

theorem spanDigits_other {c : Byte} (h : isDigit c = false) (bs : Bytes) :
    spanDigits (c :: bs) = ([], c :: bs) := by
  simp only [spanDigits, digitVal_eq, h, Bool.false_eq_true, if_false]

theorem spanDigits_spec (bs : Bytes) :
    bs = (spanDigits bs).1 ++ (spanDigits bs).2 ∧ (spanDigits bs).1.all isDigit = true := by
  induction bs with
  | nil => exact ⟨rfl, rfl⟩
  | cons c bs ih =>
    obtain ⟨parts, digits⟩ := ih
    cases h : isDigit c
    · rw [spanDigits_other h]
      exact ⟨rfl, rfl⟩
    · rw [spanDigits_digit h, List.cons_append, ← parts, List.all_cons, h, digits]
      exact ⟨rfl, rfl⟩

/-- The parser's run of digits is the longest. -/
theorem spanDigits_append {ds rest : Bytes} (digits : ds.all isDigit = true)
    (h : ∀ c, rest.head? = some c → isDigit c = false) : spanDigits (ds ++ rest) = (ds, rest) := by
  induction ds with
  | nil =>
    cases rest with
    | nil => rfl
    | cons c rest => exact spanDigits_other (h c rfl) rest
  | cons d ds ih =>
    obtain ⟨digit, digits⟩ := Bool.and_eq_true_iff.1 (List.all_cons ▸ digits)
    rw [List.cons_append, spanDigits_digit digit, ih digits]

theorem takeFraction_spec (bs : Bytes) : ∃ point : Bool,
    bs = (if point then [0x2E] else []) ++ (takeFraction bs).1 ++ (takeFraction bs).2
      ∧ (takeFraction bs).1.all isDigit = true ∧ (point = false → (takeFraction bs).1 = []) := by
  cases bs with
  | nil => exact ⟨false, rfl, rfl, fun _ => rfl⟩
  | cons c rest =>
    rw [takeFraction]
    split
    case isTrue point =>
      obtain ⟨parts, digits⟩ := spanDigits_spec rest
      refine ⟨true, ?_, digits, nofun⟩
      rw [if_pos rfl, List.append_assoc, ← parts, point]
      rfl
    case isFalse => exact ⟨false, rfl, rfl, fun _ => rfl⟩

/-- The parser reads a fraction where the grammar puts one. -/
theorem takeFraction_append {point : Bool} {frac rest : Bytes} (digits : frac.all isDigit = true)
    (noPoint : point = false → frac = [])
    (h : ∀ c, rest.head? = some c → isDigit c = false ∧ c ≠ 0x2E) :
    takeFraction ((if point then [0x2E] else []) ++ frac ++ rest) = (frac, rest) := by
  cases point
  · rw [noPoint rfl]
    cases rest with
    | nil => rfl
    | cons c rest => exact if_neg (h c rfl).2
  · exact spanDigits_append digits fun c hc => (h c hc).1

/-! ### The exponent -/

/-- A number made of a run of digits. -/
theorem map_parseNat_iff {ds : Bytes} {g : Nat → Int} {pow : Int} : (parseNat ds).map g = some pow
    ↔ ds ≠ [] ∧ ds.all isDigit = true ∧ pow = g (digitsValue ds) := by
  rw [parseNat_eq]
  split
  case isTrue h => simp [h.1, h.2, eq_comm]
  case isFalse h => simpa using fun h1 h2 => absurd ⟨h1, by simpa using h2⟩ h

/-- An exponent mark of the grammar (R243). -/
def isExpMark (c : Byte) : Prop := c = 0x65 ∨ c = 0x45

section
variable {c : Byte} (mark : isExpMark c) (ds : Bytes)
include mark

theorem parseExp_plus : parseExp (c :: 0x2B :: ds) = (parseNat ds).map (fun n : Nat => (n : Int)) := by
  refine (if_pos mark).trans ?_
  cases parseNat ds <;> rfl

theorem parseExp_minus : parseExp (c :: 0x2D :: ds) = (parseNat ds).map (fun n : Nat => -(n : Int)) := by
  refine (if_pos mark).trans ?_
  cases parseNat ds <;> rfl

theorem parseExp_unsigned {d : Byte} (plus : d ≠ 0x2B) (minus : d ≠ 0x2D) :
    parseExp (c :: d :: ds) = (parseNat (d :: ds)).map (fun n : Nat => (n : Int)) := by
  refine (if_pos mark).trans ((if_neg plus).trans ((if_neg minus).trans ?_))
  cases parseNat (d :: ds) <;> rfl

theorem parseExp_mark : parseExp [c] = none := if_pos mark

end

theorem parseExp_other {c : Byte} (h : ¬ isExpMark c) (rest : Bytes) : parseExp (c :: rest) = none :=
  if_neg h

/-- The exponent parser reads exactly the exponents of the grammar. -/
theorem parseExp_iff {e : Bytes} {pow : Int} : parseExp e = some pow ↔ expValue e pow := by
  constructor
  · intro h
    rcases e with _ | ⟨c, _ | ⟨d, ds⟩⟩
    · exact .inl ⟨rfl, (Option.some.inj h).symm⟩
    · by_cases mark : isExpMark c
      · cases (parseExp_mark mark).symm.trans h
      · cases (parseExp_other mark _).symm.trans h
    · by_cases mark : isExpMark c
      swap
      · cases (parseExp_other mark _).symm.trans h
      right
      by_cases plus : d = 0x2B
      · subst plus
        rw [parseExp_plus mark, map_parseNat_iff] at h
        obtain ⟨nonempty, digits, rfl⟩ := h
        exact ⟨c, [0x2B], ds, mark, .inr (.inl rfl), nonempty, digits, rfl, rfl⟩
      by_cases minus : d = 0x2D
      · subst minus
        rw [parseExp_minus mark, map_parseNat_iff] at h
        obtain ⟨nonempty, digits, rfl⟩ := h
        exact ⟨c, [0x2D], ds, mark, .inr (.inr rfl), nonempty, digits, rfl, rfl⟩
      · rw [parseExp_unsigned mark _ plus minus, map_parseNat_iff] at h
        obtain ⟨nonempty, digits, rfl⟩ := h
        exact ⟨c, [], d :: ds, mark, .inl rfl, nonempty, digits, rfl, rfl⟩
  · rintro (⟨rfl, rfl⟩ | ⟨c, sign, ds, mark, hsign, nonempty, digits, rfl, rfl⟩)
    · rfl
    rcases hsign with rfl | rfl | rfl
    · cases ds with
      | nil => exact absurd rfl nonempty
      | cons d ds =>
        have digit : isDigit d = true := (Bool.and_eq_true_iff.1 (List.all_cons ▸ digits)).1
        have plus : d ≠ 0x2B := fun h => by cases h ▸ digit
        have minus : d ≠ 0x2D := fun h => by cases h ▸ digit
        exact (parseExp_unsigned mark ds plus minus).trans
          (map_parseNat_iff.2 ⟨nonempty, digits, rfl⟩)
    · exact (parseExp_plus mark ds).trans (map_parseNat_iff.2 ⟨nonempty, digits, rfl⟩)
    · exact (parseExp_minus mark ds).trans (map_parseNat_iff.2 ⟨nonempty, digits, rfl⟩)

theorem expMark_of_head {e : Bytes} {pow : Int} (h : expValue e pow) {c : Byte}
    (hc : e.head? = some c) : isExpMark c := by
  rcases h with ⟨rfl, -⟩ | ⟨m, sign, ds, mark, -, -, -, rfl, -⟩
  · cases hc
  · exact Option.some.inj hc ▸ mark

/-- An exponent mark is neither a digit nor a point, so that it ends a mantissa. -/
theorem expMark_ends_mantissa {c : Byte} (h : isExpMark c) : isDigit c = false ∧ c ≠ 0x2E := by
  rcases h with rfl | rfl <;> decide

/-! ### O22: the whole token -/

theorem digitsNat_eq {bs : Bytes} (h : bs.all isDigit = true) : digitsNat bs = digitsValue bs := by
  rw [digitsNat, natFrom_eq, if_pos h]
  rfl

/-- What the parser reads from the pieces it cuts. -/
theorem parseDecimal_of_pieces {bs body whole tail frac e : Bytes} {neg : Bool} {pow : Int}
    (hsign : takeMinus bs = (neg, body)) (hwhole : spanDigits body = (whole, tail))
    (hfrac : takeFraction tail = (frac, e)) (hdigits : whole ++ frac ≠ []) (hexp : parseExp e = some pow) :
    parseDecimal bs = some ⟨neg, digitsNat (whole ++ frac), pow - frac.length⟩ := by
  have hdigits' : ¬ (whole = [] ∧ frac = []) := by simpa using hdigits
  simp only [parseDecimal, hsign, hwhole, hfrac, if_neg hdigits', hexp]

/-- A token that parses has the digits and the exponent the parser asks for. -/
theorem parseDecimal_pieces {bs : Bytes} {d : Decimal} (h : parseDecimal bs = some d) :
    ∃ body whole tail frac e pow, takeMinus bs = (d.neg, body) ∧ spanDigits body = (whole, tail)
      ∧ takeFraction tail = (frac, e) ∧ whole ++ frac ≠ [] ∧ parseExp e = some pow
      ∧ d.digits = digitsNat (whole ++ frac) ∧ d.pow = pow - frac.length := by
  unfold parseDecimal at h
  simp only at h
  split at h
  · cases h
  rename_i hdigits
  split at h
  · rename_i pow hexp
    obtain rfl := Option.some.inj h
    exact ⟨_, _, _, _, _, pow, rfl, rfl, rfl,
      fun empty => hdigits (List.append_eq_nil_iff.1 empty), hexp, rfl, rfl⟩
  · cases h

/-- In a token of the grammar no digit follows the digits before the point, and the mantissa begins with no
sign. -/
theorem grammar_cuts {whole frac e : Bytes} {point : Bool} (wholeDigits : whole.all isDigit = true)
    (noPoint : point = false → frac = []) (hdigits : whole ++ frac ≠ [])
    (ends : ∀ c, e.head? = some c → isDigit c = false ∧ c ≠ 0x2E) :
    (∀ c, ((if point then [0x2E] else []) ++ frac ++ e).head? = some c → isDigit c = false)
      ∧ (whole ++ ((if point then [0x2E] else []) ++ frac ++ e)).head? ≠ some 0x2D := by
  constructor
  · intro c hc
    cases point
    · rw [noPoint rfl] at hc
      exact (ends c hc).1
    · cases hc
      rfl
  · cases whole with
    | cons c whole =>
      intro minus
      have digit : isDigit c = true := (Bool.and_eq_true_iff.1 (List.all_cons ▸ wholeDigits)).1
      cases Option.some.inj minus ▸ digit
    | nil =>
      cases point
      · exact absurd (noPoint rfl) hdigits
      · nofun

/-- Settles O22: the parser's pieces are the grammar's parts, and the parts are where the parser cuts. -/
theorem floatGrammar : Obligations.FloatGrammar := by
  intro bs d
  constructor
  · intro h
    obtain ⟨body, whole, tail, frac, e, pow, hsign, hwhole, hfrac, hdigits, hexp, hd, hpow⟩ :=
      parseDecimal_pieces h
    have hbs := takeMinus_spec bs
    obtain ⟨hbody, wholeDigits⟩ := spanDigits_spec body
    obtain ⟨point, htail, fracDigits, noPoint⟩ := takeFraction_spec tail
    rw [hsign] at hbs
    rw [hwhole] at hbody wholeDigits
    rw [hfrac] at htail fracDigits noPoint
    dsimp only at hbs hbody wholeDigits htail fracDigits noPoint
    refine ⟨whole, frac, point, e, pow, wholeDigits, fracDigits, noPoint, hdigits,
      parseExp_iff.1 hexp, ?_, ?_, hpow⟩
    · rw [hbs, hbody, htail]
      simp only [List.append_assoc]
    · rw [hd, digitsNat_eq (by rw [List.all_append, wholeDigits, fracDigits]; rfl)]
  · rintro ⟨whole, frac, point, e, pow, wholeDigits, fracDigits, noPoint, hdigits, hexp, rfl, hd, hpow⟩
    have ends : ∀ c, e.head? = some c → isDigit c = false ∧ c ≠ 0x2E :=
      fun c hc => expMark_ends_mantissa (expMark_of_head hexp hc)
    have hfrac := takeFraction_append fracDigits noPoint ends
    obtain ⟨tailEnds, bodyStarts⟩ := grammar_cuts wholeDigits noPoint hdigits ends
    have hwhole := spanDigits_append wholeDigits tailEnds
    have hsign := takeMinus_append bodyStarts d.neg
    have hparts : (if d.neg then [0x2D] else []) ++ whole ++ (if point then [0x2E] else []) ++ frac ++ e
        = (if d.neg then [0x2D] else []) ++ (whole ++ ((if point then [0x2E] else []) ++ frac ++ e)) := by
      simp only [List.append_assoc]
    rw [hparts, parseDecimal_of_pieces hsign hwhole hfrac hdigits (parseExp_iff.2 hexp),
      digitsNat_eq (by rw [List.all_append, wholeDigits, fracDigits]; rfl), ← hd, ← hpow]

end Sys2Proof.Machine
end

section
/-! PROOF. The rounding of a rational to a float format (43_text_field_codec.md R243): the unit of the last
place it is rounded in, when it leaves the normal range, and that no other finite value is nearer. -/

namespace Sys2Proof.Machine

/-- A format of R230. -/
def IsBinary (f : FloatFormat) : Prop := f = binary32 ∨ f = binary64

theorem IsBinary.two_pow_mbits_even {f : FloatFormat} (hf : IsBinary f) : 2 ^ f.mbits % 2 = 0 := by
  rcases hf with rfl | rfl <;> decide

theorem IsBinary.two_pow_ebits {f : FloatFormat} (hf : IsBinary f) :
    2 ^ f.ebits = 2 * floatBias f + 2 := by
  rcases hf with rfl | rfl <;> decide

theorem IsBinary.floatBias_bounds {f : FloatFormat} (hf : IsBinary f) :
    1 ≤ floatBias f ∧ floatBias f < 1024 := by
  rcases hf with rfl | rfl <;> decide

theorem IsBinary.infPattern_eq {f : FloatFormat} (hf : IsBinary f) :
    infPattern f = (2 * floatBias f + 1) * 2 ^ f.mbits := by
  rw [infPattern, hf.two_pow_ebits]
  rfl

/-! ### Units in the last place -/

/-- The unit in the last place of the patterns whose exponent field is `E`; the subnormal ones share that of
`E = 1`. -/
def ulp (f : FloatFormat) (E : Nat) : ℚ := 2 ^ ((E : Int) - floatBias f - f.mbits)

theorem ulp_pos (f : FloatFormat) (E : Nat) : 0 < ulp f E := zpow_pos (by norm_num) _

theorem ulp_add (f : FloatFormat) (E k : Nat) : ulp f (E + k) = 2 ^ k * ulp f E := by
  rw [ulp, ulp, ← zpow_natCast, ← zpow_add₀ (by norm_num)]
  push_cast
  ring_nf

theorem ulp_mono (f : FloatFormat) {E E' : Nat} (h : E ≤ E') : ulp f E ≤ ulp f E' :=
  zpow_le_zpow_right₀ (by norm_num) (by omega)

/-- A significand one bit too long for a unit is not too long for a greater one. -/
theorem two_pow_succ_mul_ulp_le (f : FloatFormat) {E E' : Nat} (h : E < E') :
    2 ^ (f.mbits + 1) * ulp f E ≤ 2 ^ f.mbits * ulp f E' := by
  calc 2 ^ (f.mbits + 1) * ulp f E = 2 ^ f.mbits * ulp f (E + 1) := by rw [ulp_add]; ring
    _ ≤ 2 ^ f.mbits * ulp f E' := by
      gcongr
      exact ulp_mono f h

theorem two_pow_mul_ulp (f : FloatFormat) (E : Nat) :
    2 ^ f.mbits * ulp f E = 2 ^ ((E : Int) - floatBias f) := by
  rw [ulp, ← zpow_natCast, ← zpow_add₀ (by norm_num)]
  ring_nf

theorem leastNormal_eq (f : FloatFormat) : leastNormal f = (2 ^ f.mbits - 1 / 2) * ulp f 1 := by
  have unit := two_pow_mul_ulp f 1
  rw [Nat.cast_one] at unit
  rw [leastNormal, ← unit, pow_succ]
  field_simp

theorem leastInfinite_eq (f : FloatFormat) :
    leastInfinite f = (2 ^ (f.mbits + 1) - 1 / 2) * ulp f (2 * floatBias f) := by
  have unit := two_pow_mul_ulp f (2 * floatBias f)
  rw [show ((2 * floatBias f : Nat) : Int) - floatBias f = floatBias f by omega, zpow_natCast] at unit
  rw [leastInfinite, ← unit, pow_succ]
  field_simp

/-! ### The magnitude of a pattern -/

/-- The exponent field that gives a pattern its unit. -/
def unitField (f : FloatFormat) (bits : Nat) : Nat := max 1 (floatExp f bits)

/-- The magnitude pattern of significand `m` under the unit of exponent field `E`. -/
def patternOf (f : FloatFormat) (E m : Nat) : Nat := (E - 1) * 2 ^ f.mbits + m

theorem floatMagnitude_eq (f : FloatFormat) (bits : Nat) :
    floatMagnitude f bits = floatMant f bits * ulp f (unitField f bits) := by
  rw [floatMagnitude, floatPow, ulp, unitField]
  by_cases h : floatExp f bits = 0
  · simp [h]
  · rw [if_neg h, max_eq_right (Nat.one_le_iff_ne_zero.2 h)]

theorem floatMant_lt (f : FloatFormat) (bits : Nat) : floatMant f bits < 2 ^ (f.mbits + 1) := by
  have frac : floatFrac f bits < 2 ^ f.mbits := Nat.mod_lt _ (Nat.two_pow_pos _)
  rw [floatMant, pow_succ]
  split <;> omega

/-- A finite pattern is made of its unit and its significand. -/
theorem patternOf_self {f : FloatFormat} {bits : Nat} (h : bits < infPattern f) :
    patternOf f (unitField f bits) (floatMant f bits) = bits := by
  have parts := Nat.div_add_mod' bits (2 ^ f.mbits)
  have field : floatExp f bits = bits / 2 ^ f.mbits := by
    apply Nat.mod_eq_of_lt
    exact ((Nat.div_lt_iff_lt_mul (Nat.two_pow_pos _)).2 h).trans_le (Nat.sub_le _ _)
  rw [patternOf, unitField, floatMant, floatFrac, field]
  generalize bits / 2 ^ f.mbits = q at parts
  cases q with
  | zero => simpa using parts
  | succ q =>
    rw [if_neg q.succ_ne_zero, max_eq_right (by omega), Nat.add_sub_cancel, ← add_assoc, ← Nat.succ_mul]
    exact parts

theorem floatMagnitude_normal {f : FloatFormat} {E r : Nat} (hE : 1 ≤ E) (hr : r < 2 ^ f.mbits)
    (finite : E * 2 ^ f.mbits + r < infPattern f) :
    floatMagnitude f (E * 2 ^ f.mbits + r) = (2 ^ f.mbits + r : Nat) * ulp f E := by
  have quotient : (E * 2 ^ f.mbits + r) / 2 ^ f.mbits = E := by
    rw [add_comm, Nat.add_mul_div_right _ _ (Nat.two_pow_pos _), Nat.div_eq_of_lt hr, Nat.zero_add]
  have field : floatExp f (E * 2 ^ f.mbits + r) = E := by
    have : E < 2 ^ f.ebits - 1 := by
      rw [← quotient]
      exact (Nat.div_lt_iff_lt_mul (Nat.two_pow_pos _)).2 finite
    rw [floatExp, quotient]
    exact Nat.mod_eq_of_lt (by omega)
  have frac : floatFrac f (E * 2 ^ f.mbits + r) = r := by
    rw [floatFrac, Nat.mul_add_mod_of_lt hr]
  rw [floatMagnitude_eq, unitField, floatMant, field, frac, if_neg (Nat.one_le_iff_ne_zero.1 hE),
    max_eq_right hE]

/-- A significand of full length, or the next power of two above, under a unit: the pattern has its
magnitude. -/
theorem floatMagnitude_patternOf {f : FloatFormat} {E m : Nat} (hE : 1 ≤ E) (least : 2 ^ f.mbits ≤ m)
    (greatest : m ≤ 2 ^ (f.mbits + 1)) (finite : patternOf f E m < infPattern f) :
    floatMagnitude f (patternOf f E m) = m * ulp f E := by
  rcases greatest.lt_or_eq with short | rfl
  · obtain ⟨r, rfl⟩ := Nat.exists_eq_add_of_le least
    have hr : r < 2 ^ f.mbits := by
      rw [pow_succ] at short
      omega
    have pattern : patternOf f E (2 ^ f.mbits + r) = E * 2 ^ f.mbits + r := by
      rw [patternOf, ← add_assoc, ← Nat.succ_mul, Nat.succ_eq_add_one, Nat.sub_add_cancel hE]
    rw [pattern] at finite ⊢
    rw [floatMagnitude_normal hE hr finite]
  · have pattern : patternOf f E (2 ^ (f.mbits + 1)) = (E + 1) * 2 ^ f.mbits + 0 := by
      obtain ⟨E, rfl⟩ := Nat.exists_eq_add_of_le' hE
      rw [patternOf, Nat.add_sub_cancel]
      ring
    rw [pattern] at finite ⊢
    rw [floatMagnitude_normal (Nat.succ_pos E) (Nat.two_pow_pos _) finite, Nat.succ_eq_add_one, ulp_add]
    push_cast
    ring

/-! ### The model's rounding of a fraction -/

theorem atLeastPow_iff (num : Nat) {den : Nat} (h : 0 < den) (e : Int) :
    atLeastPow num den e = true ↔ (2 : ℚ) ^ e ≤ num / den := by
  have positive : (0 : ℚ) < den := by exact_mod_cast h
  rw [atLeastPow]
  by_cases he : 0 ≤ e
  · rw [if_pos he, decide_eq_true_iff, two_zpow_of_nonneg he, le_div_iff₀' positive]
    exact_mod_cast Iff.rfl
  · rw [if_neg he, decide_eq_true_iff, two_zpow_of_neg (not_le.1 he), le_div_iff₀' positive,
      ← div_eq_mul_inv, div_le_iff₀ (by positivity)]
    exact_mod_cast Iff.rfl

/-- The model's binary exponent of a fraction is that of the rational. -/
theorem binaryExponent_spec {num den : Nat} (hnum : 0 < num) (hden : 0 < den) :
    (2 : ℚ) ^ binaryExponent num den ≤ num / den
      ∧ (num / den : ℚ) < 2 ^ (binaryExponent num den + 1) := by
  have positive : (0 : ℚ) < den := by exact_mod_cast hden
  have numLeast : (2 : ℚ) ^ (num.log2 : Int) ≤ num := by
    exact_mod_cast Nat.log2_self_le hnum.ne'
  have numGreatest : (num : ℚ) < 2 ^ ((num.log2 : Int) + 1) := by
    exact_mod_cast @Nat.lt_log2_self num
  have denLeast : (2 : ℚ) ^ (den.log2 : Int) ≤ den := by
    exact_mod_cast Nat.log2_self_le hden.ne'
  have denGreatest : (den : ℚ) < 2 ^ ((den.log2 : Int) + 1) := by
    exact_mod_cast @Nat.lt_log2_self den
  rw [binaryExponent]
  generalize (num.log2 : Int) = L at *
  generalize (den.log2 : Int) = D at *
  have least : (2 : ℚ) ^ (L - D - 1) ≤ num / den := by
    rw [le_div_iff₀ positive]
    calc (2 : ℚ) ^ (L - D - 1) * den ≤ 2 ^ (L - D - 1) * 2 ^ (D + 1) := by gcongr
      _ = 2 ^ L := by rw [← zpow_add₀ (by norm_num)]; ring_nf
      _ ≤ num := numLeast
  have greatest : (num / den : ℚ) < 2 ^ (L - D + 1) := by
    rw [div_lt_iff₀ positive]
    calc (num : ℚ) < 2 ^ (L + 1) := numGreatest
      _ = 2 ^ (L - D + 1) * 2 ^ D := by rw [← zpow_add₀ (by norm_num)]; ring_nf
      _ ≤ 2 ^ (L - D + 1) * den := by gcongr
  by_cases h : atLeastPow num den (L - D) = true
  · rw [if_pos h]
    exact ⟨(atLeastPow_iff num hden _).1 h, greatest⟩
  · rw [if_neg h, sub_add_cancel]
    exact ⟨least, not_le.1 fun le => h ((atLeastPow_iff num hden _).2 le)⟩

theorem scaledRound_roundsTo (num : Nat) {den : Nat} (h : 0 < den) (e : Int) :
    RoundsTo (scaledRound num den e) (num / den * 2 ^ e) := by
  rw [scaledRound]
  by_cases he : 0 ≤ e
  · rw [if_pos he, two_zpow_of_nonneg he, div_mul_eq_mul_div]
    exact_mod_cast roundHalfEven_roundsTo _ h
  · rw [if_neg he, two_zpow_of_neg (not_le.1 he), ← div_eq_mul_inv, div_div]
    exact_mod_cast roundHalfEven_roundsTo _ (Nat.mul_pos h (Nat.two_pow_pos _))

/-- `x` is rounded to `m` units of exponent field `E`, the unit being that of the patterns around `x`. -/
structure RoundsAt (f : FloatFormat) (x : ℚ) (E m : Nat) : Prop where
  field : 1 ≤ E
  rounds : RoundsTo m (x / ulp f E)
  below : 1 < E → 2 ^ f.mbits * ulp f E ≤ x
  above : x < 2 ^ (f.mbits + 1) * ulp f E

/-- What a significand under a unit is as a result of the rounding. -/
def roundedAt (f : FloatFormat) (E m : Nat) : Rounded :=
  if m < 2 ^ f.mbits then .underflow
  else if infPattern f ≤ patternOf f E m then .overflow else .finite (patternOf f E m)

/-- The model rounds a fraction in the unit of the patterns around it. -/
theorem roundRational_eq (f : FloatFormat) {num den : Nat} (hnum : 0 < num) (hden : 0 < den) :
    ∃ E m, RoundsAt f (num / den) E m ∧ roundRational f num den = roundedAt f E m := by
  obtain ⟨least, greatest⟩ := binaryExponent_spec hnum hden
  obtain ⟨E, hE, field⟩ : ∃ E : Nat, 1 ≤ E
      ∧ max (binaryExponent num den) (1 - (floatBias f : Int)) = (E : Int) - floatBias f :=
    ⟨(max (binaryExponent num den) (1 - (floatBias f : Int)) + floatBias f).toNat, by omega, by omega⟩
  have scale : (2 : ℚ) ^ ((f.mbits : Int) - (E - floatBias f)) = (ulp f E)⁻¹ := by
    rw [ulp, ← zpow_neg]
    ring_nf
  refine ⟨E, scaledRound num den (f.mbits - (E - floatBias f)), ⟨hE, ?_, fun normal => ?_, ?_⟩, ?_⟩
  · rw [div_eq_mul_inv, ← scale]
    exact scaledRound_roundsTo num hden _
  · rw [two_pow_mul_ulp, ← field, max_eq_left (by omega)]
    exact least
  · rw [pow_succ', mul_assoc, two_pow_mul_ulp, ← field, ← zpow_one_add₀ (by norm_num)]
    exact greatest.trans_le (zpow_le_zpow_right₀ (by norm_num) (by omega))
  · rw [roundRational, roundedAt]
    simp only [field, sub_add_cancel, Int.toNat_natCast]
    split
    · rfl
    rename_i normal
    have pattern (m : Nat) (hm : ¬ m < 2 ^ f.mbits) :
        E * 2 ^ f.mbits + (m - 2 ^ f.mbits) = patternOf f E m := by
      obtain ⟨E, rfl⟩ := Nat.exists_eq_add_of_le' hE
      rw [patternOf, Nat.add_sub_cancel, Nat.succ_mul]
      omega
    rw [pattern _ normal]
    rfl

/-! ### What a rational rounds to -/

section
variable {f : FloatFormat} {x : ℚ} {E m : Nat} (h : RoundsAt f x E m)
include h

theorem RoundsAt.significand_le : m ≤ 2 ^ (f.mbits + 1) := by
  obtain ⟨-, upper⟩ := abs_le.1 h.rounds.1
  have above := (div_lt_iff₀ (ulp_pos f E)).2 h.above
  have : (m : ℚ) < 2 ^ (f.mbits + 1) + 1 := by linarith
  exact Nat.le_of_lt_succ (by exact_mod_cast this)

/-- The value is at least as near as every multiple of its unit; one as near makes it a tie. -/
theorem RoundsAt.nearest_multiple (k : Nat) : |m * ulp f E - x| ≤ |k * ulp f E - x|
    ∧ (|m * ulp f E - x| = |k * ulp f E - x| → k ≠ m → m % 2 = 0) := by
  have unit := ulp_pos f E
  have scaled (n : Nat) : |n * ulp f E - x| = |n - x / ulp f E| * ulp f E := by
    rw [← abs_of_pos unit, ← abs_mul, abs_of_pos unit, sub_mul, div_mul_cancel₀ _ unit.ne']
  obtain ⟨near, tie⟩ := h.rounds.nearest k
  rw [scaled, scaled, mul_left_inj' unit.ne']
  exact ⟨mul_le_mul_of_nonneg_right near unit.le, tie⟩

/-- A finite pattern of a lower exponent field lies strictly further off. -/
theorem RoundsAt.nearer_than_lower {other : Nat} (lower : unitField f other < E) :
    |m * ulp f E - x| < |floatMagnitude f other - x| := by
  have normal : 1 < E := (le_max_left _ _).trans_lt lower
  have below := h.below normal
  have value : floatMagnitude f other < 2 ^ f.mbits * ulp f E := by
    have short : (floatMant f other : ℚ) < 2 ^ (f.mbits + 1) := by exact_mod_cast floatMant_lt f other
    calc floatMagnitude f other = floatMant f other * ulp f (unitField f other) := floatMagnitude_eq f other
      _ < 2 ^ (f.mbits + 1) * ulp f (unitField f other) := by
        gcongr
        exact ulp_pos f _
      _ ≤ 2 ^ f.mbits * ulp f E := two_pow_succ_mul_ulp_le f lower
  have near := (h.nearest_multiple (2 ^ f.mbits)).1
  push_cast at near
  rw [abs_of_nonpos (sub_nonpos.2 below)] at near
  rw [abs_of_neg (sub_neg.2 (value.trans_le below))]
  linarith

variable (hf : IsBinary f)
include hf

/-- A significand that stays short has the least unit, where half a unit below the least normal value is the
bound. -/
theorem RoundsAt.underflow_iff : m < 2 ^ f.mbits ↔ x < leastNormal f := by
  rw [h.rounds.lt_iff hf.two_pow_mbits_even, leastNormal_eq, div_lt_iff₀ (ulp_pos f E)]
  push_cast
  rcases h.field.eq_or_lt with rfl | normal
  · rfl
  · have below := h.below normal
    have unit := ulp_pos f E
    have small : (2 ^ f.mbits - 1 / 2) * ulp f 1 ≤ 2 ^ f.mbits * ulp f E :=
      mul_le_mul (by linarith) (ulp_mono f normal.le) (ulp_pos f 1).le (by positivity)
    exact ⟨fun lt => absurd lt (by linarith), fun lt => absurd lt (by linarith)⟩

/-- The greatest unit of the format decides: below it no rounding overflows, above it all do, and in it the
significand that rounds up to the next power of two does. -/
theorem RoundsAt.overflow_iff (least : 2 ^ f.mbits ≤ m) :
    infPattern f ≤ patternOf f E m ↔ leastInfinite f ≤ x := by
  have greatest := h.significand_le
  have unit := ulp_pos f (2 * floatBias f)
  have power : (1 : ℚ) ≤ 2 ^ f.mbits := one_le_pow₀ (by norm_num)
  obtain ⟨bias, -⟩ := hf.floatBias_bounds
  obtain ⟨e, rfl⟩ := Nat.exists_eq_add_of_le' h.field
  rw [pow_succ'] at greatest
  rw [leastInfinite_eq, hf.infPattern_eq, patternOf, Nat.add_sub_cancel, add_one_mul]
  rcases lt_trichotomy (e + 1) (2 * floatBias f) with smaller | top | greater
  · have patterns : (e + 2) * 2 ^ f.mbits ≤ 2 * floatBias f * 2 ^ f.mbits := Nat.mul_le_mul_right _ smaller
    have values := h.above.trans_le (two_pow_succ_mul_ulp_le f smaller)
    have power' := Nat.two_pow_pos f.mbits
    refine ⟨fun le => absurd le ?_, fun le => absurd le (not_le.2 (values.trans_le ?_))⟩
    · rw [add_mul] at patterns
      omega
    · gcongr
      rw [pow_succ']
      linarith
  · have carries : 2 * floatBias f * 2 ^ f.mbits + 2 ^ f.mbits ≤ e * 2 ^ f.mbits + m
        ↔ ¬ m < 2 ^ (f.mbits + 1) := by
      rw [← top, add_one_mul, pow_succ', not_lt]
      omega
    have even : 2 ^ (f.mbits + 1) % 2 = 0 := by rw [pow_succ, Nat.mul_mod_left]
    rw [carries, h.rounds.lt_iff even, div_lt_iff₀ (ulp_pos f _), top, not_lt]
    push_cast
    rfl
  · have patterns : 2 * floatBias f * 2 ^ f.mbits ≤ e * 2 ^ f.mbits :=
      Nat.mul_le_mul_right _ (Nat.le_of_lt_succ greater)
    have normal : 1 < e + 1 := (show 1 ≤ 2 * floatBias f by omega).trans_lt greater
    have values := (two_pow_succ_mul_ulp_le f greater).trans (h.below normal)
    exact ⟨fun _ => by linarith, fun _ => by omega⟩

/-- No other finite value is nearer, and one as near leaves the even pattern: it is a multiple of the unit, or
lies below all values of full length. -/
theorem RoundsAt.nearest (least : 2 ^ f.mbits ≤ m) (finite : patternOf f E m < infPattern f)
    {other : Nat} (hother : other < infPattern f) :
    |floatMagnitude f (patternOf f E m) - x| ≤ |floatMagnitude f other - x|
      ∧ (|floatMagnitude f (patternOf f E m) - x| = |floatMagnitude f other - x| →
          other ≠ patternOf f E m → patternOf f E m % 2 = 0) := by
  have parity : patternOf f E m % 2 = m % 2 := by
    rw [patternOf, Nat.add_mod, Nat.mul_mod, hf.two_pow_mbits_even]
    simp
  rw [floatMagnitude_patternOf h.field least h.significand_le finite, parity]
  rcases lt_or_ge (unitField f other) E with lower | higher
  · have further := h.nearer_than_lower lower
    exact ⟨further.le, fun equal => absurd equal further.ne⟩
  · obtain ⟨j, hj⟩ := Nat.exists_eq_add_of_le higher
    have multiple : floatMagnitude f other = (floatMant f other * 2 ^ j : Nat) * ulp f E := by
      rw [floatMagnitude_eq, hj, ulp_add]
      push_cast
      ring
    rw [multiple]
    obtain ⟨near, tie⟩ := h.nearest_multiple (floatMant f other * 2 ^ j)
    refine ⟨near, fun equal different => ?_⟩
    by_cases same : floatMant f other * 2 ^ j = m
    swap
    · exact tie equal same
    cases j with
    | zero =>
      refine absurd ?_ different
      rw [← patternOf_self hother, hj, ← same]
      simp
    | succ j => rw [← same, pow_succ, ← mul_assoc, Nat.mul_mod_left]

end

end Sys2Proof.Machine
end

section
/-! PROOF. TXT.PARSE of float tokens (43_text_field_codec.md R243): the decimal number of a token is rounded as
the rational it denotes. -/

namespace Sys2Proof.Machine

/-! ### Rounding a decimal (R243) -/

/-- No finite value of the format is nearer to `q` than that of `mag`; one as near leaves the even pattern. -/
def IsNearest (f : FloatFormat) (q : ℚ) (mag : Nat) : Prop :=
  ∀ other : Nat, other < infPattern f →
    |floatMagnitude f mag - q| ≤ |floatMagnitude f other - q|
      ∧ (|floatMagnitude f mag - q| = |floatMagnitude f other - q| → other ≠ mag → mag % 2 = 0)

/-- When a result is the rounding of `q`: the two bounds decide its kind, and a value is the nearest. -/
def IsRounding (f : FloatFormat) (q : ℚ) : Rounded → Prop
  | .underflow => q < leastNormal f
  | .overflow => leastInfinite f ≤ q
  | .finite mag => (leastNormal f ≤ q ∧ q < leastInfinite f) ∧ 2 ^ f.mbits ≤ mag ∧ mag < infPattern f
      ∧ IsNearest f q mag

theorem RoundsAt.isRounding {f : FloatFormat} {x : ℚ} {E m : Nat} (hf : IsBinary f)
    (h : RoundsAt f x E m) : IsRounding f x (roundedAt f E m) := by
  rw [roundedAt]
  by_cases small : m < 2 ^ f.mbits
  · rw [if_pos small]
    exact (h.underflow_iff hf).1 small
  have least := not_lt.1 small
  rw [if_neg small]
  by_cases large : infPattern f ≤ patternOf f E m
  · rw [if_pos large]
    exact (h.overflow_iff hf least).1 large
  have finite := not_le.1 large
  rw [if_neg large]
  exact ⟨⟨not_lt.1 (mt (h.underflow_iff hf).2 small), not_le.1 (mt (h.overflow_iff hf least).2 large)⟩,
    least.trans (Nat.le_add_left _ _), finite, fun _ => h.nearest hf least finite⟩

theorem roundRational_isRounding {f : FloatFormat} (hf : IsBinary f) {num den : Nat} (hnum : 0 < num)
    (hden : 0 < den) : IsRounding f (num / den) (roundRational f num den) := by
  obtain ⟨E, m, h, result⟩ := roundRational_eq f hnum hden
  rw [result]
  exact h.isRounding hf

/-- The powers the model does not compute lie beyond both formats. -/
theorem two_pow_le_ten_pow {k : Nat} (h : k ≤ 1024) : (2 : ℚ) ^ k ≤ 10 ^ 400 := by
  calc (2 : ℚ) ^ k ≤ 2 ^ (8 * 128) := pow_le_pow_right₀ (by norm_num) h
    _ = (2 ^ 8) ^ 128 := pow_mul _ _ _
    _ ≤ (10 ^ 3) ^ 128 := pow_le_pow_left₀ (by norm_num) (by norm_num) _
    _ = 10 ^ (3 * 128) := (pow_mul _ _ _).symm
    _ ≤ 10 ^ 400 := pow_le_pow_right₀ (by norm_num) (by norm_num)

theorem leastInfinite_le {f : FloatFormat} (hf : IsBinary f) : leastInfinite f ≤ 10 ^ 400 := by
  have bias := hf.floatBias_bounds.2
  have half : (0 : ℚ) ≤ 1 / 2 ^ (f.mbits + 1) := by positivity
  calc leastInfinite f ≤ 2 * 2 ^ floatBias f := mul_le_mul_of_nonneg_right (by linarith) (by positivity)
    _ = 2 ^ (floatBias f + 1) := (pow_succ' _ _).symm
    _ ≤ 10 ^ 400 := two_pow_le_ten_pow (by omega)

theorem le_leastNormal {f : FloatFormat} (hf : IsBinary f) : (10 : ℚ) ^ (-400 : Int) ≤ leastNormal f := by
  have bias := hf.floatBias_bounds.2
  have half : (1 : ℚ) / 2 ^ (f.mbits + 1) ≤ 1 / 2 := by
    rw [pow_succ']
    exact one_div_le_one_div_of_le (by norm_num) (le_mul_of_one_le_right (by norm_num)
      (one_le_pow₀ (by norm_num)))
  calc (10 : ℚ) ^ (-400 : Int) = (10 ^ 400)⁻¹ := by rw [zpow_neg, zpow_ofNat]
    _ ≤ (2 ^ floatBias f)⁻¹ := inv_anti₀ (by positivity) (two_pow_le_ten_pow bias.le)
    _ = 1 / 2 * 2 ^ (1 - (floatBias f : Int)) := by
      rw [zpow_sub₀ (by norm_num), zpow_natCast]
      field_simp
    _ ≤ leastNormal f := mul_le_mul_of_nonneg_right (by linarith) (by positivity)

theorem leastNormal_lt_leastInfinite {f : FloatFormat} (hf : IsBinary f) :
    leastNormal f < leastInfinite f := by
  have bias := hf.floatBias_bounds.1
  have power : (1 : ℚ) ≤ 2 ^ f.mbits := one_le_pow₀ (by norm_num)
  rw [leastNormal_eq, leastInfinite_eq, pow_succ']
  exact mul_lt_mul (by linarith) (ulp_mono f (by omega)) (ulp_pos f 1) (by linarith)

section
variable {f : FloatFormat} {q : ℚ} {r : Rounded}

theorem IsRounding.eq_underflow (hf : IsBinary f) (h : IsRounding f q r) (small : q < leastNormal f) :
    r = .underflow := by
  cases r with
  | underflow => rfl
  | overflow => exact absurd (small.trans (leastNormal_lt_leastInfinite hf)) (not_lt.2 h)
  | finite mag =>
    obtain ⟨⟨normal, -⟩, -⟩ := h
    exact absurd small (not_lt.2 normal)

theorem IsRounding.eq_overflow (hf : IsBinary f) (h : IsRounding f q r) (large : leastInfinite f ≤ q) :
    r = .overflow := by
  cases r with
  | underflow => exact absurd (lt_trans h (leastNormal_lt_leastInfinite hf)) (not_lt.2 large)
  | overflow => rfl
  | finite mag =>
    obtain ⟨⟨-, finite⟩, -⟩ := h
    exact absurd finite (not_lt.2 large)

theorem IsRounding.eq_finite (h : IsRounding f q r) (normal : leastNormal f ≤ q)
    (finite : q < leastInfinite f) :
    ∃ mag, r = .finite mag ∧ 2 ^ f.mbits ≤ mag ∧ mag < infPattern f ∧ IsNearest f q mag := by
  cases r with
  | underflow => exact absurd h (not_lt.2 normal)
  | overflow => exact absurd h (not_le.2 finite)
  | finite mag =>
    obtain ⟨-, value⟩ := h
    exact ⟨mag, rfl, value⟩

end

/-- Zero rounds to no normal value. -/
theorem digits_ne_zero {f : FloatFormat} (hf : IsBinary f) {digits : Nat} {pow : Int}
    (h : leastNormal f ≤ digits * 10 ^ pow) : digits ≠ 0 := by
  rintro rfl
  have positive : (0 : ℚ) < 10 ^ (-400 : Int) := by positivity
  rw [Nat.cast_zero, zero_mul] at h
  linarith [le_leastNormal hf]

theorem lt_ten_pow_length (n : Nat) : n < 10 ^ (dec n).length := by
  obtain ⟨-, -, nonempty⟩ := numeral_spec n
  have positive := List.length_pos_iff.2 nonempty
  rw [dec_eq_numeral]
  rw [numeral, chars, List.length_map] at *
  exact (Nat.length_toDigits_le_iff (by norm_num) positive).1 le_rfl

/-- A decimal other than zero is rounded as the rational it denotes. -/
theorem roundDecimal_isRounding {f : FloatFormat} (hf : IsBinary f) {digits : Nat} (pow : Int)
    (nonzero : digits ≠ 0) : IsRounding f (digits * 10 ^ pow) (roundDecimal f digits pow) := by
  have positive := Nat.pos_of_ne_zero nonzero
  have one_le : (1 : ℚ) ≤ digits := by exact_mod_cast positive
  rw [roundDecimal, if_neg nonzero]
  by_cases large : 400 < pow
  · rw [if_pos large]
    calc leastInfinite f ≤ 10 ^ 400 := leastInfinite_le hf
      _ = 1 * 10 ^ (400 : Int) := by rw [one_mul, zpow_ofNat]
      _ ≤ digits * 10 ^ pow :=
        mul_le_mul one_le (zpow_le_zpow_right₀ (by norm_num) large.le) (by positivity) (by positivity)
  rw [if_neg large]
  by_cases small : pow + (dec digits).length < -400
  · rw [if_pos small]
    have bound : (digits : ℚ) < 10 ^ (dec digits).length := by exact_mod_cast lt_ten_pow_length digits
    calc (digits : ℚ) * 10 ^ pow < 10 ^ (dec digits).length * 10 ^ pow := by gcongr
      _ = 10 ^ (pow + (dec digits).length) := by rw [zpow_add₀ (by norm_num), zpow_natCast, mul_comm]
      _ ≤ 10 ^ (-400 : Int) := zpow_le_zpow_right₀ (by norm_num) small.le
      _ ≤ leastNormal f := le_leastNormal hf
  rw [if_neg small]
  by_cases whole : 0 ≤ pow
  · obtain ⟨n, rfl⟩ := Int.eq_ofNat_of_zero_le whole
    have rounding := roundRational_isRounding hf
      (Nat.mul_pos positive (Nat.pow_pos (n := n) (by norm_num : 0 < 10))) one_pos
    have value : ((digits * 10 ^ n : Nat) : ℚ) / (1 : Nat) = digits * 10 ^ (n : Int) := by
      rw [zpow_natCast, Nat.cast_one, div_one, Nat.cast_mul, Nat.cast_pow, Nat.cast_ofNat]
    rw [if_pos whole, Int.toNat_natCast, ← value]
    exact rounding
  · obtain ⟨n, rfl⟩ : ∃ n : Nat, pow = -(n : Int) := ⟨(-pow).toNat, by omega⟩
    have rounding := roundRational_isRounding hf positive (Nat.pow_pos (n := n) (by norm_num : 0 < 10))
    have value : (digits : ℚ) / (10 ^ n : Nat) = digits * 10 ^ (-(n : Int)) := by
      rw [zpow_neg, zpow_natCast, ← div_eq_mul_inv, Nat.cast_pow, Nat.cast_ofNat]
    rw [if_neg whole, neg_neg, Int.toNat_natCast, ← value]
    exact rounding

/-! ### The result of a token (R243) -/

/-- A float kind, its format, and how its value is made of a pattern. -/
def IsFloatKind (f : FloatFormat) (k : TxtKind) (wrap : Nat → TxtVal) : Prop :=
  (f = binary32 ∧ k = .float32 ∧ wrap = fun n => .f32 (BitVec.ofNat 32 n)) ∨
    (f = binary64 ∧ k = .float64 ∧ wrap = fun n => .f64 (BitVec.ofNat 64 n))

section
variable {f : FloatFormat} {k : TxtKind} {wrap : Nat → TxtVal} {bs : Bytes}

theorem IsFloatKind.isBinary (h : IsFloatKind f k wrap) : IsBinary f :=
  h.imp And.left And.left

theorem IsFloatKind.parseToken (h : IsFloatKind f k wrap) (hbs : bs ≠ []) :
    parseToken k bs = parseFloatToken f wrap bs := by
  cases bs with
  | nil => exact absurd rfl hbs
  | cons c rest => rcases h with ⟨rfl, rfl, rfl⟩ | ⟨rfl, rfl, rfl⟩ <;> rfl

theorem ne_nil_of_parseDecimal {d : Decimal} (h : parseDecimal bs = some d) : bs ≠ [] := by
  rintro rfl
  cases h

theorem withSign_eq (f : FloatFormat) (neg : Bool) (bits : Nat) :
    withSign f neg bits = (if neg then 2 ^ (f.mbits + f.ebits) else 0) + bits := by
  cases neg
  · exact (Nat.zero_add bits).symm
  · rfl

section
variable {d : Decimal} (hd : parseDecimal bs = some d)
include hd

theorem parseFloatToken_finite {mag : Nat} (h : roundDecimal f d.digits d.pow = .finite mag) :
    parseFloatToken f wrap bs = .ok (.txtVal (some
      (wrap ((if d.neg then 2 ^ (f.mbits + f.ebits) else 0) + mag)))) := by
  simp only [parseFloatToken, hd, h, withSign_eq]

theorem parseFloatToken_overflow (h : roundDecimal f d.digits d.pow = .overflow) :
    parseFloatToken f wrap bs = .ok (.error .parseError) := by
  simp only [parseFloatToken, hd, h]

theorem parseFloatToken_underflow (h : roundDecimal f d.digits d.pow = .underflow) :
    parseFloatToken f wrap bs = .error .unmodelledParse := by
  simp only [parseFloatToken, hd, h]

end

theorem parseFloatToken_none (f : FloatFormat) (wrap : Nat → TxtVal) (hd : parseDecimal bs = none) :
    parseFloatToken f wrap bs
      = if isFloatWord bs then .error .unmodelledParse else .ok (.error .parseError) := by
  simp only [parseFloatToken, hd]

end

/-! ### O20 and O21 -/

/-- Settles O20: between the two bounds the rounding is a value, the nearest one. -/
theorem floatParseIsNearest : Obligations.FloatParseIsNearest := by
  intro f k wrap s bs d (kind : IsFloatKind f k wrap) hd q normal finite
  have nonzero : d.digits ≠ 0 := digits_ne_zero kind.isBinary normal
  have rounding : IsRounding f q _ := roundDecimal_isRounding kind.isBinary d.pow nonzero
  obtain ⟨mag, result, least, below, nearest⟩ := rounding.eq_finite normal finite
  refine ⟨mag, least, below, ?_, nearest⟩
  exact exec_txtParse_of_ok ((kind.parseToken (ne_nil_of_parseDecimal hd)).trans
    (parseFloatToken_finite hd result))

/-- Settles O21: outside the bounds the rounding is no value, and outside the grammar nothing is rounded. -/
theorem floatParseOutcomes : Obligations.FloatParseOutcomes := by
  intro f k wrap s bs (kind : IsFloatKind f k wrap) hbs failed
  have token := kind.parseToken hbs
  refine ⟨fun hd word => ?word, fun hd noWord => ?malformed, fun d hd => ?decimal⟩
  case word =>
    apply exec_txtParse_of_error
    rw [token, parseFloatToken_none _ _ hd, if_pos word]
  case malformed =>
    apply exec_txtParse_of_ok
    rw [token, parseFloatToken_none _ _ hd, noWord, if_neg Bool.false_ne_true]
  case decimal =>
    intro q zero
    have rounding (nonzero : d.digits ≠ 0) : IsRounding f q (roundDecimal f d.digits d.pow) :=
      roundDecimal_isRounding kind.isBinary d.pow nonzero
    refine ⟨fun isZero => ?_, fun nonzero small => ?_, fun large => ?_⟩
    · have result : roundDecimal f d.digits d.pow = .finite 0 := if_pos isZero
      exact exec_txtParse_of_ok (token.trans (parseFloatToken_finite hd result))
    · have result := (rounding nonzero).eq_underflow kind.isBinary small
      exact exec_txtParse_of_error (token.trans (parseFloatToken_underflow hd result))
    · have order := leastNormal_lt_leastInfinite kind.isBinary
      have nonzero : d.digits ≠ 0 := digits_ne_zero kind.isBinary (order.le.trans large)
      have result := (rounding nonzero).eq_overflow kind.isBinary large
      exact exec_txtParse_of_ok (token.trans (parseFloatToken_overflow hd result))

end Sys2Proof.Machine
end

section
/-! PROOF. Held tokens (43_text_field_codec.md R244, 47_text_serdes.md R386) and the sentence SERB writes
(47_text_serdes.md R380, R381, R383). -/

namespace Sys2Proof.Machine

/-! ### O23: held tokens -/

section
variable {s : State} {sl : Slice} {g : Nat} {o : BlockId}

theorem tokenLive_of_gen_ne (h : g ≠ s.b.gen) : s.tokenLive (.slice sl g o) = false := by
  simp [State.tokenLive, h]

/-- A token is live while the view it was bound from is (R386). -/
theorem tokenLive_of_view {v : TxtView} (returned : Result.viewB v ∈ s.results) (gen : v.gen = s.b.gen)
    (origin : v.origin = s.inst) (hsl : sl ∈ v.fields) :
    s.tokenLive (.slice sl s.b.gen s.inst) = true := by
  have held : holdsToken sl s.b.gen s.inst (.viewB v) = true := by
    simp [holdsToken, gen, origin, hsl]
  simp only [State.tokenLive, beq_self_eq_true, Bool.true_and, List.any_eq_true]
  exact ⟨_, returned, held⟩

/-- A live token inside the buffer reads as its bytes (R244). -/
theorem tokenBytes_of_live (live : s.tokenLive (.slice sl g o) = true)
    (inside : sl.off + sl.len ≤ s.cfg.bufCapB) :
    s.tokenBytes (.held (.slice sl g o)) = .ok (s.wbbRun sl) := by
  rw [State.tokenBytes, if_pos live, sliceInside, if_pos (decide_eq_true inside)]

end

/-- Settles O23: the test of a held token is the life of its view, and then only its bytes count. -/
theorem heldTokensParseWhileLive : Obligations.HeldTokensParseWhileLive := by
  intro s k sl g o
  refine ⟨rfl, fun dead => execTxtParse_staleView ?_, ?_⟩
  · exact dead.elim tokenLive_of_gen_ne tokenLive_of_origin_ne
  · rintro v returned gen origin rfl rfl hsl inside
    have bytes := tokenBytes_of_live (tokenLive_of_view returned gen origin hsl) inside
    simp only [exec, execTxtParse, bytes]
    rfl

/-! ### The texts of a record (R381) -/

theorem fmtField_of_nonFinite {f : TxtField} {x : Option TxtVal} (fits : txtEntryFits f x = true)
    (h : nonFinite x) : fmtField f x = .error .nonFiniteFormat := by
  rcases x with _ | v
  · cases h
  rw [fmtField_of_admits fits]
  cases v
  case f32 bits => exact fmtFloat_of_not_finite h _ _
  case f64 bits => exact fmtFloat_of_not_finite h _ _
  all_goals cases h

theorem fmtField_of_finite {f : TxtField} {x : Option TxtVal} (fits : txtEntryFits f x = true)
    (h : ¬ nonFinite x) : ∃ text, fmtField f x = .ok text := by
  rcases x with _ | v
  · exact ⟨_, rfl⟩
  rw [fmtField_of_admits fits]
  cases v
  case f32 bits => exact ⟨_, fmtFloat_of_finite h _ _⟩
  case f64 bits => exact ⟨_, fmtFloat_of_finite h _ _⟩
  all_goals exact ⟨_, rfl⟩

/-- A record with a NaN or an infinity is refused, wherever it stands (R381). -/
theorem fmtFields_of_nonFinite {fs : List TxtField} {rec : List (Option TxtVal)}
    (fits : txtRecordFits fs rec = true) (h : ∃ x ∈ rec, nonFinite x) :
    fmtFields fs rec = .error .nonFiniteFormat := by
  induction fs generalizing rec with
  | nil =>
    cases rec with
    | nil => simp at h
    | cons x xs => cases fits
  | cons f fs ih =>
    cases rec with
    | nil => cases fits
    | cons x xs =>
      obtain ⟨hx, hxs⟩ := Bool.and_eq_true_iff.1 fits
      by_cases special : nonFinite x
      · simp only [fmtFields, fmtField_of_nonFinite hx special]
      · obtain ⟨text, htext⟩ := fmtField_of_finite hx special
        have later : ∃ y ∈ xs, nonFinite y := by simpa [special] using h
        simp only [fmtFields, htext, ih hxs later]

/-- The texts of any other record are its entries' renderings, column by column (R381). -/
theorem fmtFields_of_finite {fs : List TxtField} {rec : List (Option TxtVal)}
    (fits : txtRecordFits fs rec = true) (h : ∀ x ∈ rec, ¬ nonFinite x) :
    ∃ texts, fmtFields fs rec = .ok texts ∧ texts.length = fs.length
      ∧ ∀ (k : Nat) (f : TxtField) (x : Option TxtVal), fs[k]? = some f → rec[k]? = some x →
        fmtField f x = .ok (texts.getD k []) := by
  induction fs generalizing rec with
  | nil =>
    cases rec with
    | nil => exact ⟨[], rfl, rfl, nofun⟩
    | cons x xs => cases fits
  | cons f fs ih =>
    cases rec with
    | nil => cases fits
    | cons x xs =>
      obtain ⟨hx, hxs⟩ := Bool.and_eq_true_iff.1 fits
      obtain ⟨hfinite, hrest⟩ := List.forall_mem_cons.1 h
      obtain ⟨text, htext⟩ := fmtField_of_finite hx hfinite
      obtain ⟨texts, hok, hlength, hcolumns⟩ := ih hxs hrest
      refine ⟨text :: texts, by simp only [fmtFields, htext, hok], congrArg (· + 1) hlength, ?_⟩
      intro k g y hg hy
      cases k with
      | zero =>
        obtain rfl := Option.some.inj hg
        obtain rfl := Option.some.inj hy
        exact htext
      | succ k => exact hcolumns k g y hg hy

/-! ### The sentence (R381) -/

theorem joinComma_eq : ∀ texts : List Bytes, joinComma texts = (texts.intersperse [0x2C]).flatten
  | [] => rfl
  | [t] => (List.append_nil t).symm
  | t :: u :: texts => by
    rw [joinComma, joinComma_eq (u :: texts), List.append_assoc]
    · rfl
    · nofun

theorem hexPair_eq (v : Byte) :
    hexPair v = [hexUpper.getD (v.toNat / 16) 0, hexUpper.getD (v.toNat % 16) 0] := by
  have high := hexDigit_eq (v.toNat / 16) (by omega)
  have low := hexDigit_eq (v.toNat % 16) (by omega)
  rw [List.getD, List.getD, high, low]
  rfl

theorem sentence_eq (body : Bytes) : sentence body
    = (let x := (body.foldl (fun x c => x ^^^ c) (0x00 : Byte)).toNat
       [0x24] ++ body ++ [0x2A] ++ [hexUpper.getD (x / 16) 0, hexUpper.getD (x % 16) 0]
         ++ [0x0D, 0x0A]) := by
  rw [sentence, hexPair_eq]
  rfl

/-! ### O45: SERB's stops and its completion -/

section
variable {s : State} {d : Nat} {m : TxtMsg} {talker : Bytes} {rec : List (Option TxtVal)} {base len : Nat}

theorem execSerb_badDescriptor {out : OutBuf} (h : s.cfg.txtMsgs.length ≤ d) :
    execSerb d talker rec out s = .fault .badDescriptor := by
  have missing : s.txtMsg? d = none := List.getElem?_eq_none h
  simp only [execSerb, missing]

theorem execSerb_badOperand {out : OutBuf} (hm : s.cfg.txtMsgs[d]? = some m)
    (h : talkerOk talker = false ∨ txtRecordFits m.fields rec = false) :
    execSerb d talker rec out s = .refused .badOperand := by
  have found : s.txtMsg? d = some m := hm
  rcases h with h | h <;> simp [execSerb, found, h]

/-- SERB of operands inside their types passes the refusal of a text up (R381). -/
theorem execSerb_refused {r : Refusal} (hm : s.cfg.txtMsgs[d]? = some m) (htalker : talkerOk talker = true)
    (fits : txtRecordFits m.fields rec = true) (h : fmtFields m.fields rec = .error r) :
    execSerb d talker rec (.own base len) s = .refused r := by
  have found : s.txtMsg? d = some m := hm
  simp [execSerb, found, htalker, fits, outOverlaps, h]

/-- SERB writes what fits of the sentence (R383). -/
theorem execSerb_completes {texts : List Bytes} (hm : s.cfg.txtMsgs[d]? = some m)
    (htalker : talkerOk talker = true) (fits : txtRecordFits m.fields rec = true)
    (h : fmtFields m.fields rec = .ok texts) : execSerb d talker rec (.own base len) s
      = (let full := sentence (sentenceBody talker m.sid texts)
         .next ((s.setOut (Memory.writeRun s.out base (full.take len))).returns
           (.count (min len full.length)))) := by
  have found : s.txtMsg? d = some m := hm
  have fitting (full : Bytes) : full.take (min len full.length) = full.take len := by
    rw [List.take_eq_take_iff, min_assoc, min_self]
  simp [execSerb, found, htalker, fits, outOverlaps, outLen, outBase, h, fitting]

/-- The fields of an elaborated descriptor are within their limits (R231). -/
theorem Elaborated.txtField_limits (h : Elaborated s) (hm : s.cfg.txtMsgs[d]? = some m) {f : TxtField}
    (hf : f ∈ m.fields) : f.prec ≤ s.cfg.precMax ∧ f.width ≤ s.cfg.widthMax := by
  obtain ⟨-, txtOk⟩ := (configOk_iff s.cfg).1 h.1
  obtain ⟨-, -, limits⟩ := txtOk m (List.mem_of_getElem? hm)
  exact limits f hf

end

/-- Settles O45: the record decides between the refusal and the texts, and the OUT bytes take what fits of the
sentence. -/
theorem serbWritesThePrefix : Obligations.SerbWritesThePrefix := by
  intro s d talker rec base len
  refine ⟨execSerb_badDescriptor, fun m => execSerb_badOperand, fun m hm htalker fits =>
    ⟨fun special => ?refused, fun elaborated finite => ?completes⟩⟩
  case refused => exact execSerb_refused hm htalker fits (fmtFields_of_nonFinite fits special)
  case completes =>
    obtain ⟨texts, hok, hlength, hcolumns⟩ := fmtFields_of_finite fits finite
    let written := (sentence (sentenceBody talker m.sid texts)).take len
    refine ⟨texts, Memory.writeRun s.out base written, ?_⟩
    intro body x full count
    have hfull : sentence (sentenceBody talker m.sid texts) = full := by
      rw [sentence_eq, sentenceBody, joinComma_eq]
      rfl
    have hwritten : written = full.take len := congrArg (List.take len) hfull
    have hcount : written.length = count := by rw [hwritten, List.length_take]
    refine ⟨⟨hlength, fun k f x hf hx => ?_⟩, ?_, ?_, fun i outside => ?_⟩
    · obtain ⟨hprec, hwidth⟩ := elaborated.txtField_limits hm (List.mem_of_getElem? hf)
      exact exec_txtFmt_of_ok hprec hwidth (hcolumns k f x hf hx)
    · have answer := execSerb_completes (s := s) (base := base) (len := len) hm htalker fits hok
      rw [hfull] at answer
      rw [hwritten]
      exact answer
    · rw [← hcount, ← hwritten]
      exact s.outRun_writeRun base written
    · rw [s.outByte_writeRun base written i, hcount, if_neg outside]

end Sys2Proof.Machine
end

section
/-! PROOF. One push of Framer-A in frame (44_binary_framer.md R271 to R279, R283): with room, the step's
registers as `readA` gives them and NONE or the view; without room, the overrun (R280, R420). -/

namespace Sys2Proof.Machine

/-! ### The outcome of a push in frame -/

section
variable {s : State} {b : Byte}

/-- A push that leaves the framer in frame returns NONE (R38). -/
theorem exec_fraPush_none {a : FramerA} (inFrame : s.a.state ≠ .seekSync)
    (room : s.a.wr < s.cfg.bufCapA) (read : readA s.a b = a) (goesOn : a.state ≠ .seekSync) :
    exec (.fraPush b) s = .next { s with
      a := a, wba := s.wba.write s.a.wr b, results := .noMessage :: s.results } := by
  have push := pushA_room b inFrame room
  rw [read, endA, resultA, if_neg goesOn] at push
  exact congrArg Host.Outcome.next push

/-- A push that ends the frame emits the view of the registers it leaves (R283). -/
theorem exec_fraPush_view {a : FramerA} (inFrame : s.a.state ≠ .seekSync)
    (room : s.a.wr < s.cfg.bufCapA) (read : readA s.a b = a) (ended : a.state = .seekSync) :
    exec (.fraPush b) s = .next { s with
      a := a, wba := s.wba.write s.a.wr b, results := .viewA (viewOf s.inst a) :: s.results } := by
  have push := pushA_room b inFrame room
  rw [read, endA, resultA, if_pos ended] at push
  exact congrArg Host.Outcome.next push

end

/-- Settles O30: the recovery of R420, after the generation step. -/
theorem fraPushOverrunsAFullBuffer : Obligations.FraPushOverrunsAFullBuffer := by
  intro b s inFrame full
  have push := pushA_full b inFrame full
  rw [State.raise_a] at push
  exact congrArg Host.Outcome.next push

/-! ### Length and flags (R274, R275) -/

section
variable {a : FramerA} (b : Byte)

theorem readA_length (hs : a.state = .readLength) : readA a b = { a with
    gen := a.gen + 1, wr := a.wr + 1, n := b, incompat := 0, compat := 0, idx := 0,
    state := if a.ver = .v2 then .readV2Flags else .readCoreHeader } := by
  cases hver : a.ver <;> simp [readA, hs, hver]

theorem readA_flags (hs : a.state = .readV2Flags) : readA a b = if a.idx = 0 then
      { a with gen := a.gen + 1, wr := a.wr + 1, incompat := b, idx := 1 }
    else
      { a with gen := a.gen + 1, wr := a.wr + 1, compat := b, idx := 0, state := .readCoreHeader } := by
  simp only [readA, hs]

end

/-- Settles O26: the steps of R274 and R275. -/
theorem fraPushReadsLengthAndFlags : Obligations.FraPushReadsLengthAndFlags := by
  intro b s room
  refine ⟨fun hs => ?length, fun hs => ?flags⟩
  case length =>
    exact exec_fraPush_none (hs.trans_ne nofun) room (readA_length b hs)
      (by dsimp only; split <;> nofun)
  case flags =>
    exact exec_fraPush_none (hs.trans_ne nofun) room (readA_flags b hs) (by split <;> simp [hs])

/-! ### The core header (R276) -/

theorem msgid_low (b : Byte) : b.setWidth 24 = (0x0000 : BitVec 16) ++ b :=
  BitVec.setWidth_eq_append (by decide)

theorem msgid_middle (m : MsgId) (b : Byte) :
    (m &&& 0xFF00FF#24) ||| (b.setWidth 24 <<< 8)
      = m.extractLsb' (8 * 2) 8 ++ b ++ m.extractLsb' (8 * 0) 8 := by
  apply BitVec.eq_of_getLsbD_eq
  intro i hi
  rw [BitVec.getLsbD_append, BitVec.getLsbD_append]
  interval_cases i <;> simp

theorem msgid_high (m : MsgId) (b : Byte) :
    (m &&& 0x00FFFF#24) ||| (b.setWidth 24 <<< 16)
      = b ++ m.extractLsb' (8 * 1) 8 ++ m.extractLsb' (8 * 0) 8 := by
  apply BitVec.eq_of_getLsbD_eq
  intro i hi
  rw [BitVec.getLsbD_append, BitVec.getLsbD_append]
  interval_cases i <;> simp

/-- The header byte goes to the register of its index, and the other registers are kept (R276). -/
theorem storeHeader_eq (a : FramerA) (b : Byte) : storeHeader a b = { a with
    seq := if a.idx = 0 then b else a.seq,
    sys := if a.idx = 1 then b else a.sys,
    comp := if a.idx = 2 then b else a.comp,
    msgid :=
      if a.idx = 3 then (0x0000 : BitVec 16) ++ b
      else if a.idx = 4 then a.msgid.extractLsb' (8 * 2) 8 ++ b ++ a.msgid.extractLsb' (8 * 0) 8
      else if a.idx = 5 then b ++ a.msgid.extractLsb' (8 * 1) 8 ++ a.msgid.extractLsb' (8 * 0) 8
      else a.msgid } := by
  unfold storeHeader
  split
  case h_1 h => simp [h]
  case h_2 h => simp [h]
  case h_3 h => simp [h]
  case h_4 h => simp [h, msgid_low]
  case h_5 h => simp [h, msgid_middle]
  case h_6 h => simp [h, msgid_high]
  case h_7 h0 h1 h2 h3 h4 h5 =>
    rw [if_neg h0, if_neg h1, if_neg h2, if_neg h3, if_neg h4, if_neg h5]

theorem headerCount_eq (v : Ver) : headerCount v = if v = .v1 then 4 else 6 := by
  cases v <;> rfl

/-- Settles O27: `storeHeader_eq`, and then the count of the header bytes. -/
theorem fraPushReadsTheCoreHeader : Obligations.FraPushReadsTheCoreHeader := by
  intro b s room hs last byte
  refine exec_fraPush_none (hs.trans_ne nofun) room ?read ?goesOn
  case goesOn => dsimp only; split_ifs <;> nofun
  case read =>
    simp only [readA, hs, storeHeader_eq, headerCount_eq]
    by_cases h : last
    · simp only [if_pos h]
      exact if_pos h
    · simp only [if_neg h]
      exact if_neg h

/-! ### The payload (R277) -/

/-- Settles O28: whatever its value, a byte before the last only moves the index on, and the last one moves
on to the checksum. -/
theorem fraPushReadsThePayload : Obligations.FraPushReadsThePayload := by
  intro b s room hs
  refine exec_fraPush_none (hs.trans_ne nofun) room ?read ?goesOn
  case goesOn => dsimp only; split <;> nofun
  case read =>
    simp only [readA, hs]
    split <;> rfl

/-! ### Checksum, signature and the view (R278, R279, R283) -/

theorem checksum_low (b : Byte) : b.setWidth 16 = (0x00 : Byte) ++ b :=
  BitVec.setWidth_eq_append (by decide)

theorem checksum_high (ck : Half) (b : Byte) :
    (ck &&& 0x00FF#16) ||| (b.setWidth 16 <<< 8) = b ++ ck.extractLsb' 0 8 := by
  apply BitVec.eq_of_getLsbD_eq
  intro i hi
  rw [BitVec.getLsbD_append]
  interval_cases i <;> simp

theorem isSigned_iff (a : FramerA) :
    isSigned a = true ↔ a.ver = .v2 ∧ a.incompat.getLsbD 0 = true := by
  rw [isSigned, Bool.and_eq_true, decide_eq_true_eq]

section
variable {a : FramerA} (b : Byte)

theorem readA_checksumLow (hs : a.state = .readChecksum) (hidx : a.idx = 0) :
    readA a b = { a with
      gen := a.gen + 1, wr := a.wr + 1, ck := (0x00 : Byte) ++ b, idx := 1 } := by
  simp only [readA, hs, if_pos hidx, checksum_low]

/-- The second checksum byte ends the frame unless a signature follows (R121). -/
theorem readA_checksumHigh (hs : a.state = .readChecksum) (hidx : a.idx ≠ 0) :
    readA a b = { a with
      gen := a.gen + 1, wr := a.wr + 1, ck := b ++ a.ck.extractLsb' 0 8, idx := 0,
      state := if isSigned a then .readSignature else .seekSync } := by
  cases signed : isSigned a <;> simpa [readA, hs, hidx, checksum_high, isSigned] using signed

theorem readA_signature (hs : a.state = .readSignature) (more : a.idx + 1 ≠ 13) :
    readA a b = { a with gen := a.gen + 1, wr := a.wr + 1, idx := a.idx + 1 } := by
  simp only [readA, hs, if_neg more]

theorem readA_signatureLast (hs : a.state = .readSignature) (last : a.idx + 1 = 13) :
    readA a b = { a with gen := a.gen + 1, wr := a.wr + 1, idx := 0, state := .seekSync } := by
  simp only [readA, hs, if_pos last]

end

/-- Settles O29: each push by the step's registers, and the last one by the view of them. -/
theorem fraPushEndsTheFrame : Obligations.FraPushEndsTheFrame := by
  intro b s room wba a0 ck signed view
  have hview : ∀ c : Half,
      .viewA (viewOf s.inst { a0 with ck := c, idx := 0, state := .seekSync }) = view c := fun c => by
    simp only [viewOf, isSigned_iff, view, signed, a0]
  refine ⟨fun hs hidx => ?low, fun hs hidx => ?high, fun hs more => ?signature, fun hs last => ?last⟩
  case low =>
    exact exec_fraPush_none (hs.trans_ne nofun) room (readA_checksumLow b hs hidx) (hs.trans_ne nofun)
  case high =>
    have read := readA_checksumHigh b hs hidx
    by_cases h : signed
    · rw [if_pos ((isSigned_iff s.a).2 h)] at read
      simp only [if_pos h]
      exact exec_fraPush_none (hs.trans_ne nofun) room read nofun
    · rw [if_neg (mt (isSigned_iff s.a).1 h)] at read
      simp only [if_neg h, ← hview]
      exact exec_fraPush_view (hs.trans_ne nofun) room read rfl
  case signature =>
    exact exec_fraPush_none (hs.trans_ne nofun) room (readA_signature b hs more) (hs.trans_ne nofun)
  case last =>
    rw [← hview s.a.ck]
    exact exec_fraPush_view (hs.trans_ne nofun) room (readA_signatureLast b hs last) rfl

end Sys2Proof.Machine
end

section
/-! PROOF. One push of Framer-B inside a sentence (45_text_framer.md R311, R314 to R322): a body character,
the delimiter that closes a field, the checksum characters, the terminator and the validation. -/

namespace Sys2Proof.Machine

/-! ### The body (R311, R314, R317) -/

section
variable {s : State}

theorem pushB_readFields (c : Byte) (h : s.b.state = .readFields) :
    pushB c s = stepFields c (bumpGenB s) := by
  rw [pushB, dispatchB, show (bumpGenB s).b.state = .readFields from h]

/-- A line feed aborts the sentence (R314). -/
theorem pushB_lineFeed (h : s.b.state = .readFields) :
    pushB 0x0A s = (bumpGenB s).raise (some .b) .protocolViolation := by
  rw [pushB_readFields _ h]
  exact if_pos rfl

/-- `s` with the generation advanced and the character folded (R317, R40). -/
def foldCharacterB (s : State) (c : Byte) : State :=
  s.setB { s.b with gen := s.b.gen + 1, xor := s.b.xor ^^^ c }

/-- Any character but the line feed, the star and the comma is folded and appended (R317). -/
theorem pushB_character {c : Byte} (h : s.b.state = .readFields) (notLineFeed : c ≠ 0x0A)
    (notStar : c ≠ 0x2A) (notComma : c ≠ 0x2C) :
    pushB c s = (foldCharacterB s c).appendB c (·.returns .noMessage) := by
  rw [pushB_readFields _ h, stepFields, if_neg (show c ≠ chr '\n' from notLineFeed),
    if_neg (show c ≠ chr '*' from notStar)]
  exact if_neg notComma

end

/-- Settles O34: the abort, and the append with room and without. -/
theorem frbPushReadsBodyCharacters : Obligations.FrbPushReadsBodyCharacters := by
  intro c s h
  refine ⟨fun lineFeed => congrArg Host.Outcome.next ?_,
    fun notLineFeed notStar notComma room => congrArg Host.Outcome.next ?_,
    fun notLineFeed notStar notComma full => congrArg Host.Outcome.next ?_⟩
  · rw [lineFeed, pushB_lineFeed h]
    rfl
  · rw [pushB_character h notLineFeed notStar notComma,
      State.appendB_room (s := foldCharacterB s c) c _ room]
    rfl
  · rw [pushB_character h notLineFeed notStar notComma,
      State.appendB_full (s := foldCharacterB s c) c _ full]
    rfl

/-! ### The close of a field (R315, R316, R318, R319) -/

section
variable {s : State}

@[simp] theorem State.setB_wbbRun (s : State) (b : FramerB) (sl : Slice) :
    (s.setB b).wbbRun sl = s.wbbRun sl := rfl

/-- CloseField reads neither the generation nor the XOR. -/
theorem closedB_setB (s : State) (gen : Nat) (xor : Byte) :
    closedB (s.setB { s.b with gen := gen, xor := xor }) = { closedB s with gen := gen, xor := xor } := by
  by_cases header : s.b.hdr = true
  · by_cases room : s.b.fcount < s.cfg.fieldCap <;> simp [closedB, header, room]
  · by_cases long : 5 ≤ s.b.wr - s.b.fstart <;> simp [closedB, header, long]

/-- A star closes the field, unfolded (R315). -/
theorem pushB_star (h : s.b.state = .readFields) : pushB 0x2A s =
    closeField (bumpGenB s) (fun t => noneB t { t.b with idx := 0, state := .readChecksumHex }) :=
  pushB_readFields _ h

/-- A comma closes the field, folded, before it is appended (R316). -/
theorem pushB_comma (h : s.b.state = .readFields) : pushB 0x2C s =
    closeField (foldCharacterB s 0x2C)
      (·.appendB 0x2C (fun t => noneB t { t.b with fstart := t.b.wr })) :=
  pushB_readFields _ h

/-- The close that ends the sentence (R319). -/
theorem closeField_stops (rest : State → State) (h : shortHeaderStops s = true) : closeField s rest =
    (s.setB { s.b with hdr := true }).raise (some .b) .protocolViolation := by
  rw [closeField_eq, if_pos h]

/-- The close the sentence goes on after (R318). -/
theorem closeField_goesOn (rest : State → State) (h : shortHeaderStops s = false) :
    closeField s rest = rest (s.setB (closedB s)) := by
  rw [closeField_eq, if_neg (Bool.not_eq_true _ ▸ h)]

/-- A comma after a close is appended, and the next field starts behind it (R316). -/
theorem pushB_comma_room (h : s.b.state = .readFields) (goesOn : shortHeaderStops s = false)
    (room : s.b.wr < s.cfg.bufCapB) : pushB 0x2C s = { s with
      b := { closedB s with gen := s.b.gen + 1, xor := s.b.xor ^^^ 0x2C, wr := s.b.wr + 1,
                            fstart := s.b.wr + 1 },
      wbb := s.wbb.write s.b.wr 0x2C, results := .noMessage :: s.results } := by
  obtain ⟨-, -, hwr, -⟩ := closedB_keeps s
  rw [pushB_comma h, closeField_goesOn (s := foldCharacterB s 0x2C) _ goesOn, foldCharacterB, closedB_setB]
  refine (State.appendB_room 0x2C _ (hwr.trans_lt room)).trans ?_
  simp only [State.setB_b, hwr]
  rfl

/-- A comma after a close overruns a full buffer (R311, R316). -/
theorem pushB_comma_full (h : s.b.state = .readFields) (goesOn : shortHeaderStops s = false)
    (full : s.cfg.bufCapB ≤ s.b.wr) : pushB 0x2C s = { s with
      b := { closedB s with gen := s.b.gen + 1, xor := s.b.xor ^^^ 0x2C, state := .seekStart },
      wbb := s.wbb.forget, results := .error .bufferOverrun :: s.results } := by
  obtain ⟨-, -, hwr, -⟩ := closedB_keeps s
  rw [pushB_comma h, closeField_goesOn (s := foldCharacterB s 0x2C) _ goesOn, foldCharacterB, closedB_setB]
  exact State.appendB_full 0x2C _ (full.trans_eq hwr.symm)

end

/-- Settles O35: the close that stops, and what follows the one that does not. -/
theorem frbPushClosesFields : Obligations.FrbPushClosesFields := by
  intro s h
  refine ⟨fun stops => ⟨congrArg Host.Outcome.next ?_, congrArg Host.Outcome.next ?_⟩,
    fun goesOn => ⟨congrArg Host.Outcome.next ?_,
      fun room => congrArg Host.Outcome.next (pushB_comma_room h goesOn room),
      fun full => congrArg Host.Outcome.next (pushB_comma_full h goesOn full)⟩⟩
  · rw [pushB_star h, closeField_stops (s := bumpGenB s) _ stops]
    rfl
  · rw [pushB_comma h, closeField_stops (s := foldCharacterB s 0x2C) _ stops]
    rfl
  · obtain ⟨-, hxor, -⟩ := closedB_keeps s
    have closed : closedB (bumpGenB s) = { closedB s with gen := s.b.gen + 1 } :=
      (closedB_setB s (s.b.gen + 1) s.b.xor).trans (by rw [← hxor])
    rw [pushB_star h, closeField_goesOn (s := bumpGenB s) _ goesOn, closed]
    rfl

/-! ### The checksum and the terminator (R320, R321) -/

section
variable {s : State}

theorem pushB_readChecksumHex (c : Byte) (h : s.b.state = .readChecksumHex) :
    pushB c s = stepHex c (bumpGenB s) := by
  rw [pushB, dispatchB, show (bumpGenB s).b.state = .readChecksumHex from h]

theorem pushB_readCRLF (c : Byte) (h : s.b.state = .readCRLF) :
    pushB c s = stepCRLF c (bumpGenB s) := by
  rw [pushB, dispatchB, show (bumpGenB s).b.state = .readCRLF from h]

/-- The carriage return is awaited first. -/
theorem stepCRLF_return (first : s.b.idx = 0) : stepCRLF 0x0D s = noneB s { s.b with idx := 1 } :=
  (if_pos first).trans (if_pos rfl)

theorem stepCRLF_noReturn {c : Byte} (first : s.b.idx = 0) (deviates : c ≠ 0x0D) :
    stepCRLF c s = s.raise (some .b) .protocolViolation :=
  (if_pos first).trans (if_neg deviates)

theorem stepCRLF_lineFeed (second : s.b.idx ≠ 0) : stepCRLF 0x0A s = validateB s :=
  (if_neg second).trans (if_pos rfl)

theorem stepCRLF_noLineFeed {c : Byte} (second : s.b.idx ≠ 0) (deviates : c ≠ 0x0A) :
    stepCRLF c s = s.raise (some .b) .protocolViolation :=
  (if_neg second).trans (if_neg deviates)

/-! ### The validation (R322) -/

theorem validateB_noDigit (h : hexByte s.b.hex.1 s.b.hex.2 = none) :
    validateB s = s.raise (some .b) .invalidChecksumChar := by
  simp only [validateB, h]

/-- The comparison with the running XOR, once the characters spell a byte. -/
theorem validateB_of_byte {v : Byte} (h : hexByte s.b.hex.1 s.b.hex.2 = some v) :
    validateB s = if v = s.b.xor then
        (s.setB { s.b with state := .seekStart }).returns (.viewB (textViewOf s.inst s.b))
      else s.raise (some .b) .checksumMismatch := by
  simp only [validateB, h]

/-- The byte two hex digits spell is `x` just when its value is. -/
theorem hexDigits_eq_iff {c0 c1 x : Byte} {h l : Nat} (h0 : spellsHex c0 h) (h1 : spellsHex c1 l) :
    BitVec.ofNat 8 (16 * h + l) = x ↔ 16 * h + l = x.toNat := by
  have high := spellsHex_lt h0
  have low := spellsHex_lt h1
  rw [← BitVec.toNat_inj, BitVec.toNat_ofNat, Nat.mod_eq_of_lt (by omega)]

end

/-- Settles O36, character by character. -/
theorem frbPushValidatesTheSentence : Obligations.FrbPushValidatesTheSentence := by
  intro c s b0 fails
  have hex : s.b.state = .readChecksumHex → exec (.frbPush c) s = .next (stepHex c (bumpGenB s)) :=
    fun h => congrArg _ (pushB_readChecksumHex c h)
  have crlf : s.b.state = .readCRLF → exec (.frbPush c) s = .next (stepCRLF c (bumpGenB s)) :=
    fun h => congrArg _ (pushB_readCRLF c h)
  refine ⟨fun hs first => (hex hs).trans (congrArg _ (if_pos first)),
    fun hs second => (hex hs).trans (congrArg _ (if_neg second)),
    fun hs first hc => (crlf hs).trans (congrArg _ ?carriageReturn),
    fun hs first deviates => (crlf hs).trans (congrArg _ (stepCRLF_noReturn first deviates)),
    fun hs second deviates => (crlf hs).trans (congrArg _ (stepCRLF_noLineFeed second deviates)),
    fun hs second hc => ?lineFeed⟩
  case carriageReturn =>
    subst hc
    exact stepCRLF_return first
  case lineFeed =>
    have validates : exec (.frbPush c) s = .next (validateB (bumpGenB s)) := by
      refine (crlf hs).trans (congrArg _ ?_)
      subst hc
      exact stepCRLF_lineFeed second
    rw [validates]
    refine ⟨fun noDigits => congrArg _ (validateB_noDigit (hexByte_eq_none noDigits)),
      fun h l h0 h1 => ?_⟩
    rw [validateB_of_byte (s := bumpGenB s) (hexByte_of_spells h0 h1)]
    have compare := hexDigits_eq_iff (x := s.b.xor) h0 h1
    exact ⟨fun mismatch => congrArg _ (if_neg (mt compare.1 mismatch)),
      fun same => congrArg _ (if_pos (compare.2 same))⟩

end Sys2Proof.Machine
end

section
/-! PROOF. A sentence body pushed into Framer-B (45_text_framer.md R312, R324, R325): the registers and WBB
after each part of it, up to its end or to the capacity. -/

namespace Sys2Proof.Machine

/-! ### A character of the body -/

section
variable {s : State} {c : Byte}

/-- With room, a body character is stored and folded; only a comma opens the next field. -/
theorem pushB_stores (h : s.b.state = .readFields) (plain : c ≠ 0x2A ∧ c ≠ 0x0A)
    (goesOn : c = 0x2C → shortHeaderStops s = false) (room : s.b.wr < s.cfg.bufCapB) :
    ∃ b, pushB c s = { s with
        b := b, wbb := s.wbb.write s.b.wr c, results := .noMessage :: s.results }
      ∧ b.state = .readFields ∧ b.wr = s.b.wr + 1 ∧ b.xor = s.b.xor ^^^ c
      ∧ (b.hdr = false → c ≠ 0x2C ∧ s.b.hdr = false ∧ b.fstart = s.b.fstart) := by
  by_cases comma : c = 0x2C
  · subst comma
    obtain ⟨hstate, -⟩ := closedB_keeps s
    exact ⟨_, pushB_comma_room h (goesOn rfl) room, hstate.trans h, rfl, rfl,
      fun noHeader => absurd (closedB_hdr s) (Bool.not_eq_true _ ▸ noHeader)⟩
  · exact ⟨_, (pushB_character h plain.2 plain.1 comma).trans
        (State.appendB_room (s := foldCharacterB s c) c _ room),
      h, rfl, rfl, fun noHeader => ⟨comma, noHeader, rfl⟩⟩

/-- Without room, a body character overruns. -/
theorem pushB_overruns (h : s.b.state = .readFields) (plain : c ≠ 0x2A ∧ c ≠ 0x0A)
    (goesOn : c = 0x2C → shortHeaderStops s = false) (full : s.cfg.bufCapB ≤ s.b.wr) :
    (pushB c s).results = .error .bufferOverrun :: s.results
      ∧ (pushB c s).b.state = .seekStart := by
  by_cases comma : c = 0x2C
  · subst comma
    rw [pushB_comma_full h (goesOn rfl) full]
    exact ⟨rfl, rfl⟩
  · rw [pushB_character h plain.2 plain.1 comma, State.appendB_full (s := foldCharacterB s c) c _ full]
    exact ⟨rfl, rfl⟩

end

/-! ### The body so far -/

/-- `t` is `s` after a start character and `pre`, the body so far: each push returned NONE, and as long as
no field is closed, `pre` is the first one. -/
structure AfterBody (s : State) (pre : Bytes) (t : State) : Prop where
  cfg : t.cfg = s.cfg
  results : t.results = List.replicate (pre.length + 1) .noMessage ++ s.results
  state : t.b.state = .readFields
  wr : t.b.wr = pre.length
  run : t.wbbRun ⟨0, pre.length⟩ = pre
  xor : t.b.xor = xorFold pre 0x00
  firstField : t.b.hdr = false → t.b.fstart = 0 ∧ 0x2C ∉ pre

/-- R319 does not stop a sentence with this body: the policy keeps a short first field, or the first field
is long enough. -/
def FirstFieldOk (cfg : Config) (body : Bytes) : Prop :=
  cfg.shortHeader = .emptyIds ∨ 5 ≤ (body.takeWhile (fun c => c != 0x2C)).length

section
variable {s t : State} {pre rest : Bytes} {c : Byte}

theorem AfterBody.start {start : Byte} (idle : s.b.state = .seekStart)
    (hstart : start = 0x24 ∨ start = 0x21) : AfterBody s [] (pushB start s) := by
  rw [pushB_seekStart _ idle, stepSeekStart_start _ hstart]
  exact ⟨rfl, rfl, rfl, rfl, rfl, rfl, fun _ => ⟨rfl, List.not_mem_nil⟩⟩

/-- A first field closed by a comma is the whole body so far. -/
theorem takeWhile_firstField (h : 0x2C ∉ pre) :
    (pre ++ 0x2C :: rest).takeWhile (fun c => c != 0x2C) = pre := by
  rw [List.takeWhile_append_of_pos fun a ha => bne_iff_ne.2 (ne_of_mem_of_not_mem ha h)]
  simp

/-- A comma of the body does not stop the sentence. -/
theorem AfterBody.goesOn (h : AfterBody s pre t) (ok : FirstFieldOk s.cfg (pre ++ c :: rest))
    (comma : c = 0x2C) : shortHeaderStops t = false := by
  subst comma
  rw [← Bool.not_eq_true]
  simp only [shortHeaderStops, Bool.and_eq_true, Bool.not_eq_true', decide_eq_true_eq]
  rintro ⟨⟨noHeader, short⟩, violation⟩
  obtain ⟨hfstart, firstField⟩ := h.firstField noHeader
  rw [h.wr, hfstart] at short
  rw [h.cfg] at violation
  rcases ok with emptyIds | long
  · exact absurd (violation.symm.trans emptyIds) nofun
  · rw [takeWhile_firstField firstField] at long
    omega

theorem AfterBody.push (h : AfterBody s pre t) (plain : c ≠ 0x2A ∧ c ≠ 0x0A)
    (ok : FirstFieldOk s.cfg (pre ++ c :: rest)) (room : pre.length < s.cfg.bufCapB) :
    AfterBody s (pre ++ [c]) (pushB c t) := by
  have hlen : (pre ++ [c]).length = pre.length + 1 := List.length_append
  obtain ⟨b, pushed, hstate, hwr, hxor, hfirst⟩ :=
    pushB_stores h.state plain (h.goesOn ok) (by rwa [h.wr, h.cfg])
  rw [pushed]
  refine ⟨h.cfg, ?results, hstate, ?wr, ?run, ?xor, fun noHeader => ?firstField⟩
  case results => rw [h.results, hlen]; rfl
  case wr => rw [hwr, h.wr, hlen]
  case run =>
    have stored := appendedB_run t c
    rw [h.wr, h.run, ← hlen] at stored
    exact stored
  case xor => rw [hxor, h.xor, xorFold_append]; rfl
  case firstField =>
    obtain ⟨notComma, before, hfstart⟩ := hfirst noHeader
    obtain ⟨hzero, noComma⟩ := h.firstField before
    refine ⟨hfstart.trans hzero, fun hmem => ?_⟩
    rcases List.mem_append.1 hmem with hmem | hmem
    · exact noComma hmem
    · exact notComma (List.mem_singleton.1 hmem).symm

end

/-! ### The whole body (R103, R324, R325) -/

theorem execAll_expandFeedB (cs : Bytes) (s : State) :
    execAll (expandFeedB cs) s = .next (feedB cs s) := by
  induction cs generalizing s with
  | nil => rfl
  | cons c cs ih => exact ih (pushB c s)

theorem feedB_append (cs : Bytes) (c : Byte) (s : State) :
    feedB (cs ++ [c]) s = pushB c (feedB cs s) := List.foldl_append

/-- The part of a body that fits the buffer is stored. -/
theorem AfterBody.of_feedB {s t : State} {pre rest : Bytes} (started : AfterBody s [] t)
    (plain : ∀ c ∈ pre, c ≠ 0x2A ∧ c ≠ 0x0A) (ok : FirstFieldOk s.cfg (pre ++ rest))
    (room : pre.length ≤ s.cfg.bufCapB) : AfterBody s pre (feedB pre t) := by
  induction pre using List.reverseRecOn generalizing rest with
  | nil => exact started
  | append_singleton pre c ih =>
    rw [List.append_assoc] at ok
    rw [List.length_append, List.length_singleton] at room
    have before := ih (fun c hc => plain c (List.mem_append_left _ hc)) ok (by omega)
    rw [feedB_append]
    exact before.push (plain c (by simp)) ok room

/-- A body that does not fit overruns at its first character without room. -/
theorem AfterBody.feedB_overruns {s t : State} {body : Bytes} {k : Nat} (started : AfterBody s [] t)
    (plain : ∀ c ∈ body, c ≠ 0x2A ∧ c ≠ 0x0A) (ok : FirstFieldOk s.cfg body)
    (hk : k = s.cfg.bufCapB) (short : k < body.length) :
    (feedB (body.take (k + 1)) t).results
        = .error .bufferOverrun :: (List.replicate (k + 1) .noMessage ++ s.results)
      ∧ (feedB (body.take (k + 1)) t).b.state = .seekStart := by
  have hlen : (body.take k).length = k := List.length_take_of_le short.le
  have cut : body = body.take k ++ body[k] :: body.drop (k + 1) := by
    rw [List.getElem_cons_drop, List.take_append_drop]
  have ok' : FirstFieldOk s.cfg (body.take k ++ body[k] :: body.drop (k + 1)) := by rwa [← cut]
  have stored := started.of_feedB (fun c hc => plain c (List.mem_of_mem_take hc)) ok'
    (hlen.trans hk).le
  have overrun := pushB_overruns stored.state (plain body[k] (List.getElem_mem short))
    (stored.goesOn ok') (by rw [stored.cfg, stored.wr, hlen, hk])
  rw [stored.results, hlen] at overrun
  rwa [List.take_succ_eq_append_getElem short, feedB_append]

/-- Settles O38: the body is stored up to its end, or up to the capacity, where its next character
overruns. -/
theorem aBodyIsStoredOrOverruns : Obligations.ABodyIsStoredOrOverruns := by
  intro start body s idle hstart plain ok
  have started : AfterBody s [] (pushB start s) := .start idle hstart
  refine ⟨fun fits => ⟨_, execAll_expandFeedB _ s, ?_⟩,
    fun short => ⟨_, execAll_expandFeedB _ s, started.feedB_overruns plain ok rfl short⟩⟩
  obtain ⟨-, hresults, hstate, hwr, hrun, hxor, -⟩ :=
    started.of_feedB plain (rest := []) (by rwa [List.append_nil]) fits
  exact ⟨hresults, hstate, hwr, hrun, hxor⟩

end Sys2Proof.Machine
end

section
/-! PROOF. The payload trim and DESERA (46_binary_serdes.md R352, R355 to R357): what the trim drops is zero
bytes, and a Lazy field is read byte by byte at its offset, a byte beyond the payload being zero. -/

namespace Sys2Proof.Machine

/-! ### O39: the trim -/

/-- Settles O39: the trimmed length is where the first byte from the end that is not zero stands, or 1. -/
theorem trimKeepsTheFirstByte : Obligations.TrimKeepsTheFirstByte := by
  intro p nonempty
  have hlen := trimPayload_length p
  have hpos := trimPayload_length_pos (List.length_pos_iff.2 nonempty)
  obtain ⟨dropped, -, -, stops⟩ := trimLen_spec p le_rfl
  refine ⟨p.length - trimLen p p.length, ?_, List.length_pos_iff.1 hpos, ?_⟩
  · rwa [List.take_length] at dropped
  · rcases stops with short | stops
    · left; omega
    · right
      have last : trimLen p p.length - 1 < trimLen p p.length := by omega
      rwa [List.getLast?_eq_getElem?, hlen, trimPayload, List.getElem?_take_of_lt last]

/-! ### O43: DESERA -/

/-- Field `k` of a Lazy record holds the payload's bytes from its offset on, zero-filled (R355, R356). -/
theorem lazyRecord_eq (fs : List BinField) (r : Bytes) :
    lazyRecord fs r = (List.range fs.length).map (fun k =>
      (List.range ((fs.map fieldSize).getD k 0)).map (fun j =>
        r.getD (((fs.map fieldSize).take k).sum + j) 0x00)) := by
  induction fs generalizing r with
  | nil => rfl
  | cons f fs ih =>
    rw [lazyRecord, zeroFill_eq_map, ih, List.length_cons, List.range_succ_eq_map, List.map_cons,
      List.map_map]
    congr 1
    · simp
    · refine List.map_congr_left fun k _ => List.map_congr_left fun j _ => ?_
      simp [Nat.add_assoc]

section
variable {s : State} {d : Nat} {m : BinMsg} {v : BinView} {r : Bytes}

/-- The payload of a live view inside the buffer reads as its bytes (R41, R74). -/
theorem viewPayload_of_live (live : s.viewALive v = true)
    (inside : v.payload.off + v.payload.len ≤ s.cfg.bufCapA) :
    s.viewPayload v = .ok (s.wbaRun v.payload) := by
  rw [State.viewPayload, if_pos live, sliceInside, if_pos (decide_eq_true inside)]

/-- A view that was returned is live while its generation and its origin are the present ones (R40). -/
theorem viewALive_of_returned (returned : Result.viewA v ∈ s.results) (gen : v.gen = s.a.gen)
    (origin : v.origin = s.inst) : s.viewALive v = true := by
  simp [State.viewALive, returned, gen, origin]

theorem execDesera_badDescriptor (h : s.cfg.binMsgs.length ≤ d) :
    exec (.desera d v) s = .fault .badDescriptor := by
  have missing : s.binMsg? d = none := List.getElem?_eq_none h
  simp only [exec, execDesera, missing]

/-- DESERA of a readable view completes: only the message id is compared (R355, R357). -/
theorem execDesera_completes (hm : s.cfg.binMsgs[d]? = some m) (payload : s.viewPayload v = .ok r) :
    exec (.desera d v) s = .next { s with results :=
      (if v.msgid = m.msgid then .lazyBin (lazyRecord m.fields r) else .error .parseError)
        :: s.results } := by
  have found : s.binMsg? d = some m := hm
  simp only [exec, execDesera, found, payload]
  split_ifs <;> rfl

end

/-- Settles O43: the descriptor is looked at before the view, and a live view's record is the one
`lazyRecord_eq` spells out. -/
theorem deseraCopiesTheFields : Obligations.DeseraCopiesTheFields := by
  intro s d v
  refine ⟨execDesera_badDescriptor, fun hd dead => execDesera_staleView hd ?_,
    fun m hm returned gen origin inside => ?_⟩
  · exact dead.elim viewALive_of_gen_ne viewALive_of_origin_ne
  · have payload := viewPayload_of_live (viewALive_of_returned returned gen origin) inside
    rw [execDesera_completes hm payload, lazyRecord_eq]

end Sys2Proof.Machine
end

section
/-! PROOF. A binary message there and back (46_binary_serdes.md R358, R359): the parts of the frame SERA
writes, the view Framer-A makes of it, the record DESERA makes of that view, and the caller's CRC check. -/

namespace Sys2Proof.Machine

/-! ### The record of a trimmed image (R206, R356) -/

/-- DESERA reads each entry's image back from the payload image. -/
theorem lazyRecord_payloadImage {fs : List BinField} {rec : List (Option BinVal)}
    (h : binRecordFits fs rec = true) :
    lazyRecord fs (payloadImage fs rec) = List.zipWith entryImage fs rec := by
  induction fs generalizing rec with
  | nil => rfl
  | cons f fs ih =>
    cases rec with
    | nil => cases h
    | cons x xs =>
      obtain ⟨hx, hxs⟩ := Bool.and_eq_true_iff.1 h
      have size := entryImage_length hx
      rw [lazyRecord, payloadImage, List.zipWith_cons_cons, ← size, List.drop_left, ih hxs]
      simp [zeroFill]

/-- Zero bytes at the end of a payload are what the zero fill supplies. -/
theorem lazyRecord_append_zeros (fs : List BinField) (p : Bytes) (k : Nat) :
    lazyRecord fs (p ++ List.replicate k 0x00) = lazyRecord fs p := by
  have fill (i : Nat) : (p ++ List.replicate k (0x00 : Byte)).getD i 0x00 = p.getD i 0x00 := by
    rcases lt_or_ge i p.length with inside | beyond
    · rw [List.getD_append _ _ _ _ inside]
    · rw [List.getD_append_right _ _ _ _ beyond, List.getD_eq_default _ _ beyond]
      exact List.getElem?_getD_replicate_default_eq ..
  simp only [lazyRecord_eq, fill]

theorem lazyRecord_trimPayload (fs : List BinField) (p : Bytes) :
    lazyRecord fs (trimPayload p) = lazyRecord fs p := by
  obtain ⟨dropped, -⟩ := trimLen_spec p le_rfl
  rw [List.take_length] at dropped
  conv_rhs => rw [dropped]
  exact (lazyRecord_append_zeros ..).symm

/-! ### The parts of the frame SERA writes (R120, R351, R353) -/

theorem half_of_crcBytes (c : Half) : ((c >>> 8).setWidth 8 ++ c.setWidth 8 : BitVec (8 + 8)) = c := by
  apply BitVec.eq_of_getLsbD_eq
  intro i hi
  rw [BitVec.getLsbD_append]
  interval_cases i <;> simp

theorem msgid_of_msgidBytes (m : MsgId) :
    (msgidByte m 2 ++ msgidByte m 1 ++ msgidByte m 0 : BitVec (8 + 8 + 8)) = m := by
  apply BitVec.eq_of_getLsbD_eq
  intro i hi
  rw [BitVec.getLsbD_append, BitVec.getLsbD_append]
  interval_cases i <;> simp [msgidByte]

/-- The CRC of the frame SERA writes (R353). -/
def seraCrc (m : BinMsg) (extra : Byte) (image : Bytes) (sys comp seq : Byte) : Half :=
  let p := trimPayload image
  frameCrc ((seraHeader p.length m.msgid sys comp seq).drop 1 ++ p) extra

section
variable {m : BinMsg} {extra : Byte} {image : Bytes} {sys comp seq : Byte}

/-- The header is ten bytes; the payload and the CRC follow it. -/
theorem seraFrame_drop_header : (seraFrame m extra image sys comp seq).drop 10
    = trimPayload image ++ crcBytes (seraCrc m extra image sys comp seq) := rfl

theorem seraFrame_covered : ((seraFrame m extra image sys comp seq).drop 1).take 9
    = (seraHeader (trimPayload image).length m.msgid sys comp seq).drop 1 := rfl

theorem frameVer_seraFrame : frameVer (seraFrame m extra image sys comp seq) = .v2 := rfl

/-- The two bytes after the payload spell the CRC. -/
theorem seraFrame_checksum :
    let f := seraFrame m extra image sys comp seq
    let c := 10 + (trimPayload image).length
    (f.getD (c + 1) 0 ++ f.getD c 0 : BitVec (8 + 8)) = seraCrc m extra image sys comp seq := by
  intro f c
  have tail (i : Nat) : f.getD (c + i) 0 = (crcBytes (seraCrc m extra image sys comp seq)).getD i 0 := by
    rw [List.getD, ← List.getElem?_drop, ← List.drop_drop, seraFrame_drop_header, List.drop_left,
      List.getD]
  rw [tail 1, ← Nat.add_zero c, tail 0]
  exact half_of_crcBytes _

variable (short : (trimPayload image).length ≤ 255)
include short

theorem seraFrame_lengthByte :
    ((seraFrame m extra image sys comp seq).getD 1 0).toNat = (trimPayload image).length :=
  (BitVec.toNat_ofNat ..).trans (Nat.mod_eq_of_lt (Nat.lt_succ_of_le short))

theorem isFrame_seraFrame : isFrame (seraFrame m extra image sys comp seq) = true := by
  have layout : frameLength (seraFrame m extra image sys comp seq)
      = some (10 + ((seraFrame m extra image sys comp seq).getD 1 0).toNat + 2 + 0) := rfl
  rw [isFrame, layout, seraFrame_lengthByte short, seraFrame_length]
  simp
  omega

theorem framePayload_seraFrame :
    framePayload (seraFrame m extra image sys comp seq) = trimPayload image := by
  rw [framePayload, seraFrame_lengthByte short, frameVer_seraFrame]
  exact (congrArg _ seraFrame_drop_header).trans List.take_left

/-! ### The view Framer-A makes of it -/

/-- The frame SERA writes, pushed into an idle Framer-A with room for it, ends in a readable view of the
trimmed payload under the frame's ids, whose checksum is the CRC of the bytes CRC.CHECKA covers. -/
theorem feedA_seraFrame {s : State} (idle : s.a.state = .seekSync)
    (fits : (seraFrame m extra image sys comp seq).length ≤ s.cfg.bufCapA) :
    let f := seraFrame m extra image sys comp seq
    let u := feedA f s
    ∃ v, u.cfg = s.cfg ∧ u.crcx = s.crcx
      ∧ u.results = .viewA v :: (List.replicate (f.length - 1) .noMessage ++ s.results)
      ∧ u.viewPayload v = .ok (trimPayload image)
      ∧ v.msgid = m.msgid ∧ v.sys = sys ∧ v.comp = comp ∧ v.seq = seq
      ∧ v.checksum = frameCrc (coveredBytes v u) extra := by
  intro f u
  have frame : isFrame f = true := isFrame_seraFrame short
  have hver : frameVer f = .v2 := frameVer_seraFrame
  have hlen : (f.getD 1 0).toNat = (trimPayload image).length := seraFrame_lengthByte short
  obtain ⟨a, k, -, -, fed⟩ := feedA_frame frame idle fits
  obtain ⟨t, v, executed, results, live, -, -, -, ver, slice, payload, checksum, ids, -⟩ :=
    (aFrameGivesItsViewOrOverruns f s frame idle).1 fits
  obtain rfl : u = t := Host.Outcome.next.inj ((execAll_expandFeedA f s).symm.trans executed)
  have header : u.wbaRun ⟨1, 9⟩ = (f.drop 1).take 9 :=
    wbaRun_of_writeRun (congrArg State.wba fed) (by simp only [f, seraFrame_length]; omega)
  obtain ⟨-, -, hseq, hsys, hcomp, hmsgid⟩ := ids hver
  rw [framePayload_seraFrame short] at payload
  have hcfg : u.cfg = s.cfg := (congrArg State.cfg fed).trans rfl
  refine ⟨v, hcfg, (congrArg State.crcx fed).trans rfl, results, ?_,
    hmsgid.trans (msgid_of_msgidBytes _), hsys, hcomp, hseq, ?_⟩
  · rw [← payload]
    refine viewPayload_of_live live ?_
    rw [slice, hver, hlen, hcfg]
    rw [seraFrame_length] at fits
    simp only [headerLength]
    omega
  · rw [hver, hlen] at checksum
    rw [coveredBytes, ver, hver, payload]
    exact checksum.trans (seraFrame_checksum.trans
      (congrArg (fun h => frameCrc (h ++ trimPayload image) extra) header.symm))

end

/-! ### The caller's CRC check (R103, R359) -/

/-- CRC.CHECKA of a readable view leaves the frame CRC of the covered bytes in `CRC`, and answers whether it
is the view's checksum. -/
theorem checkA_completes {s : State} {d : Nat} {m : BinMsg} {v : BinView} {r : Bytes}
    (hm : s.cfg.binMsgs[d]? = some m) (payload : s.viewPayload v = .ok r) :
    let crc := frameCrc (coveredBytes v s) (s.crcxAt d)
    ∃ t, checkA v d s = .next (t, decide (crc = v.checksum)) ∧ t.crc = crc := by
  have found : s.binMsg? d = some m := hm
  simp only [checkA, found, payload]
  exact ⟨_, rfl, rfl⟩

/-- The bytes CRC.CHECKA covers are 9 of a v2 header and 5 of a v1 header, and the payload. -/
theorem coveredBytes_eq (v : BinView) (s : State) : coveredBytes v s
    = (List.range (if v.ver = .v2 then 9 else 5)).map (fun i => s.wbaByte (1 + i))
      ++ s.wbaRun v.payload := by
  cases hv : v.ver <;> simp [coveredBytes, hv, headerLength, State.wbaRun]

/-- Settles O44: the view of SERA's frame holds the trimmed image and the frame's CRC; DESERA's zero fill puts
back what the trim took. -/
theorem binaryMessageRoundTrip : Obligations.BinaryMessageRoundTrip := by
  refine ⟨fun s d m rec sys comp seq base len elaborated hm hrec hlen idle fits => ?_,
    fun s d m v elaborated hm returned gen origin inside => ?_⟩
  · obtain ⟨-, greatest⟩ := elaborated.payloadSize hm
    have short : (trimPayload (payloadImage m.fields rec)).length ≤ 255 :=
      (trimPayload_length_le _).trans ((payloadImage_length hrec).trans_le greatest)
    let f := seraFrame m (s.crcxAt d) (payloadImage m.fields rec) sys comp seq
    let t := (s.setOut (Memory.writeRun s.out base f)).returns (.count f.length)
    have written : t.outRun base f.length = f := s.outRun_writeRun base f
    obtain ⟨v, hcfg, hcrcx, results, payload, msgid, hsys, hcomp, hseq, checksum⟩ :=
      feedA_seraFrame (extra := s.crcxAt d) (m := m) (sys := sys) (comp := comp) (seq := seq)
        short (s := t) idle ((seraFrame_length ..).trans_le fits)
    have hm' : (feedA f t).cfg.binMsgs[d]? = some m := (congrArg (·.binMsgs[d]?) hcfg).trans hm
    have extra : (feedA f t).crcxAt d = s.crcxAt d := congrArg (·.getD d 0) hcrcx
    obtain ⟨u', checked, -⟩ := checkA_completes hm' payload
    refine ⟨t, feedA f t, _, f.length, v, execSera_completes hm hrec hlen, rfl, ?_, results, msgid,
      hsys, hcomp, hseq, execDesera_completes hm' payload, ?_, u', ?_⟩
    · rw [written]
      exact execAll_expandFeedA f t
    · rw [if_pos msgid, lazyRecord_trimPayload, lazyRecord_payloadImage hrec]
    · rwa [extra, decide_eq_true checksum.symm] at checked
  · have payload := viewPayload_of_live (viewALive_of_returned returned gen origin) inside
    obtain ⟨t, checked, hcrc⟩ := checkA_completes hm payload
    rw [elaborated.crcxAt hm, coveredBytes_eq] at checked hcrc
    exact ⟨fun equal => ⟨t, decide_eq_true equal ▸ checked, hcrc⟩,
      fun differs => ⟨t, decide_eq_false differs ▸ checked, hcrc⟩⟩

end Sys2Proof.Machine
end

section
/-! PROOF. BINDB (47_text_serdes.md R385, R386): a live view's tokens column by column, EMPTY_TOKEN beyond
them. -/

namespace Sys2Proof.Machine

/-! ### O46: BINDB -/

/-- A view that was returned is live while its generation and its origin are the present ones (R40). -/
theorem viewBLive_of_returned {s : State} {v : TxtView} (returned : Result.viewB v ∈ s.results)
    (gen : v.gen = s.b.gen) (origin : v.origin = s.inst) : s.viewBLive v = true := by
  simp [State.viewBLive, returned, gen, origin]

theorem viewBLive_of_gen_ne {s : State} {v : TxtView} (h : v.gen ≠ s.b.gen) :
    s.viewBLive v = false := by
  simp [State.viewBLive, h]

theorem execBindb_badDescriptor {s : State} {d : Nat} {v : TxtView} (h : s.cfg.txtMsgs.length ≤ d) :
    exec (.bindb d v) s = .fault .badDescriptor := by
  have missing : s.txtMsg? d = none := List.getElem?_eq_none h
  simp only [exec, execBindb, missing]

/-- The token of a view's slice, tagged with the view's generation and origin (R386). -/
def lazyTokenOf (v : TxtView) (sl : Slice) : LazyTok := .slice sl v.gen v.origin

/-- The tokens BINDB binds the first `n` columns to (R385). -/
def boundTokens (v : TxtView) (n : Nat) : List LazyTok :=
  (v.fields.take n).map (lazyTokenOf v) ++ List.replicate (n - v.fields.length) .empty

/-- Column `k` is the view's token `k` while there is one. -/
theorem bindToken_eq {v : TxtView} (count : v.fieldCount = v.fields.length) (k : Nat) :
    bindToken v k = (v.fields[k]?.map (lazyTokenOf v)).getD .empty := by
  rw [bindToken, count]
  by_cases inside : k < v.fields.length
  · simp only [if_pos inside, List.getElem?_eq_getElem inside]
    rfl
  · simp only [if_neg inside, List.getElem?_eq_none (Nat.le_of_not_lt inside)]
    rfl

theorem map_bindToken {v : TxtView} (count : v.fieldCount = v.fields.length) (n : Nat) :
    (List.range n).map (bindToken v) = boundTokens v n := by
  have hlength : (boundTokens v n).length = n := by
    simp [boundTokens]
    omega
  refine List.ext_getElem (by simp [hlength]) fun k hk _ => ?_
  have hk : k < n := by simpa using hk
  rw [List.getElem_map, List.getElem_range, bindToken_eq count]
  by_cases inside : k < v.fields.length
  · simp [boundTokens, inside, hk]
  · simp [boundTokens, List.getElem_append, inside]

/-- BINDB of a live view completes and returns the tokens (R385). -/
theorem execBindb_completes {s : State} {d : Nat} {m : TxtMsg} {v : TxtView}
    (hm : s.cfg.txtMsgs[d]? = some m) (live : s.viewBLive v = true)
    (count : v.fieldCount = v.fields.length) : exec (.bindb d v) s
      = .next { s with results := .lazyTxt (boundTokens v m.fields.length) :: s.results } := by
  have found : s.txtMsg? d = some m := hm
  simp only [exec, execBindb, found, if_pos live, map_bindToken count]
  rfl

/-- Settles O46: the descriptor is looked at before the view, and a live view's columns are its tokens. -/
theorem bindbStoresTheTokens : Obligations.BindbStoresTheTokens := by
  intro s d v
  refine ⟨execBindb_badDescriptor, fun hd dead => execBindb_staleView hd ?_,
    fun m hm returned gen origin count =>
      execBindb_completes hm (viewBLive_of_returned returned gen origin) count⟩
  exact dead.elim viewBLive_of_gen_ne viewBLive_of_origin_ne

end Sys2Proof.Machine
end

section
/-! PROOF. The texts of a record as the fields of a sentence (43_text_field_codec.md R233 to R238,
47_text_serdes.md R381, R388): SERB puts what TXT.FMT returned, and no text holds a delimiter. -/

namespace Sys2Proof.Machine

/-! ### The texts SERB joins are those TXT.FMT returned (R381) -/

section
variable {s : State} {d : Nat} {m : TxtMsg}

/-- What TXT.FMT of a descriptor within its limits returned is the rendering. -/
theorem fmtField_of_exec {f : TxtField} {x : Option TxtVal} {bs : Bytes}
    (hprec : f.prec ≤ s.cfg.precMax) (hwidth : f.width ≤ s.cfg.widthMax)
    (h : exec (.txtFmt f x) s = .next (s.returns (.bytes bs))) : fmtField f x = .ok bs := by
  cases rendered : fmtField f x with
  | ok text =>
    rw [exec_txtFmt_of_ok hprec hwidth rendered] at h
    have results := congrArg State.results (Host.Outcome.next.inj h)
    simp only [State.returns_results, List.cons.injEq, Result.bytes.injEq, and_true] at results
    rw [results]
  | error r =>
    rw [exec_txtFmt_of_error hprec hwidth rendered] at h
    cases h

theorem fmtFields_of_columns {fs : List TxtField} {rec : List (Option TxtVal)} {texts : List Bytes}
    (fits : txtRecordFits fs rec = true) (hlength : texts.length = fs.length)
    (columns : ∀ (k : Nat) (f : TxtField) (x : Option TxtVal), fs[k]? = some f → rec[k]? = some x →
      fmtField f x = .ok (texts.getD k [])) : fmtFields fs rec = .ok texts := by
  induction fs generalizing rec texts with
  | nil =>
    obtain rfl := List.length_eq_zero_iff.1 hlength
    rfl
  | cons f fs ih =>
    obtain ⟨text, texts, rfl⟩ := List.exists_cons_of_length_eq_add_one hlength
    cases rec with
    | nil => cases fits
    | cons x xs =>
      obtain ⟨-, hxs⟩ := Bool.and_eq_true_iff.1 fits
      have first : fmtField f x = .ok text := columns 0 f x rfl rfl
      have rest := ih hxs (Nat.succ.inj hlength) fun k => columns (k + 1)
      simp only [fmtFields, first, rest]

/-- The texts TXT.FMT returned for a record are those SERB joins. -/
theorem fmtFields_of_textsOf {rec : List (Option TxtVal)} {texts : List Bytes}
    (elaborated : Elaborated s) (hm : s.cfg.txtMsgs[d]? = some m)
    (fits : txtRecordFits m.fields rec = true) (h : textsOf s m.fields rec texts) :
    fmtFields m.fields rec = .ok texts := by
  obtain ⟨hlength, returned⟩ := h
  refine fmtFields_of_columns fits hlength fun k f x hf hx => ?_
  obtain ⟨hprec, hwidth⟩ := elaborated.txtField_limits hm (List.mem_of_getElem? hf)
  exact fmtField_of_exec hprec hwidth (returned k f x hf hx)

end

/-! ### No text holds a delimiter (R128, R388) -/

/-- A string that may stand in a field: it holds no `,`, no `*` and no line feed (R128). -/
def FieldText (bs : Bytes) : Prop := ∀ c ∈ bs, c ∉ ([0x2C, 0x2A, 0x0A] : Bytes)

theorem FieldText.nil : FieldText [] := nofun

theorem FieldText.ne {bs : Bytes} (h : FieldText bs) {c : Byte} (hc : c ∈ bs) :
    c ≠ 0x2C ∧ c ≠ 0x2A ∧ c ≠ 0x0A := by
  simpa using h c hc

theorem FieldText.append {p q : Bytes} (hp : FieldText p) (hq : FieldText q) : FieldText (p ++ q) :=
  List.forall_mem_append.2 ⟨hp, hq⟩

theorem FieldText.of_digits {bs : Bytes} (h : bs.all isDigit = true) : FieldText bs := by
  intro c hc delimiter
  have digit := List.all_eq_true.1 h c hc
  fin_cases delimiter <;> cases digit

theorem FieldText.of_signText (neg : Bool) : FieldText (signText neg) := by
  cases neg
  · exact .nil
  · exact List.forall_mem_singleton.2 (by decide)

theorem FieldText.pad {bs : Bytes} (h : FieldText bs) (w : Nat) : FieldText (pad bs w) := by
  refine .append (.of_digits ?_) h
  rw [List.all_replicate, show isDigit (chr '0') = true from rfl, ite_self]

theorem FieldText.of_fmtInt (v : Int) (w : Nat) : FieldText (fmtInt v w) := by
  obtain ⟨digits, -⟩ := numeral_spec v.natAbs
  rw [fmtInt, dec_eq_numeral]
  exact (FieldText.of_signText _).append (.pad (.of_digits digits) w)

theorem FieldText.of_fixedText (n prec : Nat) : FieldText (fixedText n prec) := by
  obtain ⟨whole, -⟩ := numeral_spec (n / 10 ^ prec)
  obtain ⟨-, fraction, -⟩ := fractionText_spec n prec
  have point : FieldText (if prec = 0 then [] else [0x2E]) := by
    split_ifs
    · exact .nil
    · exact List.forall_mem_singleton.2 (by decide)
  rw [fixedText_eq]
  exact ((FieldText.of_digits whole).append point).append (.of_digits fraction)

theorem FieldText.of_fmtFloat {f : FloatFormat} {bits prec width : Nat} {bs : Bytes}
    (h : fmtFloat f bits prec width = .ok bs) : FieldText bs := by
  rw [fmtFloat] at h
  split at h
  · obtain rfl := Except.ok.inj h
    exact (FieldText.of_signText _).append ((FieldText.of_fixedText _ _).pad _)
  · cases h

/-- The rendering of a value of the kind: only a char or a string could bring a delimiter in. -/
theorem FieldText.of_fmtField {f : TxtField} {x : Option TxtVal} {bs : Bytes}
    (h : fmtField f x = .ok bs) (free : delimiterFree x) : FieldText bs := by
  rcases x with _ | v
  · obtain rfl := Except.ok.inj h
    exact .nil
  rw [fmtField] at h
  split at h
  · cases v with
    | int v => obtain rfl := Except.ok.inj h; exact .of_fmtInt v f.width
    | f32 bits => exact .of_fmtFloat h
    | f64 bits => exact .of_fmtFloat h
    | chr c => obtain rfl := Except.ok.inj h; exact List.forall_mem_singleton.2 free
    | str str => obtain rfl := Except.ok.inj h; exact free
  · cases h

theorem FieldText.of_fmtFields {fs : List TxtField} {rec : List (Option TxtVal)} {texts : List Bytes}
    (h : fmtFields fs rec = .ok texts) (free : ∀ x ∈ rec, delimiterFree x) :
    ∀ text ∈ texts, FieldText text := by
  induction fs generalizing rec texts with
  | nil => obtain rfl := Except.ok.inj h; nofun
  | cons f fs ih =>
    cases rec with
    | nil => obtain rfl := Except.ok.inj h; nofun
    | cons x xs =>
      obtain ⟨hx, hxs⟩ := List.forall_mem_cons.1 free
      rw [fmtFields] at h
      split at h
      · cases h
      rename_i text first
      split at h
      · cases h
      rename_i rest later
      obtain rfl := Except.ok.inj h
      exact List.forall_mem_cons.2 ⟨.of_fmtField first hx, ih later hxs⟩

/-- A talker operand is two bytes without a delimiter (R380). -/
theorem talkerOk_spec {talker : Bytes} (h : talkerOk talker = true) :
    talker.length = 2 ∧ FieldText talker := by
  simp only [talkerOk, Bool.and_eq_true, beq_iff_eq, List.all_eq_true, not_isDelimiter_iff] at h
  obtain ⟨hlength, legal⟩ := h
  exact ⟨hlength, fun c hc delimiter => legal c hc (List.mem_append_left [0x24, 0x21] delimiter)⟩

/-- The sentence id of an elaborated descriptor is three bytes without a delimiter (R231). -/
theorem Elaborated.sid_spec {s : State} {d : Nat} {m : TxtMsg} (h : Elaborated s)
    (hm : s.cfg.txtMsgs[d]? = some m) : m.sid.length = 3 ∧ FieldText m.sid := by
  obtain ⟨-, txtOk⟩ := (configOk_iff s.cfg).1 h.1
  obtain ⟨hlength, legal, -⟩ := txtOk m (List.mem_of_getElem? hm)
  exact ⟨hlength, fun c hc delimiter => legal c hc (List.mem_append_left [0x24, 0x21] delimiter)⟩

end Sys2Proof.Machine
end

section
/-! PROOF. Framer-B takes a sentence body apart (45_text_framer.md R312, R316 to R318): the slices of WBB it
closes read as the header and the texts SERB joined (47_text_serdes.md R381). -/

namespace Sys2Proof.Machine

/-! ### Runs of WBB (R72) -/

section
variable {t : State}

/-- `t` with the characters of `text` stored at the write index, other Framer-B registers and other
results. -/
def wroteB (t : State) (text : Bytes) (b : FramerB) (rs : List Result) : State :=
  { t with b := b, wbb := t.wbb.writeRun t.b.wr text, results := rs }

variable {text : Bytes} {b : FramerB} {rs : List Result}

theorem wroteB_byte (i : Nat) : (wroteB t text b rs).wbbByte i
    = if t.b.wr ≤ i ∧ i < t.b.wr + text.length then text.getD (i - t.b.wr) 0 else t.wbbByte i := by
  have hread : (wroteB t text b rs).wbb.read? i
      = if t.b.wr ≤ i ∧ i < t.b.wr + text.length then text[i - t.b.wr]? else t.wbb.read? i :=
    Memory.read?_writeRun text t.wbb.bytes t.b.wr i
  rw [State.wbbByte, hread]
  split
  · rw [List.getElem?_eq_getElem (by omega), List.getD_eq_getElem _ _ (by omega)]
    rfl
  · rfl

/-- The characters below the write index stay. -/
theorem wroteB_run_below {sl : Slice} (below : sl.off + sl.len ≤ t.b.wr) :
    (wroteB t text b rs).wbbRun sl = t.wbbRun sl := by
  refine List.map_congr_left fun i hi => ?_
  have hi : i < sl.len := List.mem_range.1 hi
  rw [wroteB_byte, if_neg (by omega)]

theorem wroteB_run_text : (wroteB t text b rs).wbbRun ⟨t.b.wr, text.length⟩ = text := by
  refine List.ext_getElem (by simp) fun i hi _ => ?_
  have hi : i < text.length := by simpa using hi
  simp [State.wbbRun, wroteB_byte, hi]

/-- A run of WBB, cut in two. -/
theorem State.wbbRun_add (s : State) (off n k : Nat) :
    s.wbbRun ⟨off, n + k⟩ = s.wbbRun ⟨off, n⟩ ++ s.wbbRun ⟨off + n, k⟩ := by
  simp [State.wbbRun, List.range_add, Nat.add_assoc, Function.comp_def]

end

/-- The slices lie in the stored part of the body and read as the texts. -/
def Reads (t : State) (sls : List Slice) (texts : List Bytes) : Prop :=
  (∀ sl ∈ sls, sl.off + sl.len ≤ t.b.wr) ∧ sls.map t.wbbRun = texts

section
variable {t : State} {sls sls' : List Slice} {texts texts' : List Bytes}

theorem Reads.append (h : Reads t sls texts) (h' : Reads t sls' texts') :
    Reads t (sls ++ sls') (texts ++ texts') := by
  obtain ⟨inside, rfl⟩ := h
  obtain ⟨inside', rfl⟩ := h'
  exact ⟨List.forall_mem_append.2 ⟨inside, inside'⟩, List.map_append⟩

theorem Reads.take (h : Reads t sls texts) (n : Nat) : Reads t (sls.take n) (texts.take n) := by
  obtain ⟨inside, rfl⟩ := h
  exact ⟨fun sl hsl => inside sl (List.mem_of_mem_take hsl), List.map_take⟩

theorem Reads.length_eq (h : Reads t sls texts) : sls.length = texts.length := by
  obtain ⟨-, rfl⟩ := h
  exact (List.length_map _).symm

/-- What is stored further on does not touch them. -/
theorem Reads.wrote {text : Bytes} {b : FramerB} {rs : List Result} (h : Reads t sls texts)
    (hwr : t.b.wr ≤ b.wr) : Reads (wroteB t text b rs) sls texts := by
  obtain ⟨inside, rfl⟩ := h
  exact ⟨fun sl hsl => (inside sl hsl).trans hwr,
    List.map_congr_left fun sl hsl => wroteB_run_below (inside sl hsl)⟩

/-- The run from `off` up to the write index grows by what is stored. -/
theorem Reads.extend {off : Nat} {cur text : Bytes} {b : FramerB} {rs : List Result}
    (h : Reads t [⟨off, t.b.wr - off⟩] [cur]) (hwr : b.wr = t.b.wr + text.length) :
    Reads (wroteB t text b rs) [⟨off, b.wr - off⟩] [cur ++ text] := by
  obtain ⟨inside, reads⟩ := h
  have hoff : off + (t.b.wr - off) ≤ t.b.wr := inside _ List.mem_cons_self
  have hcur : t.wbbRun ⟨off, t.b.wr - off⟩ = cur := List.head_eq_of_cons_eq reads
  have cut : b.wr - off = t.b.wr - off + text.length := by omega
  have start : off + (t.b.wr - off) = t.b.wr := by omega
  refine ⟨List.forall_mem_singleton.2 (Nat.le_of_eq (by simp only [wroteB]; omega)),
    congrArg (· :: []) ?_⟩
  rw [cut, State.wbbRun_add, wroteB_run_below hoff, hcur, start, wroteB_run_text]

end

/-! ### Characters that are no delimiters (R317) -/

/-- A text without a delimiter is stored and folded, and touches no other register. -/
theorem feedB_text {t : State} {text : Bytes} (h : t.b.state = .readFields) (plain : FieldText text)
    (room : t.b.wr + text.length ≤ t.cfg.bufCapB) : ∃ gen xor rs, feedB text t
      = wroteB t text { t.b with gen := gen, xor := xor, wr := t.b.wr + text.length } rs := by
  induction text generalizing t with
  | nil => exact ⟨_, _, _, rfl⟩
  | cons c cs ih =>
    obtain ⟨-, rest⟩ := List.forall_mem_cons.1 plain
    obtain ⟨notComma, notStar, notLineFeed⟩ := plain.ne List.mem_cons_self
    rw [List.length_cons] at room ⊢
    have first := (pushB_character h notLineFeed notStar notComma).trans
      (State.appendB_room (s := foldCharacterB t c) c _ (show t.b.wr < t.cfg.bufCapB by omega))
    obtain ⟨gen, xor, rs, later⟩ := ih (t := pushB c t) (by rw [first]; exact h) rest
      (by rw [first]; show t.b.wr + 1 + cs.length ≤ t.cfg.bufCapB; omega)
    refine ⟨gen, xor, rs, later.trans ?_⟩
    rw [first, Nat.add_comm cs.length, ← Nat.add_assoc]
    rfl

/-! ### The fields of a body (R316, R318) -/

/-- Under the registers `b` the header is closed with the given ids, and the field list holds the closed
fields, as far as it has entries for them. -/
structure FieldsClosed (talker sid : Bytes) (closed : List Bytes) (b : FramerB) (t : State) : Prop where
  header : b.hdr = true
  talker : b.talker = talker
  sid : b.sid = sid
  count : b.fcount ≤ t.cfg.fieldCap
  entries : b.flist.length = t.cfg.fieldCap
  reads : Reads t (b.flist.take b.fcount) (closed.take t.cfg.fieldCap)

/-- Framer-B has closed the header and the fields `closed`, is in a field that holds `current` so far, and has
room for `n` more characters. -/
structure InField (n : Nat) (talker sid : Bytes) (closed : List Bytes) (current : Bytes) (t : State) :
    Prop where
  state : t.b.state = .readFields
  fields : FieldsClosed talker sid closed t.b t
  current : Reads t [⟨t.b.fstart, t.b.wr - t.b.fstart⟩] [current]
  room : t.b.wr + n ≤ t.cfg.bufCapB

section
variable {n : Nat} {talker sid cur : Bytes} {closed texts : List Bytes} {t : State}

theorem InField.goesOn (h : InField n talker sid closed cur t) : shortHeaderStops t = false := by
  simp [shortHeaderStops, h.fields.header]

/-- CloseField adds the open field to the closed ones (R318). -/
theorem InField.close (h : InField n talker sid closed cur t) :
    FieldsClosed talker sid (closed ++ [cur]) (closedB t) t := by
  obtain ⟨header, htalker, hsid, count, entries, reads⟩ := h.fields
  have stored : t.b.fcount = min t.cfg.fieldCap closed.length := by
    have := reads.length_eq
    simp only [List.length_take] at this
    omega
  by_cases more : t.b.fcount < t.cfg.fieldCap
  · rw [closedB, if_pos header, if_pos more]
    refine ⟨header, htalker, hsid, more, by rw [List.length_set, entries], ?_⟩
    have before : closed.take t.cfg.fieldCap = closed := List.take_of_length_le (by omega)
    have after : (closed ++ [cur]).take t.cfg.fieldCap = closed ++ [cur] :=
      List.take_of_length_le (by rw [List.length_append, List.length_singleton]; omega)
    rw [before] at reads
    rw [after, List.take_add_one, List.take_set_of_le le_rfl, List.getElem?_set_self (by omega)]
    exact reads.append h.current
  · rw [closedB, if_pos header, if_neg more]
    refine ⟨header, htalker, hsid, count, entries, ?_⟩
    rwa [List.take_append_of_le_length (by omega)]

theorem InField.feedText {k : Nat} {text : Bytes} (h : InField k talker sid closed [] t)
    (plain : FieldText text) (hk : text.length + n ≤ k) : InField n talker sid closed text (feedB text t) := by
  obtain ⟨state, ⟨header, htalker, hsid, count, entries, reads⟩, current, room⟩ := h
  obtain ⟨gen, xor, rs, fed⟩ := feedB_text state plain (by omega)
  rw [fed]
  exact ⟨state, ⟨header, htalker, hsid, count, entries, reads.wrote (Nat.le_add_right ..)⟩,
    current.extend rfl, show t.b.wr + text.length + n ≤ t.cfg.bufCapB by omega⟩

/-- A comma closes the field and opens an empty one. -/
theorem InField.pushComma (h : InField (n + 1) talker sid closed cur t) :
    InField n talker sid (closed ++ [cur]) [] (pushB 0x2C t) := by
  obtain ⟨header, htalker, hsid, count, entries, reads⟩ := h.close
  have hstate : (closedB t).state = .readFields := (closedB_keeps t).1.trans h.state
  have room := h.room
  rw [pushB_comma_room h.state h.goesOn (by omega)]
  refine ⟨hstate, ⟨header, htalker, hsid, count, entries, ?kept⟩,
    ⟨List.forall_mem_singleton.2 (Nat.le_of_eq (Nat.add_sub_cancel' le_rfl)), ?empty⟩, ?room⟩
  case kept => exact reads.wrote (text := [0x2C]) (Nat.le_add_right ..)
  case empty => simp [State.wbbRun]
  case room => exact (by omega : t.b.wr + 1 + n ≤ t.cfg.bufCapB)

/-- Texts separated by commas are closed one after the other; the last one is left open. -/
theorem InField.feedTexts (h : InField (joinComma texts).length talker sid closed [] t)
    (plain : ∀ text ∈ texts, FieldText text) : ∃ closed' cur,
      InField 0 talker sid closed' cur (feedB (joinComma texts) t) ∧ closed ++ texts <+: closed' ++ [cur] := by
  induction texts using joinComma.induct generalizing closed t with
  | case1 => exact ⟨closed, [], h, by simp⟩
  | case2 text => exact ⟨closed, text, h.feedText (plain text List.mem_cons_self) le_rfl, List.prefix_rfl⟩
  | case3 text rest nonempty ih =>
    obtain ⟨first, later⟩ := List.forall_mem_cons.1 plain
    have cut : joinComma (text :: rest) = text ++ 0x2C :: joinComma rest := by
      rw [joinComma, List.append_assoc]
      · rfl
      · exact nonempty
    rw [cut] at h ⊢
    rw [List.length_append, List.length_cons] at h
    obtain ⟨closed', cur, inField, added⟩ := ih (h.feedText first le_rfl).pushComma later
    rw [List.append_assoc] at added
    refine ⟨closed', cur, ?_, added⟩
    rwa [feedB, List.foldl_append]

end

/-! ### The header (R312, R318) -/

/-- The close of a first field of five characters or more sets the ids (R318). -/
theorem closedB_header {t : State} (stillOpen : t.b.hdr = false) (long : 5 ≤ t.b.wr - t.b.fstart) :
    closedB t = { t.b with hdr := true, talker := t.wbbRun ⟨t.b.fstart, 2⟩,
                           sid := t.wbbRun ⟨t.b.fstart + 2, 3⟩ } := by
  rw [closedB, stillOpen, if_neg Bool.false_ne_true, if_pos long]

theorem Reads.nil (t : State) : Reads t [] [] := ⟨nofun, rfl⟩

/-- The comma behind a header of five characters sets the ids and opens an empty field. -/
theorem InField.of_headerComma {t : State} {talker sid : Bytes} {n : Nat} (state : t.b.state = .readFields)
    (first : t.b.hdr = false ∧ t.b.fstart = 0 ∧ t.b.fcount = 0) (entries : t.b.flist.length = t.cfg.fieldCap)
    (hwr : t.b.wr = 5) (header : t.wbbRun ⟨0, 5⟩ = talker ++ sid) (htalker : talker.length = 2)
    (room : 6 + n ≤ t.cfg.bufCapB) : InField n talker sid [] [] (pushB 0x2C t) := by
  obtain ⟨noHeader, start, noFields⟩ := first
  have goesOn : shortHeaderStops t = false := by simp [shortHeaderStops, hwr, start]
  rw [t.wbbRun_add 0 2 3] at header
  obtain ⟨htalkerRun, hsidRun⟩ := List.append_inj header (by rw [State.wbbRun_length, htalker])
  rw [pushB_comma_room state goesOn (by omega), closedB_header noHeader (by omega), start, hwr]
  refine ⟨state, ⟨rfl, htalkerRun, hsidRun, ?_, entries, ?_⟩,
    ⟨List.forall_mem_singleton.2 le_rfl, rfl⟩, room⟩
  · exact noFields.trans_le (Nat.zero_le _)
  · simp only [noFields, List.take_zero, List.take_nil]
    exact .nil _

/-- `s` after a start character (R312). -/
def startedB (s : State) : State :=
  { s with
    b := { s.b with xor := 0x00, wr := 0, fstart := 0, hdr := false, talker := [], sid := [], fcount := 0,
                    state := .readFields, gen := s.b.gen + 1 }
    wbb := s.wbb.forget, results := .noMessage :: s.results }

theorem pushB_start {s : State} {start : Byte} (idle : s.b.state = .seekStart)
    (hstart : start = 0x24 ∨ start = 0x21) : pushB start s = startedB s := by
  rw [pushB_seekStart _ idle, stepSeekStart_start _ hstart]
  rfl

/-- A header of five characters and its comma, behind the start character. -/
theorem InField.of_header {s : State} {talker sid : Bytes} {n : Nat}
    (entries : s.b.flist.length = s.cfg.fieldCap) (htalker : talker.length = 2) (hsid : sid.length = 3)
    (plain : FieldText (talker ++ sid)) (room : 6 + n ≤ s.cfg.bufCapB) :
    InField n talker sid [] [] (pushB 0x2C (feedB (talker ++ sid) (startedB s))) := by
  have hlength : (talker ++ sid).length = 5 := by rw [List.length_append, htalker, hsid]
  have hwr : (startedB s).b.wr + (talker ++ sid).length = 5 := by rw [hlength]; rfl
  obtain ⟨gen, xor, rs, fed⟩ := feedB_text (t := startedB s) rfl plain
    (hwr.trans_le (show 5 ≤ s.cfg.bufCapB by omega))
  rw [fed]
  refine .of_headerComma rfl ⟨rfl, rfl, rfl⟩ entries hwr ?_ htalker room
  rw [← hlength]
  exact wroteB_run_text

/-! ### The body of a sentence (R381) -/

section
variable {s : State} {talker sid : Bytes} {texts : List Bytes}

/-- Nothing in it ends the body. -/
theorem FieldText.no_ending {bs : Bytes} (h : FieldText bs) : ∀ c ∈ bs, c ≠ 0x2A ∧ c ≠ 0x0A :=
  fun _ hc => (h.ne hc).2

theorem comma_no_ending : ∀ c ∈ ([0x2C] : Bytes), c ≠ 0x2A ∧ c ≠ 0x0A := by decide

theorem joinComma_no_ending (plain : ∀ text ∈ texts, FieldText text) :
    ∀ c ∈ joinComma texts, c ≠ 0x2A ∧ c ≠ 0x0A := by
  induction texts using joinComma.induct with
  | case1 => nofun
  | case2 text => exact (plain text List.mem_cons_self).no_ending
  | case3 text rest nonempty ih =>
    obtain ⟨first, later⟩ := List.forall_mem_cons.1 plain
    rw [joinComma]
    · exact List.forall_mem_append.2
        ⟨List.forall_mem_append.2 ⟨first.no_ending, comma_no_ending⟩, ih later⟩
    · exact nonempty

theorem sentenceBody_eq (talker sid : Bytes) (texts : List Bytes) :
    sentenceBody talker sid texts = (talker ++ sid) ++ 0x2C :: joinComma texts :=
  List.append_assoc ..

variable (htalker : talker.length = 2 ∧ FieldText talker) (hsid : sid.length = 3 ∧ FieldText sid)
  (plain : ∀ text ∈ texts, FieldText text)
  (fits : (sentenceBody talker sid texts).length ≤ s.cfg.bufCapB)
include htalker hsid plain fits

/-- The body is stored up to its end, since its header is long enough for R319. -/
theorem AfterBody.of_sentenceBody (idle : s.b.state = .seekStart) :
    AfterBody s (sentenceBody talker sid texts) (feedB (sentenceBody talker sid texts) (startedB s)) := by
  obtain ⟨talkerLength, talkerText⟩ := htalker
  obtain ⟨sidLength, sidText⟩ := hsid
  have header : FieldText (talker ++ sid) := talkerText.append sidText
  have noComma : 0x2C ∉ talker ++ sid := fun h => (header.ne h).1 rfl
  have started : AfterBody s [] (startedB s) := pushB_start idle (.inl rfl) ▸ .start idle (.inl rfl)
  have noEnding : ∀ c ∈ sentenceBody talker sid texts, c ≠ 0x2A ∧ c ≠ 0x0A :=
    List.forall_mem_append.2 ⟨List.forall_mem_append.2 ⟨header.no_ending, comma_no_ending⟩,
      joinComma_no_ending plain⟩
  refine started.of_feedB (rest := []) noEnding (.inr ?_) fits
  rw [List.append_nil, sentenceBody_eq, takeWhile_firstField noComma, List.length_append, talkerLength,
    sidLength]

/-- The body leaves its last field open, all others closed. -/
theorem InField.of_sentenceBody (entries : s.b.flist.length = s.cfg.fieldCap) : ∃ closed cur,
    InField 0 talker sid closed cur (feedB (sentenceBody talker sid texts) (startedB s))
      ∧ texts <+: closed ++ [cur] := by
  obtain ⟨talkerLength, talkerText⟩ := htalker
  obtain ⟨sidLength, sidText⟩ := hsid
  rw [sentenceBody_eq] at fits ⊢
  have opened : InField (joinComma texts).length talker sid [] [] _ :=
    .of_header entries talkerLength sidLength (talkerText.append sidText) (by
      rw [List.length_append, List.length_append, List.length_cons] at fits
      omega)
  rw [feedB, List.foldl_append, List.foldl_cons]
  exact opened.feedTexts plain

end

end Sys2Proof.Machine
end

section
/-! PROOF. A text message there and back (47_text_serdes.md R388): the end of a sentence (45_text_framer.md R315,
R320 to R322), the view its registers give, and the texts BINDB's tokens read as. -/

namespace Sys2Proof.Machine

/-! ### The end of the sentence (R315, R320 to R322) -/

section
variable {t : State}

theorem pushB_firstHex (c : Byte) (h : t.b.state = .readChecksumHex) (first : t.b.idx = 0) :
    pushB c t = { t with
      b := { t.b with gen := t.b.gen + 1, hex := (c, t.b.hex.2), idx := 1 }
      results := .noMessage :: t.results } :=
  (pushB_readChecksumHex c h).trans (if_pos first)

theorem pushB_secondHex (c : Byte) (h : t.b.state = .readChecksumHex) (second : t.b.idx ≠ 0) :
    pushB c t = { t with
      b := { t.b with gen := t.b.gen + 1, hex := (t.b.hex.1, c), idx := 0, state := .readCRLF }
      results := .noMessage :: t.results } :=
  (pushB_readChecksumHex c h).trans (if_neg second)

theorem pushB_return (h : t.b.state = .readCRLF) (first : t.b.idx = 0) :
    pushB 0x0D t = { t with
      b := { t.b with gen := t.b.gen + 1, idx := 1 }, results := .noMessage :: t.results } :=
  (pushB_readCRLF _ h).trans (stepCRLF_return (s := bumpGenB t) first)

theorem pushB_lastLineFeed (h : t.b.state = .readCRLF) (second : t.b.idx ≠ 0) :
    pushB 0x0A t = validateB (bumpGenB t) :=
  (pushB_readCRLF _ h).trans (stepCRLF_lineFeed (s := bumpGenB t) second)

/-- The two checksum characters are taken whatever they are, and the terminator leads to the validation
(R320, R321). -/
theorem feedB_checksum (c0 c1 : Byte) (h : t.b.state = .readChecksumHex) (first : t.b.idx = 0) :
    feedB [c0, c1, 0x0D, 0x0A] t = validateB { t with
      b := { t.b with gen := t.b.gen + 4, hex := (c0, c1), idx := 1, state := .readCRLF }
      results := List.replicate 3 .noMessage ++ t.results } := by
  rw [feedB, List.foldl_cons, pushB_firstHex c0 h first, List.foldl_cons, pushB_secondHex c1,
    List.foldl_cons, pushB_return rfl rfl, List.foldl_cons, pushB_lastLineFeed rfl Nat.one_ne_zero,
    List.foldl_nil]
  · rfl
  · exact h
  · exact Nat.one_ne_zero

/-- A star closes the last field (R315). -/
theorem pushB_star_goesOn (h : t.b.state = .readFields) (goesOn : shortHeaderStops t = false) :
    pushB 0x2A t = { t with
      b := { closedB t with gen := t.b.gen + 1, idx := 0, state := .readChecksumHex },
      results := .noMessage :: t.results } := by
  obtain ⟨-, closes⟩ := frbPushClosesFields t h
  obtain ⟨star, -⟩ := closes goesOn
  exact Host.Outcome.next.inj star

/-- The digits of the running XOR are the right checksum (R322). -/
theorem validateB_hexPair (h : t.b.hex = (hexDigit (t.b.xor.toNat / 16), hexDigit (t.b.xor.toNat % 16))) :
    validateB t = (t.setB { t.b with state := .seekStart }).returns (.viewB (textViewOf t.inst t.b)) := by
  rw [validateB_of_byte (v := t.b.xor) (by rw [h]; exact hexByte_hexPair _), if_pos rfl]

/-- The star, the right checksum and the terminator end a sentence in its view. -/
theorem feedB_ending (h : t.b.state = .readFields) (goesOn : shortHeaderStops t = false) :
    ∃ gen hex idx,
      let b := { closedB t with gen := gen, hex := hex, idx := idx, state := .seekStart }
      feedB (0x2A :: hexPair t.b.xor ++ [0x0D, 0x0A]) t = { t with
        b := b, results := .viewB (textViewOf t.inst b) :: (List.replicate 4 .noMessage ++ t.results) } := by
  obtain ⟨-, hxor, -⟩ := closedB_keeps t
  let c0 := hexDigit (t.b.xor.toNat / 16)
  let c1 := hexDigit (t.b.xor.toNat % 16)
  have split : feedB (0x2A :: hexPair t.b.xor ++ [0x0D, 0x0A]) t
      = feedB [c0, c1, 0x0D, 0x0A] (pushB 0x2A t) := rfl
  refine ⟨t.b.gen + 5, (c0, c1), 1, split.trans ?_⟩
  rw [pushB_star_goesOn h goesOn, feedB_checksum c0 c1 rfl rfl,
    validateB_hexPair (by simp only [c0, c1, hxor])]
  rfl

end

/-! ### The view of a sentence (R42, R322) -/

/-- `v` is the view Framer-B of `u` has just emitted; it has the given ids, and its fields begin with slices
that read as the texts. -/
structure Presents (talker sid : Bytes) (texts : List Bytes) (v : TxtView) (u : State) : Prop where
  talker : v.talker = talker
  sid : v.sid = sid
  gen : v.gen = u.b.gen
  origin : v.origin = u.inst
  count : v.fieldCount = v.fields.length
  inside : ∀ sl ∈ v.fields.take texts.length, sl.off + sl.len ≤ u.cfg.bufCapB
  reads : (v.fields.take texts.length).map u.wbbRun = texts

/-- The view of the registers that hold the closed fields. -/
theorem FieldsClosed.presents {talker sid : Bytes} {closed texts : List Bytes} {b b' : FramerB} {t : State}
    {rs : List Result} (h : FieldsClosed talker sid closed b t) (room : t.b.wr ≤ t.cfg.bufCapB)
    (added : texts <+: closed) (short : texts.length ≤ t.cfg.fieldCap)
    (hb : b' = { b with gen := b'.gen, hex := b'.hex, idx := b'.idx, state := b'.state }) :
    Presents talker sid texts (textViewOf t.inst b') { t with b := b', results := rs } := by
  obtain ⟨-, htalker, hsid, count, entries, reads⟩ := h
  have fieldTexts : (closed.take t.cfg.fieldCap).take texts.length = texts := by
    rw [List.take_take, min_eq_left short, ← List.prefix_iff_eq_take.1 added]
  obtain ⟨inside, htexts⟩ := reads.take texts.length
  rw [hb]
  refine ⟨htalker, hsid, rfl, rfl, ?_, fun sl hsl => (inside sl hsl).trans room, htexts.trans fieldTexts⟩
  exact (List.length_take_of_le (count.trans_eq entries.symm)).symm

theorem sentence_eq_cons (body : Bytes) : sentence body
    = 0x24 :: (body ++ (0x2A :: hexPair (xorFold body 0x00) ++ [0x0D, 0x0A])) := by
  simp [sentence, chr]

theorem sentence_length (body : Bytes) : (sentence body).length = body.length + 6 := by
  simp [sentence]

/-- The sentence of a body that fits, pushed into an idle Framer-B with an entry for every field, ends in a
view that presents its texts. -/
theorem feedB_sentence {s : State} {talker sid : Bytes} {texts : List Bytes} (idle : s.b.state = .seekStart)
    (entries : s.b.flist.length = s.cfg.fieldCap) (htalker : talker.length = 2 ∧ FieldText talker)
    (hsid : sid.length = 3 ∧ FieldText sid) (plain : ∀ text ∈ texts, FieldText text)
    (short : texts.length ≤ s.cfg.fieldCap)
    (fits : (sentenceBody talker sid texts).length ≤ s.cfg.bufCapB) :
    let full := sentence (sentenceBody talker sid texts)
    let u := feedB full s
    ∃ v, u.cfg = s.cfg
      ∧ u.results = .viewB v :: (List.replicate (full.length - 1) .noMessage ++ s.results)
      ∧ Presents talker sid texts v u := by
  intro full u
  have after : AfterBody s _ _ := .of_sentenceBody htalker hsid plain fits idle
  obtain ⟨closed, cur, inField, added⟩ := InField.of_sentenceBody htalker hsid plain fits entries
  obtain ⟨gen, hex, idx, ended⟩ := feedB_ending inField.state inField.goesOn
  have split : u = feedB (0x2A :: hexPair (xorFold (sentenceBody talker sid texts) 0x00) ++ [0x0D, 0x0A])
      (feedB (sentenceBody talker sid texts) (startedB s)) := by
    simp only [u, full, sentence_eq_cons, ← pushB_start idle (.inl rfl)]
    exact List.foldl_append
  rw [after.xor, ← split] at ended
  have hlength : full.length - 1 = 4 + ((sentenceBody talker sid texts).length + 1) := by
    simp only [full, sentence_length]
    omega
  clear_value u
  subst ended
  refine ⟨_, after.cfg, ?_, inField.close.presents inField.room added (after.cfg ▸ short) rfl⟩
  rw [hlength, List.replicate_add, List.append_assoc, ← after.results]

/-! ### O47: the round trip (R388) -/

/-- The tokens bound from the view read as the texts while it is live (R386). -/
theorem Presents.boundTokens_read {talker sid : Bytes} {texts : List Bytes} {v : TxtView} {u : State}
    {rs : List Result} (h : Presents talker sid texts v u) (returned : Result.viewB v ∈ rs) :
    (boundTokens v texts.length).map (fun k => State.tokenBytes { u with results := rs } (.held k))
      = texts.map Except.ok := by
  have enough : texts.length - v.fields.length = 0 := by
    have := congrArg List.length h.reads
    rw [List.length_map, List.length_take] at this
    omega
  rw [boundTokens, enough, List.replicate_zero, List.append_nil, List.map_map]
  conv_rhs => rw [← h.reads, List.map_map]
  refine List.map_congr_left fun sl hsl => ?_
  have live : State.tokenLive { u with results := rs } (.slice sl v.gen v.origin) = true := by
    rw [h.gen, h.origin]
    exact tokenLive_of_view (s := { u with results := rs }) returned h.gen h.origin
      (List.mem_of_mem_take hsl)
  exact tokenBytes_of_live live (h.inside sl hsl)

/-- Settles O47: no text holds a delimiter, so that Framer-B takes the body apart where SERB put it together. -/
theorem textMessageRoundTrip : Obligations.TextMessageRoundTrip := by
  intro s d m talker rec base len texts elaborated hm htalker fits returned free long hbody hfields idle
    entries
  have rendered := fmtFields_of_textsOf elaborated hm fits returned
  have plain := FieldText.of_fmtFields rendered free
  obtain ⟨hlength, -⟩ := returned
  let full := sentence (sentenceBody talker m.sid texts)
  let t := (s.setOut (Memory.writeRun s.out base full)).returns (.count full.length)
  have serialized : exec (.serb d talker rec (.own base len)) s = .next t := by
    refine (execSerb_completes hm htalker fits rendered).trans ?_
    simp only [List.take_of_length_le long, min_eq_right long]
    rfl
  have written : t.outRun base full.length = full := s.outRun_writeRun base full
  obtain ⟨v, hcfg, results, presents⟩ := feedB_sentence (s := t) idle entries (talkerOk_spec htalker)
    (elaborated.sid_spec hm) plain (hlength.trans_le hfields) hbody
  have hm' : (feedB full t).cfg.txtMsgs[d]? = some m := (congrArg (·.txtMsgs[d]?) hcfg).trans hm
  have emitted : Result.viewB v ∈ (feedB full t).results := results ▸ List.mem_cons_self
  have live := viewBLive_of_returned emitted presents.gen presents.origin
  refine ⟨t, feedB full t, _, full.length, v, _, serialized, rfl, ?_, results, presents.talker, presents.sid,
    execBindb_completes hm' live presents.count, rfl, ?_⟩
  · rw [written]
    exact execAll_expandFeedB full t
  · rw [← hlength]
    exact presents.boundTokens_read (List.mem_cons_of_mem _ emitted)

end Sys2Proof.Machine
end

section
/-! PROOF. The errors a command reports (60_exceptions.md R410 to R414): a push reports
what its append, its close of a field or its validation raises, four commands check what they are
given, and no other command reports an error. -/

namespace Sys2Proof.Machine

/-- If `t` is `s` with one more result that is an error, the error is one of those listed. -/
def ReportsOnly (errors : List ErrorKind) (s t : State) : Prop :=
  ∀ e, t.results = .error e :: s.results → e ∈ errors

section
variable {errors : List ErrorKind} {s t : State}

theorem ReportsOnly.of_result {r : Result} (h : t.results = r :: s.results)
    (hr : ∀ e, r = .error e → e ∈ errors) : ReportsOnly errors s t :=
  fun e he => hr e (List.cons.inj (h.symm.trans he)).1

theorem ReportsOnly.of_raise (f : Option Framer) {e : ErrorKind} (he : e ∈ errors) :
    ReportsOnly errors s (s.raise f e) :=
  .of_result (s.raise_results f e) (by rintro _ ⟨⟩; exact he)

/-! ### Framer-A (R280) -/

theorem resultA_ne_error (i : BlockId) (a : FramerA) (e : ErrorKind) : resultA i a ≠ .error e := by
  unfold resultA
  split <;> nofun

/-- A push in frame reports nothing but the overrun (R271). -/
theorem ReportsOnly.pushA_inFrame (b : Byte) (inFrame : s.a.state ≠ .seekSync) :
    ReportsOnly [.bufferOverrun] s (pushA b s) := by
  by_cases room : s.a.wr < s.cfg.bufCapA
  · rw [pushA_room b inFrame room]
    exact .of_result rfl fun e he => absurd he (resultA_ne_error _ _ e)
  · rw [pushA_full b inFrame (Nat.le_of_not_lt room)]
    exact .of_raise (s := bumpGenA s) _ (List.mem_singleton_self _)

/-- The scan reports a marker for which there is no buffer, and drops other bytes silently (R273). -/
theorem ReportsOnly.stepSeekSync (b : Byte) (s : State) :
    ReportsOnly [.bufferOverrun] s (stepSeekSync b s) := by
  by_cases marker : b = 0xFD ∨ b = 0xFE
  · rw [stepSeekSync_marker s marker]
    obtain noBuffer | room := Nat.eq_zero_or_pos s.cfg.bufCapA
    · rw [startFrame_noBuffer _ b noBuffer]
      exact .of_result rfl (by rintro _ ⟨⟩; exact List.mem_singleton_self _)
    · rw [startFrame_room _ b room]
      exact .of_result rfl nofun
  · obtain ⟨notV2, notV1⟩ := not_or.1 marker
    rw [stepSeekSync_other s notV2 notV1]
    exact .of_result rfl nofun

theorem ReportsOnly.pushA (b : Byte) (s : State) : ReportsOnly [.bufferOverrun] s (pushA b s) := by
  by_cases idle : s.a.state = .seekSync
  · rw [pushA_seekSync b idle]
    exact .stepSeekSync b (bumpGenA s)
  · exact .pushA_inFrame b idle

/-! ### Framer-B (R311, R314, R319 to R322) -/

theorem ReportsOnly.of_appendB {c : Byte} {rest : State → State} (overrun : .bufferOverrun ∈ errors)
    (h : ∀ s', ReportsOnly errors s' (rest s')) : ReportsOnly errors s (s.appendB c rest) := by
  by_cases room : s.b.wr < s.cfg.bufCapB
  · rw [State.appendB_room c rest room]
    exact h (appendedB s c)
  · rw [State.appendB_full c rest (Nat.le_of_not_lt room)]
    exact .of_raise _ overrun

theorem ReportsOnly.of_closeField {rest : State → State} (violation : .protocolViolation ∈ errors)
    (h : ∀ s', ReportsOnly errors s' (rest s')) : ReportsOnly errors s (closeField s rest) := by
  rw [closeField_eq]
  split
  · exact .of_raise (s := s.setB _) _ violation
  · exact h (s.setB (closedB s))

/-- A body character reports a line feed, a short header or the overrun. -/
theorem ReportsOnly.stepFields (c : Byte) (overrun : .bufferOverrun ∈ errors)
    (violation : .protocolViolation ∈ errors) : ReportsOnly errors s (stepFields c s) := by
  unfold Machine.stepFields
  split_ifs
  · exact .of_raise _ violation
  · exact .of_closeField violation fun _ => .of_result rfl nofun
  · exact .of_closeField (s := s.setB _) violation fun _ =>
      .of_appendB overrun fun _ => .of_result rfl nofun
  · exact .of_appendB (s := s.setB _) overrun fun _ => .of_result rfl nofun

/-- The validation reports the hex test or the comparison (R322). -/
theorem ReportsOnly.validateB (noDigit : .invalidChecksumChar ∈ errors)
    (mismatch : .checksumMismatch ∈ errors) : ReportsOnly errors s (validateB s) := by
  cases spelled : hexByte s.b.hex.1 s.b.hex.2 with
  | none =>
    rw [validateB_noDigit spelled]
    exact .of_raise _ noDigit
  | some v =>
    rw [validateB_of_byte spelled]
    split
    · exact .of_result rfl nofun
    · exact .of_raise _ mismatch

/-- The terminator reports a deviating character, or what the validation does (R321). -/
theorem ReportsOnly.stepCRLF (c : Byte) (violation : .protocolViolation ∈ errors)
    (noDigit : .invalidChecksumChar ∈ errors) (mismatch : .checksumMismatch ∈ errors) :
    ReportsOnly errors s (stepCRLF c s) := by
  unfold Machine.stepCRLF
  split_ifs
  · exact .of_result rfl nofun
  · exact .of_raise _ violation
  · exact .validateB noDigit mismatch
  · exact .of_raise _ violation

theorem ReportsOnly.pushB (c : Byte) (s : State) :
    ReportsOnly (reportable (.frbPush c)) s (pushB c s) := by
  cases hs : s.b.state
  case seekStart =>
    rw [pushB_seekStart c hs, stepSeekStart]
    split <;> exact .of_result rfl nofun
  case readFields =>
    rw [pushB_readFields c hs]
    exact .stepFields (s := bumpGenB s) c (by simp [reportable]) (by simp [reportable])
  case readChecksumHex =>
    rw [pushB_readChecksumHex c hs, stepHex]
    split <;> exact .of_result rfl nofun
  case readCRLF =>
    rw [pushB_readCRLF c hs]
    exact .stepCRLF (s := bumpGenB s) c (by simp [reportable]) (by simp [reportable])
      (by simp [reportable])

/-! ### The commands that check what they are given (R185, R240, R351, R355) -/

theorem ReportsOnly.of_hexDec {c0 c1 : Byte} (h : execHexDec c0 c1 s = .next t) :
    ReportsOnly [.invalidChecksumChar] s t := by
  unfold execHexDec at h
  split at h <;> cases h
  · exact .of_result rfl nofun
  · exact .of_raise none (List.mem_singleton_self _)

theorem parseFloatToken_error {f : FloatFormat} {wrap : Nat → TxtVal} {bs : Bytes} {e : ErrorKind}
    (h : parseFloatToken f wrap bs = .ok (.error e)) : e = .parseError := by
  unfold parseFloatToken at h
  split at h <;> split at h <;> cases h <;> rfl

theorem parseIntToken_error {k : TxtKind} {bs : Bytes} {e : ErrorKind}
    (h : parseIntToken k bs = .error e) : e = .parseError := by
  unfold parseIntToken at h
  split at h
  · split at h <;> cases h
    rfl
  · cases h
    rfl

/-- The one error of a token is ParseError (R241, R243). -/
theorem parseToken_error {k : TxtKind} {bs : Bytes} {e : ErrorKind}
    (h : parseToken k bs = .ok (.error e)) : e = .parseError := by
  unfold parseToken at h
  split at h
  · cases h
  · cases k
    case float32 | float64 => exact parseFloatToken_error h
    case char | string => cases h
    all_goals exact parseIntToken_error (Except.ok.inj h)

theorem ReportsOnly.of_txtParse {kind : TxtKind} {tok : Tok} (h : execTxtParse kind tok s = .next t) :
    ReportsOnly [.parseError] s t := by
  unfold execTxtParse at h
  split at h
  · cases h
  · split at h <;> cases h
    case h_2 e parsed => exact .of_raise none (List.mem_singleton.2 (parseToken_error parsed))
    case h_3 r _ parsed =>
      exact .of_result rfl fun e he => List.mem_singleton.2 (parseToken_error (he ▸ parsed))

theorem ReportsOnly.of_sera {d : Nat} {rec : List (Option BinVal)} {sys comp seq : Byte} {out : OutBuf}
    (h : execSera d rec sys comp seq out s = .next t) : ReportsOnly [.bufferOverrun] s t := by
  unfold execSera at h
  split at h
  · cases h
  · split_ifs at h <;> cases h
    · exact .of_raise (s := s.scribbleOut _ _) none (List.mem_singleton_self _)
    · exact .of_result rfl nofun

theorem ReportsOnly.of_desera {d : Nat} {view : BinView} (h : execDesera d view s = .next t) :
    ReportsOnly [.parseError] s t := by
  unfold execDesera at h
  split at h
  · cases h
  · split at h
    · cases h
    · split at h <;> cases h
      · exact .of_result rfl nofun
      · exact .of_raise none (List.mem_singleton_self _)

/-! ### The commands that report no error -/

theorem ReportsOnly.of_crcExtra {d : Nat} (h : execCrcExtra d s = .next t) : ReportsOnly [] s t := by
  unfold execCrcExtra at h
  split at h <;> cases h
  exact .of_result rfl nofun

theorem ReportsOnly.of_binEnc {ptype count : Nat} {x : BinVal}
    (h : execBinEnc ptype count x s = .next t) : ReportsOnly [] s t := by
  unfold execBinEnc at h
  split at h
  · cases h
  · split at h <;> cases h
    exact .of_result rfl nofun

theorem ReportsOnly.of_binDec {ptype count : Nat} {bs : Bytes}
    (h : execBinDec ptype count bs s = .next t) : ReportsOnly [] s t := by
  unfold execBinDec at h
  split at h <;> cases h
  exact .of_result rfl nofun

theorem ReportsOnly.of_txtFmt {fd : TxtField} {x : Option TxtVal} (h : execTxtFmt fd x s = .next t) :
    ReportsOnly [] s t := by
  unfold execTxtFmt at h
  split at h
  · split at h <;> cases h
    exact .of_result rfl nofun
  · cases h

theorem ReportsOnly.of_serb {d : Nat} {talker : Bytes} {rec : List (Option TxtVal)} {out : OutBuf}
    (h : execSerb d talker rec out s = .next t) : ReportsOnly [] s t := by
  unfold execSerb at h
  split at h
  · cases h
  · split_ifs at h
    split at h <;> cases h
    exact .of_result rfl nofun

theorem ReportsOnly.of_bindb {d : Nat} {view : TxtView} (h : execBindb d view s = .next t) :
    ReportsOnly [] s t := by
  unfold execBindb at h
  split at h
  · cases h
  · split at h <;> cases h
    exact .of_result rfl nofun

/-! ### Every command (R414) -/

theorem ReportsOnly.of_exec {i : Instr} (h : exec i s = .next t) :
    ReportsOnly (reportable i) s t := by
  cases i
  case fraPush b => cases h; exact .pushA b s
  case frbPush c => cases h; exact .pushB c s
  case hexDec => exact .of_hexDec h
  case txtParse => exact .of_txtParse h
  case sera => exact .of_sera h
  case desera => exact .of_desera h
  case crcExtra => exact .of_crcExtra h
  case binEnc => exact .of_binEnc h
  case binDec => exact .of_binDec h
  case txtFmt => exact .of_txtFmt h
  case serb => exact .of_serb h
  case bindb => exact .of_bindb h
  all_goals cases h; exact .of_result rfl nofun

end

/-- The table of R414 lists neither InvalidMagic (R412) nor FieldCountMismatch (R413). -/
theorem not_mem_reportable (i : Instr) :
    ErrorKind.invalidMagic ∉ reportable i ∧ ErrorKind.fieldCountMismatch ∉ reportable i := by
  cases i <;> simp [reportable]

/-- Settles O51: what a command reports is in its row of the table, which lists neither of the two. -/
theorem onlyListedErrorsAreReported : Obligations.OnlyListedErrorsAreReported := by
  intro i s t e h reported
  have listed : e ∈ reportable i := ReportsOnly.of_exec h e reported
  obtain ⟨noMagic, noCountMismatch⟩ := not_mem_reportable i
  exact ⟨listed, ne_of_mem_of_not_mem listed noMagic, ne_of_mem_of_not_mem listed noCountMismatch⟩

end Sys2Proof.Machine
end

section
/-! PROOF. Runs and systems of blocks (60_exceptions.md R425, R426, R440), and the four partial resets
together (70_reset_and_hazards.md R451). -/

namespace Sys2Proof.Machine

/-! ### O54: the records of a run -/

/-- Settles O54, for each outcome of the step: only a stop records anything, and it drops the host action. -/
theorem runsKeepTheirRecords : Obligations.RunsKeepTheirRecords := by
  intro r
  unfold Run.advance
  cases step r.state with
  | next s => exact ⟨⟨[], rfl⟩, ⟨[], rfl⟩, fun recorded => recorded.elim (absurd rfl) (absurd rfl)⟩
  | fault f => exact ⟨⟨[f], rfl⟩, ⟨[], rfl⟩, fun _ => rfl⟩
  | refused m => exact ⟨⟨[], rfl⟩, ⟨[m], rfl⟩, fun _ => rfl⟩

/-! ### O55: several blocks -/

/-- Whatever a host action does, the block keeps its number. -/
theorem perform_block {act : HostAction} {s t : State} (h : perform act s = .next t) :
    t.inst.block = s.inst.block := by
  cases act with
  | command c =>
    obtain ⟨i, -, he⟩ := issueCommand_next h
    obtain ⟨-, -, -, hinst, -⟩ := eachCommandReturnsOneResult i s t he
    rw [hinst]
  | writeBuffer f index v =>
    rcases hostWriteBuffer_next h with ⟨-, -, -, rfl⟩ | ⟨-, -, -, rfl⟩ <;> rfl
  | writeOut addr v => cases h; rfl
  | writeTables => cases h
  | reset => cases h; rfl
  | elaborate cfg =>
    obtain ⟨-, rfl⟩ := elaborate_next h
    rfl

theorem step_block {s t : State} (h : step s = .next t) : t.inst.block = s.inst.block := by
  rcases step_next h with rfl | ⟨act, rest, -, hp⟩
  · rfl
  · exact perform_block (s := s.setPending rest) hp

theorem Run.steps_block (k : Nat) (r : Run) :
    (Run.steps k r).state.inst.block = r.state.inst.block :=
  Run.steps_invariant (P := fun s => s.inst.block = r.state.inst.block)
    (fun _ _ hs hstep => (step_block hstep).trans hs) (fun _ hs => hs) k r rfl

/-- A step of the system advances the block that steps, and no other. -/
theorem getElem?_systemStep (k j : Nat) (sys : System) : (systemStep k sys)[j]?
    = (sys[j]?).map (if k = j then Run.advance else id) := by
  rw [systemStep, List.getElem?_modify]
  split <;> simp

/-- A block is where its own turns of the schedule take it. -/
theorem getElem?_systemRun (ks : List Nat) (sys : System) (j : Nat) :
    (systemRun ks sys)[j]? = (sys[j]?).map (Run.steps (ks.count j)) := by
  induction ks generalizing sys with
  | nil => exact Option.map_id'.symm
  | cons k ks ih =>
    have later : (systemRun (k :: ks) sys)[j]? = _ := ih (systemStep k sys)
    rw [later, getElem?_systemStep, Option.map_map]
    congr 1
    by_cases turn : k = j
    · rw [turn, List.count_cons_self, if_pos rfl]
      rfl
    · rw [List.count_cons_of_ne turn, if_neg turn]
      rfl

/-- Settles O55: a block's steps are its own, and none of them changes its number. -/
theorem blocksShareNothing : Obligations.BlocksShareNothing := by
  intro ks sys
  refine ⟨getElem?_systemRun ks sys, fun numbered k r hr => ?_⟩
  rw [getElem?_systemRun] at hr
  obtain ⟨r₀, hr₀, rfl⟩ := Option.map_eq_some_iff.1 hr
  exact (Run.steps_block _ r₀).trans (numbered k r₀ hr₀)

/-! ### O57: the partial resets -/

/-- The two framer resets, then the initial values of the two accumulators (R151, R181, R270, R310). -/
theorem execAll_partialResets (s : State) :
    execAll [.fraReset, .frbReset, .crcInit, .xorInit] s = .next { resetB (resetA s) with
      crc := 0xFFFF, xsum := 0x00
      results := .byte 0x00 :: .half 0xFFFF :: .done :: .done :: s.results } := by
  simp only [execAll, exec, execFraReset_eq, execFrbReset_eq]
  rfl

/-- Settles O57: each framer holds what its reset draws, which lies in range. -/
theorem partialResetsMakeAReset : Obligations.PartialResetsMakeAReset := by
  refine fun s => ⟨_, execAll_partialResets s,
    ⟨rfl, rfl, rfl, rfl, rfl, rfl, rfl, rfl, rfl, (inRange_iff _).2 ⟨?_, ?_⟩⟩, rfl, rfl, rfl, rfl⟩
  · exact .of_junkA rfl (Buffer.wf_forget _ _)
  · exact .of_junkB rfl (Buffer.wf_forget _ _)

end Sys2Proof.Machine
end
